-- ==== Sys2Proof/Word.lean ====
section
/-! DEFINITION. The byte, byte-string and handle types (spec 00_scope R0, 10_state R13). -/

namespace Sys2Proof

/-- A byte: 8 bits, bit 0 least significant (R0). -/
abbrev Byte := BitVec 8

/-- A byte string in wire order, first byte sent first (R0). -/
abbrev Bytes := List Byte

/-- The opaque reference to a WorkUnit (R13), as its number: no operation computes with it. Its width is the open parameter
`WU_W`, so the number is below `2 ^ WU_W` (`Sys2Proof.Machine.fitHandle`; log 8). -/
abbrev Handle := Nat

end Sys2Proof
end

