-- ==== Sys2Proof/Config.lean ====
section
/-! DEFINITION. The implementation parameters of spec 00_scope R9. Those of kind "fixed" are constants, the source's values.
Those of kind "open" or "decision" are arguments of the model (R11; 92_eei_decisions, its closing paragraph): the record
`Params`, which State carries and no step writes, with the table's values as its default. `INIT_SEQ`, the one parameter that
is a table, is the field `initSeq` of State (log 9). -/

namespace Sys2Proof.Config

/-- `PREAMBLE`, first byte (R9; fixed). -/
def preamble0 : Byte := 0x55
/-- `PREAMBLE`, second byte (R9; fixed). -/
def preamble1 : Byte := 0xAA
/-- `CMD_OVERHEAD` (R9; fixed): total bytes of a command frame minus its payload bytes. -/
def cmdOverhead : Nat := 5
/-- `JOB_OVERHEAD` (R9; fixed): total bytes of a job frame minus its payload bytes. -/
def jobOverhead : Nat := 6
/-- `REF_CLK` in MHz (R9; fixed). -/
def refClk : Nat := 25
/-- `FB_MIN` (R9; fixed). -/
def fbMin : Nat := 0xA0
/-- `FB_MAX` (R9; fixed). -/
def fbMax : Nat := 0xEF
/-- `PD_MIN` (R9; fixed): the least post divider, at which the search's loops end (R132). -/
def pdMin : Nat := 1
/-- `PD_MAX` (R9; fixed): the greatest post divider, at which the search's loops begin (R132). -/
def pdMax : Nat := 7
/-- `VCO_HF` in MHz (R9, R136; fixed). -/
def vcoHf : Nat := 2400
/-- `CEILING` in MHz (R9; fixed); the comparison is strict. -/
def ceiling : Nat := 1
/-- `JOB_STRIDE` (R9, R151; fixed). -/
def jobStride : BitVec 7 := 24
/-- `VERSION_SHIFT` (R9, R166; fixed). -/
def versionShift : Nat := 13
/-- `JOB_PAYLOAD_LEN` (R9, R60; fixed): the bytes of a job payload. -/
def jobPayloadLen : Nat := 82
/-- `MAX_CHIPS` (R9; decision D17): the greatest value of the 8-bit `CHIP_COUNT`. It is no argument: R16 and R51 give the
count and `exp_count` 8 bits, and that width is what makes it 255 (R118). -/
def maxChips : Nat := 2 ^ 8 - 1
/-- `RESP_LEN` (R9, R62; fixed). -/
abbrev respLen : Nat := 11
/-- `JOB_MOD` as the slot count (R9, R13; fixed). -/
abbrev slotCount : Nat := 128

end Sys2Proof.Config

namespace Sys2Proof

/-- The parameters of R9 that a model takes as arguments: `WU_W`, open, and those of kind "decision" (R11; log 8, log 14). -/
structure Params where
  /-- `LEN_OFF_CMD` (R54; D10): length field minus payload bytes, command frame. -/
  lenOffCmd : Nat
  /-- `LEN_OFF_JOB` (R54; D10): length field minus payload bytes, job frame. -/
  lenOffJob : Nat
  /-- `CRC5_POLY` (R81; D5). -/
  crc5Poly : BitVec 5
  /-- `CRC5_INIT` (R81; D5). -/
  crc5Init : BitVec 5
  /-- `CRC16_POLY` (R84; D7). -/
  crc16Poly : BitVec 16
  /-- `CRC16_INIT` (R84; D7). -/
  crc16Init : BitVec 16
  /-- `HDR_JOB_FLAG` (R55; D8). -/
  hdrJobFlag : Byte
  /-- `HDR_CMD_FLAG` (R55; D8). -/
  hdrCmdFlag : Byte
  /-- `HDR_GROUP_ALL` (R55; D8). -/
  hdrGroupAll : Byte
  /-- `HDR_READID` (R65; D13). -/
  hdrReadid : Byte
  /-- `READID_PAYLOAD` (R65; D13). -/
  readidPayload : Bytes
  /-- `HDR_SETADDR` (R65; D18). -/
  hdrSetaddr : Byte
  /-- `HDR_WRITE_ALL` (R138; D22). -/
  hdrWriteAll : Byte
  /-- `HDR_JOB` (R55, R67; D9): the header the host supplies for a job frame. -/
  hdrJob : Byte
  /-- `ID_OFFSET` (R64; D14). -/
  idOffset : Nat
  /-- `PLL_REG` (R61; D21). -/
  pllReg : Byte
  /-- `PLL_FRAC` (R131; D20): fraction bits of the target operand. -/
  pllFrac : Nat
  /-- `WU_W` (R13; D25): width in bits of a handle. -/
  wuW : Nat
deriving DecidableEq, Repr

/-- The values of R9's table. -/
def Params.default : Params where
  lenOffCmd := 3
  lenOffJob := 4
  crc5Poly := 0x05
  crc5Init := 0x1F
  crc16Poly := 0x1021
  crc16Init := 0xFFFF
  hdrJobFlag := 0x20
  hdrCmdFlag := 0x40
  hdrGroupAll := 0x10
  hdrReadid := 0x52
  readidPayload := [0x00, 0x00]
  hdrSetaddr := 0x40
  hdrWriteAll := 0x51
  hdrJob := 0x21
  idOffset := 2
  pllReg := 0x08
  pllFrac := 16
  wuW := 32

end Sys2Proof
end

