-- ==== Sys2Proof/Syntax.lean ====
section
/-! DEFINITION. The operations: one constructor of `Instr` per row of spec/opcode_table.json.
Each constructor carries first the command port it is presented on (R51); operands have the widths of R51's table. -/

namespace Sys2Proof

/-- The two command ports (R7): `S`, the send context and start-up; `R`, the receive context. -/
inductive Port where
  | S
  | R
deriving DecidableEq, Repr

/-- The operands of `JOBPAYLOAD` (R98), in the order of the 82-byte layout of R60. -/
structure JobFields where
  jobId : Byte
  numMidstates : Byte
  startingNonce : BitVec 32
  nbits : BitVec 32
  ntime : BitVec 32
  merkleRoot : Vector Byte 32
  prevBlockHash : Vector Byte 32
  version : BitVec 32
deriving DecidableEq, Repr

/-- The fields of a response record, in wire order (R62). -/
structure RecordFields where
  preamble : BitVec 16
  nonce : BitVec 32
  midstateNum : Byte
  replyId : Byte
  version : BitVec 16
  crc : Byte
deriving DecidableEq, Repr

/-- One frame to build: the operands `h` and `P` of `encode` (R92, R182). -/
structure FrameSpec where
  header : Byte
  payload : Bytes
deriving DecidableEq, Repr

/-- An operation presented on a command port. The first seventeen are the operations of R51, the next fifteen the
reserved codes of R52, the last nine the wire rows of the table (R53, R55, R60 to R62, R64, R65), whose meaning as
something presented to the engine is log 2 (DESIGN CHOICE, unsafe). -/
inductive Instr where
  /-- `CRC5 B` (R82). -/
  | crc5 (p : Port) (B : Bytes)
  /-- `CRC16 B` (R85). -/
  | crc16 (p : Port) (B : Bytes)
  /-- `ENCODE h, P` (R92). -/
  | encode (p : Port) (h : Byte) (P : Bytes)
  /-- `DECODE B` (R95). -/
  | decode (p : Port) (B : Bytes)
  /-- `JOBPAYLOAD …` (R98). -/
  | jobpayload (p : Port) (f : JobFields)
  /-- `SEND F` (R100). -/
  | send (p : Port) (F : Bytes)
  /-- `ENUMERATE exp_count, exp_id, exp_len` (R111). -/
  | enumerate (p : Port) (expCount : BitVec 8) (expId : BitVec 16) (expLen : BitVec 8)
  /-- `ASSIGN` (R116). -/
  | assign (p : Port)
  /-- `SOLVE t` (R133): `t` in units of 1/65536 MHz (R131). -/
  | solve (p : Port) (t : BitVec 32)
  /-- `SETFREQ t` (R138). -/
  | setfreq (p : Port) (t : BitVec 32)
  /-- `SUBMIT wu, version` (R151). -/
  | submit (p : Port) (wu : Handle) (version : BitVec 32)
  /-- `MARK_VALID j` (R153). -/
  | markValid (p : Port) (j : BitVec 7)
  /-- `IS_VALID j` (R154). -/
  | isValid (p : Port) (j : BitVec 7)
  /-- `TAKE j` (R155). -/
  | take (p : Port) (j : BitVec 7)
  /-- `PARSE B` (R168): the port is 11 bytes wide. -/
  | parse (p : Port) (B : Vector Byte Config.respLen)
  /-- `RESULT` (R170). -/
  | result (p : Port)
  /-- `INIT_STEP` (R181). -/
  | initStep (p : Port)
  /-- Reserved operation code 0x11 (R52). -/
  | reserved11 (p : Port)
  /-- Reserved operation code 0x12 (R52). -/
  | reserved12 (p : Port)
  /-- Reserved operation code 0x13 (R52). -/
  | reserved13 (p : Port)
  /-- Reserved operation code 0x14 (R52). -/
  | reserved14 (p : Port)
  /-- Reserved operation code 0x15 (R52). -/
  | reserved15 (p : Port)
  /-- Reserved operation code 0x16 (R52). -/
  | reserved16 (p : Port)
  /-- Reserved operation code 0x17 (R52). -/
  | reserved17 (p : Port)
  /-- Reserved operation code 0x18 (R52). -/
  | reserved18 (p : Port)
  /-- Reserved operation code 0x19 (R52). -/
  | reserved19 (p : Port)
  /-- Reserved operation code 0x1A (R52). -/
  | reserved1A (p : Port)
  /-- Reserved operation code 0x1B (R52). -/
  | reserved1B (p : Port)
  /-- Reserved operation code 0x1C (R52). -/
  | reserved1C (p : Port)
  /-- Reserved operation code 0x1D (R52). -/
  | reserved1D (p : Port)
  /-- Reserved operation code 0x1E (R52). -/
  | reserved1E (p : Port)
  /-- Reserved operation code 0x1F (R52). -/
  | reserved1F (p : Port)
  /-- `FRAME_COMMAND` (R53): header byte with bit 5 clear, length byte, then every byte after it, checksum included. -/
  | frameCommand (p : Port) (h len : Byte) (rest : Bytes)
  /-- `FRAME_JOB` (R53): header byte with bit 5 set, length byte, then every byte after it, checksum included. -/
  | frameJob (p : Port) (h len : Byte) (rest : Bytes)
  /-- `HEADER` (R55): bit 7, command flag, job flag, group, command (bits 3:0). -/
  | header (p : Port) (t c j g : Bool) (k : BitVec 4)
  /-- `READID` (R65): the row's only free byte is its checksum, the last. -/
  | readid (p : Port) (crc : Byte)
  /-- `SETADDR` (R65): the chip address, byte 4, and the checksum, byte 6. -/
  | setaddr (p : Port) (a : Byte) (crc : Byte)
  /-- `PLLWRITE` (R61): the high-frequency bit, the dividers as stored (`post1 - 1`, `post2 - 1`), the checksum. -/
  | pllwrite (p : Port) (hf : Bool) (fb : Byte) (refdiv : BitVec 2) (post1m post2m : BitVec 3) (crc : Byte)
  /-- `JOBPAYLOAD_LAYOUT` (R60). -/
  | jobpayloadLayout (p : Port) (f : JobFields)
  /-- `RESULT_RECORD` (R62). -/
  | resultRecord (p : Port) (r : RecordFields)
  /-- `ID_RECORD` (R64): two preamble bytes, the chip identifier, the other `exp_len - 4` bytes. -/
  | idRecord (p : Port) (preamble : BitVec 16) (chipId : BitVec 16) (rest : Bytes)
deriving DecidableEq, Repr

/-- The command port an operation is presented on (R51). -/
def Instr.port : Instr → Port
  | .crc5 p _ => p
  | .crc16 p _ => p
  | .encode p _ _ => p
  | .decode p _ => p
  | .jobpayload p _ => p
  | .send p _ => p
  | .enumerate p _ _ _ => p
  | .assign p => p
  | .solve p _ => p
  | .setfreq p _ => p
  | .submit p _ _ => p
  | .markValid p _ => p
  | .isValid p _ => p
  | .take p _ => p
  | .parse p _ => p
  | .result p => p
  | .initStep p => p
  | .reserved11 p => p
  | .reserved12 p => p
  | .reserved13 p => p
  | .reserved14 p => p
  | .reserved15 p => p
  | .reserved16 p => p
  | .reserved17 p => p
  | .reserved18 p => p
  | .reserved19 p => p
  | .reserved1A p => p
  | .reserved1B p => p
  | .reserved1C p => p
  | .reserved1D p => p
  | .reserved1E p => p
  | .reserved1F p => p
  | .frameCommand p _ _ _ => p
  | .frameJob p _ _ _ => p
  | .header p _ _ _ _ _ => p
  | .readid p _ => p
  | .setaddr p _ _ => p
  | .pllwrite p _ _ _ _ _ _ => p
  | .jobpayloadLayout p _ => p
  | .resultRecord p _ => p
  | .idRecord p _ _ _ => p

end Sys2Proof
end

