-- ==== Sys2Proof/Machine/Operands.lean ====
section
/-! DEFINITION. Byte order, field extraction and serialisation of operands: pure functions over byte strings. -/

namespace Sys2Proof.Machine

/-- `B[i]` (R0); only used where a rule has checked that byte `i` exists, and 0 elsewhere. -/
def byteAt (B : Bytes) (i : Nat) : Byte := B.getD i 0

/-- Two bytes, the first most significant (R0, R34). -/
def beWord16 (b0 b1 : Byte) : BitVec 16 := b0 ++ b1

/-- Four bytes, the first most significant (R0, R34). -/
def beWord32 (b0 b1 b2 b3 : Byte) : BitVec 32 := b0 ++ b1 ++ b2 ++ b3

/-- `be16(B, i)` (R0). -/
def be16 (B : Bytes) (i : Nat) : BitVec 16 := beWord16 (byteAt B i) (byteAt B (i + 1))

/-- The two bytes of a 16-bit value, most significant first (R34). -/
def bytesBe16 (v : BitVec 16) : Bytes := [v.extractLsb' 8 8, v.extractLsb' 0 8]

/-- `bytes_be32(v)` (R0). -/
def bytesBe32 (v : BitVec 32) : Bytes :=
  [v.extractLsb' 24 8, v.extractLsb' 16 8, v.extractLsb' 8 8, v.extractLsb' 0 8]

/-- The low `n` bytes of a number, most significant first. -/
def bytesOfNat (n w : Nat) : Bytes :=
  match n with
  | 0 => []
  | n + 1 => BitVec.ofNat 8 (w / 256 ^ n) :: bytesOfNat n w

/-- The `WU_W` bits of a handle operand (R51, R151; log 8): a port of that width carries no more. -/
def fitHandle (c : Params) (wu : Handle) : Handle := wu % 2 ^ c.wuW

/-- The whole bytes that hold `WU_W` bits. -/
def handleBytes (c : Params) : Nat := (c.wuW + 7) / 8

/-- One field of a header byte: the given bits where it is set. -/
def flagBits (b : Bool) (mask : Byte) : Byte := if b then mask else 0x00

/-- The header byte of the fields of R55: bit 7, command flag, job flag, group, command (bits 3:0). -/
def headerByte (c : Params) (t cmd job grp : Bool) (k : BitVec 4) : Byte :=
  flagBits t 0x80 ||| flagBits cmd c.hdrCmdFlag ||| flagBits job c.hdrJobFlag ||| flagBits grp c.hdrGroupAll |||
    k.setWidth 8

/-- The fields of a header byte in the places of the table's `HEADER` row, in which they are presented (log 1). -/
def headerRowByte (t cmd job grp : Bool) (k : BitVec 4) : Byte :=
  BitVec.ofBool t ++ BitVec.ofBool cmd ++ BitVec.ofBool job ++ BitVec.ofBool grp ++ k

/-- The 82-byte job payload, field by field (R60, R98). -/
def jobPayload (f : JobFields) : Bytes :=
  [f.jobId, f.numMidstates] ++ bytesBe32 f.startingNonce ++ bytesBe32 f.nbits ++ bytesBe32 f.ntime
    ++ f.merkleRoot.toList ++ f.prevBlockHash.toList ++ bytesBe32 f.version

/-- The 11 bytes of a response record (R62). -/
def recordBytes (r : RecordFields) : Vector Byte Config.respLen :=
  #v[r.preamble.extractLsb' 8 8, r.preamble.extractLsb' 0 8,
     r.nonce.extractLsb' 24 8, r.nonce.extractLsb' 16 8, r.nonce.extractLsb' 8 8, r.nonce.extractLsb' 0 8,
     r.midstateNum, r.replyId, r.version.extractLsb' 8 8, r.version.extractLsb' 0 8, r.crc]

/-- The bytes of an identification response (R64). -/
def idRecordBytes (preamble chipId : BitVec 16) (rest : Bytes) : Bytes :=
  bytesBe16 preamble ++ bytesBe16 chipId ++ rest

/-- The chip identifier the enumeration unit reads from a response: `be16(B, ID_OFFSET)` (R64, R113). -/
def chipIdOf (c : Params) (B : Bytes) : BitVec 16 := be16 B c.idOffset

/-- The least `exp_len`: the chip identifier's two bytes must exist (R64, R112; log 24). -/
def minExpLen (c : Params) : Nat := c.idOffset + 2

/-- `reply_id = B[7]` (R62). -/
def replyIdOf (B : Vector Byte Config.respLen) : Byte := B[7]

/-- `job_id = (reply_id & 0xF0) >> 1`, 7 bits (R63, R166). -/
def jobIdOf (replyId : Byte) : BitVec 7 := ((replyId &&& 0xF0#8) >>> 1).setWidth 7

/-- `small_core_id = reply_id & 0x0F`, 4 bits (R63, R166). -/
def smallCoreIdOf (replyId : Byte) : BitVec 4 := (replyId &&& 0x0F#8).setWidth 4

/-- `nonce = be32(B, 2)` (R63, R166). -/
def nonceOf (B : Vector Byte Config.respLen) : BitVec 32 := beWord32 B[2] B[3] B[4] B[5]

/-- `nonce_bytes = B[2..5]`, wire order (R173). -/
def nonceBytesOf (B : Vector Byte Config.respLen) : Bytes := [B[2], B[3], B[4], B[5]]

/-- `core_id = nonce[31:25]`, 7 bits, unchecked (R63, R167). -/
def coreIdOf (nonce : BitVec 32) : BitVec 7 := nonce.extractLsb' 25 7

/-- `version16 = be16(B, 8)` (R63, R166). -/
def version16Of (B : Vector Byte Config.respLen) : BitVec 16 := beWord16 B[8] B[9]

/-- `stored | (version16 << 13)`: an OR, no mask (R63, R167). -/
def rolledVersion (stored : BitVec 32) (version16 : BitVec 16) : BitVec 32 :=
  stored ||| (version16.setWidth 32 <<< Config.versionShift)

/-- `addr(i, n) = i * (256 / n)`, floor division (R31, R115). -/
def chipAddress (i n : Nat) : Byte := BitVec.ofNat 8 (i * (256 / n))

end Sys2Proof.Machine
end

