-- ==== Sys2Proof/Machine/Flags.lean ====
section
/-! DEFINITION. The one-bit values and the two checksums: every flag and check value the engine computes (R21, R80). -/

namespace Sys2Proof.Machine

/-- `HDR_JOB_FLAG` in the header selects the job shape; the only header bit examined (R55, R90). -/
def isJobHeader (c : Params) (h : Byte) : Bool := h &&& c.hdrJobFlag != 0

/-- The high-frequency mode bit: `25 * fb >= 2400 * refdiv` (R136). -/
def hfBit (fb refdiv : Nat) : Bool := decide (Config.refClk * fb ≥ Config.vcoHf * refdiv)

/-- One input bit of the CRC-5 generator: feedback bit 4 of the register XOR `d`, shift left, conditional XOR (R81). -/
def crc5Bit (c : Params) (x : BitVec 5) (d : Bool) : BitVec 5 :=
  if x.getLsbD 4 ^^ d then (x <<< 1) ^^^ c.crc5Poly else x <<< 1

/-- The bits of a byte in the order both generators take them: bit 7 first (R36). -/
def bitsMsbFirst (b : Byte) : List Bool := [7, 6, 5, 4, 3, 2, 1, 0].map b.getLsbD

/-- One byte of the CRC-5 generator, bit 7 first (R81). -/
def crc5Byte (c : Params) (x : BitVec 5) (b : Byte) : BitVec 5 := (bitsMsbFirst b).foldl (crc5Bit c) x

/-- `crc5(B)` (R81). -/
def crc5 (c : Params) (B : Bytes) : BitVec 5 := B.foldl (crc5Byte c) c.crc5Init

/-- One shift of the CRC-16 generator (R84). -/
def crc16Shift (c : Params) (x : BitVec 16) : BitVec 16 :=
  if x.getLsbD 15 then (x <<< 1) ^^^ c.crc16Poly else x <<< 1

/-- One byte of the CRC-16 generator: XOR into bits 15:8, then eight shifts (R84). -/
def crc16Byte (c : Params) (x : BitVec 16) (b : Byte) : BitVec 16 :=
  (crc16Shift c)^[8] (x ^^^ (b.setWidth 16 <<< 8))

/-- `crc16(B)` (R84). -/
def crc16 (c : Params) (B : Bytes) : BitVec 16 := B.foldl (crc16Byte c) c.crc16Init

/-- `zext_8(crc5(B))`: the trailing byte of a command frame (R57). -/
def crc5TrailByte (c : Params) (body : Bytes) : Byte := (crc5 c body).setWidth 8

/-- The trailing bytes of a job frame: CRC-16 high byte, then low byte (R53, R85). -/
def crc16TrailBytes (c : Params) (body : Bytes) : Bytes := bytesBe16 (crc16 c body)

end Sys2Proof.Machine
end

