-- ==== Sys2Proof/Machine/State.lean ====
section
/-! DEFINITION. The state of the engine as plain data, its statuses and results, and the state after reset. -/

namespace Sys2Proof.Machine

/-- The twelve status codes of R200; codes 12 to 15 are never returned (log 20). -/
inductive Status where
  | ok
  | noResult
  | framePreamble
  | frameLength
  | frameChecksum
  | rejected
  | notFound
  | chainNotReady
  | refusedSequence
  | refusedOperand
  | refusedOpcode
  | slotEmpty
deriving DecidableEq, Repr

/-- The states of `INIT_STATE`, codes 0 to 8 in order (R15); codes 9 to 15 are never written (log 20). -/
inductive InitState where
  | poweredOn
  | versionMaskSet
  | identityVerified
  | chipsAddressed
  | coreRegistersConfigured
  | difficultyConfigured
  | clockRamped
  | ready
  | failed
deriving DecidableEq, Repr

/-- The values of `FAIL_REASON`, codes 0 and 1 (R17); codes 2 and 3 are never written (log 20). -/
inductive FailReason where
  | none
  | noChips
deriving DecidableEq, Repr

/-- `LOCK` (R14). -/
inductive Lock where
  | free
  | heldBy (p : Port)
deriving DecidableEq, Repr

/-- One slot of the job slot table (R13). `wu` and `version` have no value while `occupied` is false: no operation
reads them then (R20; log 7). -/
structure Slot where
  valid : Bool
  occupied : Bool
  wu : Handle
  version : BitVec 32
deriving DecidableEq, Repr

/-- A slot after reset (R13, R230); `wu` and `version` are DESIGN CHOICE 0, the spec says "no value" (log 7). -/
def Slot.empty : Slot := { valid := false, occupied := false, wu := 0, version := 0 }

/-- The persistent state of the engine, exactly the list of R10. -/
structure Engine where
  nextId : BitVec 7
  slots : Vector Slot Config.slotCount
  lock : Lock
  initState : InitState
  chipCount : BitVec 8
  failReason : FailReason
deriving DecidableEq, Repr

/-- The results of `SOLVE` (R133); `f_num / f_den` is the achieved frequency in MHz, not reduced. -/
structure PllResult where
  fb : BitVec 8
  refdiv : BitVec 2
  post1 : BitVec 3
  post2 : BitVec 3
  hf : Bool
  fNum : Nat
  fDen : Nat
deriving DecidableEq, Repr

/-- The results of `PARSE` and `RESULT` (R166, R172, R173). -/
structure ChipResult where
  jobId : BitVec 7
  coreId : BitVec 7
  smallCoreId : BitVec 4
  nonce : BitVec 32
  nonceBytes : Bytes
  rolledVersion : BitVec 32
deriving DecidableEq, Repr

/-- The typed results of an operation (R50, R51), and the information a status other than `OK` returns (R200). -/
inductive Results where
  /-- No result field. -/
  | empty
  /-- `CRC5`. -/
  | crc5 (c : BitVec 5)
  /-- `CRC16`. -/
  | crc16 (c : BitVec 16)
  /-- `ENCODE`: `F`; also the payload `P` of `JOBPAYLOAD`. -/
  | bytes (F : Bytes)
  /-- `DECODE`. -/
  | decoded (h : Byte) (P : Bytes)
  /-- `SEND` and the frames that go out. -/
  | sent (txOk : Bool)
  /-- `ENUMERATE`; with count 0 also the information of `CHAIN_NOT_READY`. -/
  | enumerated (count : BitVec 8) (txOk : Bool)
  /-- `ASSIGN`. -/
  | assigned (n : BitVec 8) (txOk : Bool)
  /-- `SOLVE`. -/
  | solved (r : PllResult)
  /-- `SETFREQ`. -/
  | frequencySet (r : PllResult) (txOk : Bool)
  /-- `SUBMIT`: `released` and `old_wu` in one; `none` is `released` = 0, where `old_wu` has no value (R151; log 16). -/
  | submitted (jobId : BitVec 7) (released : Option Handle)
  /-- `IS_VALID`. -/
  | validity (v : Bool)
  /-- `TAKE`. -/
  | taken (wu : Handle) (version : BitVec 32)
  /-- `PARSE`, `RESULT`. -/
  | parsed (r : ChipResult)
  /-- `INIT_STEP`. -/
  | stepped (state : InitState) (txOk : Bool)
  /-- The information of `REFUSED_SEQUENCE`. -/
  | initState (state : InitState)
  /-- The information of `REJECTED` and `SLOT_EMPTY`. -/
  | jobId (j : BitVec 7)
  /-- `HEADER`: the header byte and whether it selects the job shape. -/
  | headerByte (h : Byte) (job : Bool)
  /-- `ID_RECORD`: the chip identifier read from the record. -/
  | chipId (id : BitVec 16)
deriving DecidableEq, Repr

/-- The answer to one operation: a status and results (R50). -/
structure Response where
  status : Status
  results : Results
deriving DecidableEq, Repr

/-- What an operation does once its last frame is handed to `Tx`. -/
inductive AfterTx where
  /-- End with `tx_ok` (R100). -/
  | send
  /-- Go on to count the identification responses (R111). -/
  | enumerate (expCount : BitVec 8) (expId : BitVec 16) (expLen : BitVec 8)
  /-- End `ASSIGN` with its count (R116). -/
  | assign (n : BitVec 8)
  /-- End `SETFREQ` with the solution (R138). -/
  | setfreq (r : PllResult)
  /-- Move `INIT_STATE` to the given state (R181). -/
  | initStep (next : InitState)
  /-- The frame after these cannot be encoded: end with `REFUSED_OPERAND` (R93, R181). -/
  | refuseOperand
deriving DecidableEq, Repr

/-- What remains of the operation current on a port: its position among its micro-steps and its working values
(R19, R22, R42). The micro-steps of `SUBMIT` are m1 to m4 (R151), those of `PARSE` p1 to p5 (R168); the others are
log 4. -/
inductive Task where
  /-- Frames still to hand to `Tx`; `ok` is the AND of the answers so far. -/
  | transmit (left : List Bytes) (ok : Bool) (k : AfterTx)
  /-- A frame has been handed to `Tx` and its answer is awaited; `left` are the frames after it. -/
  | txWait (left : List Bytes) (ok : Bool) (k : AfterTx)
  /-- The loop of `ENUMERATE` (R111). -/
  | enumRead (expCount : BitVec 8) (expId : BitVec 16) (expLen : BitVec 8) (count : BitVec 8) (txOk : Bool)
  /-- `SUBMIT` at m1. -/
  | submit1 (wu : Handle) (version : BitVec 32)
  /-- `SUBMIT` at m2. -/
  | submit2 (j : BitVec 7) (wu : Handle) (version : BitVec 32)
  /-- `SUBMIT` at m3. -/
  | submit3 (j : BitVec 7) (wu : Handle) (version : BitVec 32) (released : Option Handle)
  /-- `SUBMIT` at m4. -/
  | submit4 (j : BitVec 7) (released : Option Handle)
  /-- `MARK_VALID`'s one flag write. -/
  | markValid (j : BitVec 7)
  /-- `IS_VALID`'s one flag read. -/
  | isValid (j : BitVec 7)
  /-- `TAKE` before it reads `occupied`. -/
  | take1 (j : BitVec 7)
  /-- `TAKE` before it reads `wu`. -/
  | take2 (j : BitVec 7)
  /-- `TAKE` before it reads `version`. -/
  | take3 (j : BitVec 7) (wu : Handle)
  /-- `RESULT` before its `Rx(11)`. -/
  | resultRead
  /-- `PARSE` at p1. -/
  | parse1 (B : Vector Byte Config.respLen)
  /-- `PARSE` at p2. -/
  | parse2 (B : Vector Byte Config.respLen) (j : BitVec 7)
  /-- `PARSE` at p3. -/
  | parse3 (B : Vector Byte Config.respLen) (j : BitVec 7)
  /-- `PARSE` at p4, with the fields p3 extracted. -/
  | parse4 (j : BitVec 7) (coreId : BitVec 7) (smallCoreId : BitVec 4) (nonce : BitVec 32) (nonceBytes : Bytes)
      (version16 : BitVec 16)
  /-- `PARSE` at p5, with the stored version p4 read. -/
  | parse5 (j : BitVec 7) (coreId : BitVec 7) (smallCoreId : BitVec 4) (nonce : BitVec 32) (nonceBytes : Bytes)
      (version16 : BitVec 16) (stored : BitVec 32)
deriving DecidableEq, Repr

/-- One command port: bytes presented and not yet accepted (log 1), the operation in progress, the responses given,
oldest first (R50; log 17). -/
structure PortState where
  cmd : Bytes
  cur : Option Task
  rsp : List Response
deriving DecidableEq, Repr

/-- One answer of the transport to a call of `Rx` (R0, R11). -/
inductive RxAnswer where
  | failure
  | bytes (B : Bytes)
deriving DecidableEq, Repr

/-- The engine's boundary (R11): the transport's coming answers, and the histories of `Tx` and `Release`, oldest
first. -/
structure Boundary where
  txAns : List Bool
  rxAns : List RxAnswer
  txLog : List Bytes
  released : List Handle
deriving DecidableEq, Repr

/-- One entry of the `INIT_SEQ` table: the frames sent from `state` when `CHIP_COUNT` is `count` (R182; log 9). -/
structure InitSeqEntry where
  state : InitState
  count : BitVec 8
  frames : List FrameSpec
deriving DecidableEq, Repr

/-- The machine: the engine's registers (R10), its two ports, its boundary, which port takes the coming micro-steps
(R42; log 3), a pending request of the reset event (R230; log 11), and the configuration: `INIT_SEQ` (R182; log 9) and the
other arguments of R9 (R11; log 8, log 14). No step writes the configuration. -/
structure State where
  eng : Engine
  portS : PortState
  portR : PortState
  env : Boundary
  turn : Port
  sched : List Port
  resetReq : Bool
  initSeq : List InitSeqEntry
  params : Params
deriving DecidableEq, Repr

/-- Faults. The spec gives the engine no trap and no fault (R204 to R206): there is none (log 22). -/
inductive Fault where
deriving DecidableEq, Repr

/-- Why bytes presented at a command port are no operation (log 1, log 13). -/
inductive DecodeError where
  /-- The bytes end inside an operation. The step does not refuse it: the port waits for the rest (log 12). -/
  | incomplete
  /-- The first byte is no operation code and starts no wire row. -/
  | notAnOperation (b : Byte)
  /-- 55 is not followed by AA. -/
  | badPreamble (b : Byte)
  /-- A byte-string mark other than 00 and 01. -/
  | badMark (b : Byte)
  /-- Bits set above the width of an operand. -/
  | wideOperand (b : Byte)
deriving DecidableEq, Repr

/-- Refusals: the model gives no meaning. -/
inductive Refusal where
  /-- The host's name for an arm of `exec` without a meaning; no arm uses it. Safe. -/
  | notModelled (mnemonic : String)
  /-- Raised by `step` alone, on bytes at a command port that are no operation: the spec's ports take typed
  operations, so it gives such bytes no effect (R50). Safe: the model stops. -/
  | undecodable (e : DecodeError)
deriving DecidableEq, Repr

/-- The engine's registers after reset (R230 and 10_state section 8). -/
def Engine.reset : Engine :=
  { nextId := 0
    slots := Vector.replicate Config.slotCount Slot.empty
    lock := .free
    initState := .poweredOn
    chipCount := 0
    failReason := .none }

/-- A port with nothing presented, in progress or answered (log 19). -/
def PortState.idle : PortState := { cmd := [], cur := none, rsp := [] }

/-- The machine right after reset. The engine's registers are R230's; the model's own fields are empty, the turn is
with port `S`, `INIT_SEQ` is the spec's default of empty lists (DESIGN CHOICE, log 9 and log 19), and the parameters have the
values of R9. -/
def State.reset : State :=
  { eng := Engine.reset
    portS := PortState.idle
    portR := PortState.idle
    env := { txAns := [], rxAns := [], txLog := [], released := [] }
    turn := .S
    sched := []
    resetReq := false
    initSeq := []
    params := Params.default }

end Sys2Proof.Machine
end

