-- ==== Sys2Proof/Machine/Ops.lean ====
section
/-! DEFINITION. The named operations over the state: codes, ports, registers, the slot table under its lock, `Tx`, `Rx`,
`Release`, ending an operation with a status (the engine's only way to report a failure, R204), and the reset event. -/

namespace Sys2Proof.Machine

/-! ### Codes (R15, R17, R200) -/

/-- The 4-bit code of a status (R200). -/
def statusCode : Status → BitVec 4
  | .ok => 0
  | .noResult => 1
  | .framePreamble => 2
  | .frameLength => 3
  | .frameChecksum => 4
  | .rejected => 5
  | .notFound => 6
  | .chainNotReady => 7
  | .refusedSequence => 8
  | .refusedOperand => 9
  | .refusedOpcode => 10
  | .slotEmpty => 11

/-- The 4-bit code of `INIT_STATE` (R15). -/
def initStateCode : InitState → BitVec 4
  | .poweredOn => 0
  | .versionMaskSet => 1
  | .identityVerified => 2
  | .chipsAddressed => 3
  | .coreRegistersConfigured => 4
  | .difficultyConfigured => 5
  | .clockRamped => 6
  | .ready => 7
  | .failed => 8

/-- The 2-bit code of `FAIL_REASON` (R17). -/
def failReasonCode : FailReason → BitVec 2
  | .none => 0
  | .noChips => 1

/-! ### Ports -/

/-- The state of one port. -/
def State.port (s : State) : Port → PortState
  | .S => s.portS
  | .R => s.portR

/-- Replace the state of one port. -/
def State.withPort (s : State) (p : Port) (x : PortState) : State :=
  match p with
  | .S => { s with portS := x }
  | .R => { s with portR := x }

/-- The bytes waiting at a port become `bs`. -/
def State.withCmd (s : State) (p : Port) (bs : Bytes) : State := s.withPort p { s.port p with cmd := bs }

/-- The operation on port `p` stops at micro-step `t` and stays in progress. -/
def State.suspend (s : State) (p : Port) (t : Task) : State := s.withPort p { s.port p with cur := some t }

/-- `raise` and `done` (R0): the operation on port `p` ends with a status and results, its response is appended to the
port's, and the port is free for the next operation (R200, R204, R205). -/
def State.answer (s : State) (p : Port) (st : Status) (r : Results) : State :=
  s.withPort p { s.port p with cur := none, rsp := (s.port p).rsp ++ [{ status := st, results := r }] }

/-! ### Registers -/

/-- Replace the engine's registers. -/
def State.withEng (s : State) (e : Engine) : State := { s with eng := e }

/-- Replace the boundary. -/
def State.withEnv (s : State) (e : Boundary) : State := { s with env := e }

/-- `INIT_STATE <- x` (R0). -/
def State.setInitState (s : State) (x : InitState) : State := s.withEng { s.eng with initState := x }

/-- `NEXT_ID <- x` (R12). -/
def State.setNextId (s : State) (x : BitVec 7) : State := s.withEng { s.eng with nextId := x }

/-- `CHIP_COUNT <- x` (R16). -/
def State.setChipCount (s : State) (x : BitVec 8) : State := s.withEng { s.eng with chipCount := x }

/-- `FAIL_REASON <- x` (R17). -/
def State.setFailReason (s : State) (x : FailReason) : State := s.withEng { s.eng with failReason := x }

/-! ### The slot table and its lock (R13, R14, R37, R38) -/

/-- `SLOT[j]`; an index is always in 0 to 127 (R187). -/
def slotAt (t : Vector Slot Config.slotCount) (j : BitVec 7) : Slot := t[j.toNat]'j.isLt

/-- `SlotRead(j, _)`: the slot whose fields are read whole (R38). -/
def State.slot (s : State) (j : BitVec 7) : Slot := slotAt s.eng.slots j

/-- `SlotWrite(j, _, _)`: slot `j` becomes `x`. -/
def State.setSlot (s : State) (j : BitVec 7) (x : Slot) : State :=
  s.withEng { s.eng with slots := s.eng.slots.set j.toNat x j.isLt }

/-- Set the lock. -/
def State.setLock (s : State) (l : Lock) : State := s.withEng { s.eng with lock := l }

/-- Take the lock for port `p`, if it is free (R14, R41). -/
def takeLock (p : Port) (s : State) : Option State :=
  if s.eng.lock = .free then some (s.setLock (.heldBy p)) else none

/-- `SlotRead(j, valid)` as one atomic step under `LOCK` (R37): take the lock, read, free the lock. `none`: the lock is
held, so the micro-step must wait (log 10). -/
def readValid (p : Port) (j : BitVec 7) (s : State) : Option (Bool × State) :=
  (takeLock p s).map fun s1 => ((s1.slot j).valid, s1.setLock .free)

/-- `SlotWrite(j, valid, 1)` as one atomic step under `LOCK` (R37). -/
def setValid (p : Port) (j : BitVec 7) (s : State) : Option State :=
  (takeLock p s).map fun s1 => (s1.setSlot j { s1.slot j with valid := true }).setLock .free

/-! ### The boundary: `Tx`, `Rx`, `Release` (R0, R11) -/

/-- Hand a frame to the transport: it joins the `Tx` history (R11, R101). -/
def State.handToTx (s : State) (F : Bytes) : State := s.withEnv { s.env with txLog := s.env.txLog ++ [F] }

/-- The transport's answer to the call of `Tx` in progress; `none`: it has not answered yet (R101, U3; log 5). -/
def takeTxAnswer (s : State) : Option (Bool × State) :=
  match s.env.txAns with
  | [] => none
  | a :: as => some (a, s.withEnv { s.env with txAns := as })

/-- A byte string of exactly `n` bytes, as a vector. -/
def bytesOfLength (n : Nat) (B : Bytes) : Option (Vector Byte n) :=
  if h : B.length = n then some ⟨B.toArray, by simpa using h⟩ else none

/-- `Rx(n)` (R0): the outer `none` is a transport that has not answered (U3; log 5), which includes an answer of another
length than `n` (log 6); the inner `none` is failure. An answer is consumed (R40). -/
def callRx (n : Nat) (s : State) : Option (Option (Vector Byte n) × State) :=
  match s.env.rxAns with
  | [] => none
  | .failure :: as => some (none, s.withEnv { s.env with rxAns := as })
  | .bytes B :: as => (bytesOfLength n B).map fun v => (some v, s.withEnv { s.env with rxAns := as })

/-- `Release(h)` (R0, R152): the handle joins the `Release` history. -/
def State.release (s : State) (h : Handle) : State :=
  s.withEnv { s.env with released := s.env.released ++ [h] }

/-! ### Which port steps (R42; log 3) -/

/-- The port of the next micro-step: the head of the schedule, consumed; where the schedule is empty the turn stays. -/
def State.nextTurn (s : State) : State :=
  match s.sched with
  | [] => s
  | p :: ps => { s with turn := p, sched := ps }

/-- Whether the operation on port `p` takes the next micro-step too: `none` if the schedule gives it to the other
port. -/
def State.goesOn (s : State) (p : Port) : Option State :=
  match s.sched with
  | [] => some s
  | q :: qs => if q = p then some { s with sched := qs } else none

/-! ### The reset event (R230, R231; log 11) -/

/-- Neither port has an operation in progress: the only points where the reset event occurs (R230). -/
def State.betweenOperations (s : State) : Bool := s.portS.cur.isNone && s.portR.cur.isNone

/-- The reset event: every register takes its reset value; nothing is sent, released or drained (R231). -/
def State.resetEvent (s : State) : State := { s with eng := Engine.reset, resetReq := false }

end Sys2Proof.Machine
end

