-- ==== Sys2Proof/Machine/Codec.lean ====
section
/-! DEFINITION. Building and checking frames (R53 to R58, R91, R92, R95), and the frames the spec names (R61, R65). The rules
write the consequences of R9's default length offsets as numbers (`n + 3`, `L - 2`, 252); here they stand as the offsets (log 24). -/

namespace Sys2Proof.Machine

/-- The length byte of a payload: its byte count plus the offset of the frame's shape (R54). -/
def lengthByte (off : Nat) (P : Bytes) : Byte := BitVec.ofNat 8 (P.length + off)

/-- The body of a command frame, the span of its checksum: header, length, payload (R53, R87). -/
def commandBody (c : Params) (h : Byte) (P : Bytes) : Bytes := h :: lengthByte c.lenOffCmd P :: P

/-- The body of a job frame (R53, R87). -/
def jobBody (c : Params) (h : Byte) (P : Bytes) : Bytes := h :: lengthByte c.lenOffJob P :: P

/-- The command frame `55 AA h len P crc5` (R53). -/
def commandFrame (c : Params) (h : Byte) (P : Bytes) : Bytes :=
  [Config.preamble0, Config.preamble1] ++ commandBody c h P ++ [crc5TrailByte c (commandBody c h P)]

/-- The job frame `55 AA h len P crc16_hi crc16_lo` (R53). -/
def jobFrame (c : Params) (h : Byte) (P : Bytes) : Bytes :=
  [Config.preamble0, Config.preamble1] ++ jobBody c h P ++ crc16TrailBytes c (jobBody c h P)

/-- The length offset of the shape of header `h` (R54). -/
def lenOff (c : Params) (h : Byte) : Nat := if isJobHeader c h then c.lenOffJob else c.lenOffCmd

/-- `encode(h, P)` (R92): `none` is the `REFUSED_OPERAND` of R93, for a payload whose length plus offset does not fit the
length byte (over 252 bytes command, 251 job with R9's offsets). -/
def encodeFrame (c : Params) (h : Byte) (P : Bytes) : Option Bytes :=
  if P.length + lenOff c h ≤ 255 then some (if isJobHeader c h then jobFrame c h P else commandFrame c h P) else none

/-- The frames of a list up to the first that `encode` refuses, and whether none was refused (R93, R181). -/
def encodeList (c : Params) (l : List FrameSpec) : List Bytes × Bool :=
  match l with
  | [] => ([], true)
  | x :: xs =>
    match encodeFrame c x.header x.payload with
    | none => ([], false)
    | some F => (F :: (encodeList c xs).1, (encodeList c xs).2)

/-- What `DECODE` answers (R95): a header and payload, or one of the three rejections. -/
inductive FrameVerdict where
  | accepted (h : Byte) (P : Bytes)
  | badPreamble
  | badLength
  | badChecksum
deriving DecidableEq, Repr

/-- The job-shape checks of `DECODE` on a byte string of at least 5 bytes (R95): the length byte is the payload's byte count
plus the offset, that is `L - 2` with R9's. -/
def decodeJob (c : Params) (B : Bytes) : FrameVerdict :=
  if B.length < Config.jobOverhead ∨ (byteAt B 3).toNat ≠ B.length - Config.jobOverhead + c.lenOffJob then .badLength
  else if be16 B (B.length - 2) ≠ crc16 c ((B.drop 2).take (B.length - 4)) then .badChecksum
  else .accepted (byteAt B 2) ((B.drop 4).take (B.length - Config.jobOverhead))

/-- The command-shape checks of `DECODE` on a byte string of at least 5 bytes (R95). -/
def decodeCommand (c : Params) (B : Bytes) : FrameVerdict :=
  if (byteAt B 3).toNat ≠ B.length - Config.cmdOverhead + c.lenOffCmd then .badLength
  else if byteAt B (B.length - 1) ≠ crc5TrailByte c ((B.drop 2).take (B.length - 3)) then .badChecksum
  else .accepted (byteAt B 2) ((B.drop 4).take (B.length - Config.cmdOverhead))

/-- `DECODE B` (R95): preamble, then length, then checksum; the first failure is reported (R96). -/
def decodeFrame (c : Params) (B : Bytes) : FrameVerdict :=
  if B.length < 2 ∨ byteAt B 0 ≠ Config.preamble0 ∨ byteAt B 1 ≠ Config.preamble1 then .badPreamble
  else if B.length < Config.cmdOverhead then .badLength
  else if isJobHeader c (byteAt B 2) then decodeJob c B else decodeCommand c B

/-- The identification read frame `encode(0x52, 00 00)` (R65). -/
def readidSpec (c : Params) : FrameSpec := { header := c.hdrReadid, payload := c.readidPayload }

/-- The set-address frame `encode(0x40, a 00)` (R65). -/
def setaddrSpec (c : Params) (a : Byte) : FrameSpec := { header := c.hdrSetaddr, payload := [a, 0x00] }

/-- The six bytes of the PLL register write (R61, R137), from the fields as stored (post dividers minus 1). -/
def pllPayloadRaw (c : Params) (hf : Bool) (fb : Byte) (refdiv : BitVec 2) (post1m post2m : BitVec 3) : Bytes :=
  [0x00, c.pllReg, if hf then 0x50 else 0x40, fb, refdiv.setWidth 8, (post1m.setWidth 8 <<< 4) ||| post2m.setWidth 8]

/-! ### Frames presented raw (the wire rows of the table; log 2) -/

/-- The bytes of a wire frame presented raw: preamble, header, length byte and the rest, as given (R53, R56). -/
def rawFrame (h len : Byte) (rest : Bytes) : Bytes := Config.preamble0 :: Config.preamble1 :: h :: len :: rest

/-- The bytes of a command frame presented raw with the checksum byte given (R53). -/
def rawCommand (c : Params) (h : Byte) (P : Bytes) (crc : Byte) : Bytes :=
  rawFrame h (lengthByte c.lenOffCmd P) (P ++ [crc])

/-- How many bytes follow the length byte of a frame: its payload and its checksum (R53, R56: `L - 2` with R9's offsets). Where
that number would be negative (`L` of 0 or 1 with R9's offsets) none follow: the subtraction stops at 0, and the frame ends
with its length byte. R56 does not say where such a frame ends (DESIGN CHOICE, unsafe; log 25). -/
def bytesAfterLength (c : Params) (h len : Byte) : Nat :=
  if isJobHeader c h then len.toNat + 2 - c.lenOffJob else len.toNat + 1 - c.lenOffCmd

/-- The row of a raw frame that is none of the named ones: by the job flag of its header (R53, R55). -/
def shapeRow (c : Params) (p : Port) (h len : Byte) (rest : Bytes) : Instr :=
  if isJobHeader c h then .frameJob p h len rest else .frameCommand p h len rest

/-- The row a raw frame belongs to (spec/opcode_table.json: `READID`, `SETADDR`, `PLLWRITE` by match and mask, then
`FRAME_JOB` and `FRAME_COMMAND` by the job flag). -/
def classifyFrame (c : Params) (p : Port) (h len : Byte) (rest : Bytes) : Instr :=
  if h = c.hdrReadid ∧ len = lengthByte c.lenOffCmd c.readidPayload ∧ rest.length = c.readidPayload.length + 1 ∧
      rest.take c.readidPayload.length = c.readidPayload then
    .readid p (byteAt rest c.readidPayload.length)
  else
    match rest with
    | [x, y, k] =>
      if h = c.hdrSetaddr ∧ len = lengthByte c.lenOffCmd [x, y] ∧ y = 0x00 then .setaddr p x k
      else shapeRow c p h len rest
    | [x, r, m, fb, rd, pd, k] =>
      if h = c.hdrWriteAll ∧ len = lengthByte c.lenOffCmd [x, r, m, fb, rd, pd] ∧ x = 0x00 ∧ r = c.pllReg ∧ m &&& 0xEF = 0x40
          ∧ rd &&& 0xFC = 0x00 ∧ pd &&& 0x88 = 0x00 then
        .pllwrite p (m.getLsbD 4) fb (rd.setWidth 2) (pd.extractLsb' 4 3) (pd.extractLsb' 0 3) k
      else shapeRow c p h len rest
    | _ => shapeRow c p h len rest

end Sys2Proof.Machine
end

