-- ==== Sys2Proof/Machine/Pll.lean ====
section
/-! DEFINITION. The divider search `solve` (R132) in its integer form, exact on unbounded naturals (R131; log 23). -/

namespace Sys2Proof.Machine

/-- A divider combination of the search (R132). -/
structure Dividers where
  refdiv : Nat
  post1 : Nat
  post2 : Nat
deriving DecidableEq, Repr

/-- A candidate of the search: the combination, its feedback divider, and `N` with `d = N / (2^PLL_FRAC * m)` (R132). -/
structure Candidate where
  div : Dividers
  fb : Nat
  num : Nat
deriving DecidableEq, Repr

/-- `m = refdiv * post1 * post2` (R132). -/
def Dividers.m (x : Dividers) : Nat := x.refdiv * x.post1 * x.post2

/-- The combinations in iteration order: `refdiv` 2 then 1, `post1` 7 down to 1, `post2` 7 down to 1, those with
`post1 < post2` skipped (R132, R135). -/
def combinations : List Dividers :=
  [2, 1].flatMap fun r => [7, 6, 5, 4, 3, 2, 1].flatMap fun a =>
    ([7, 6, 5, 4, 3, 2, 1].filter fun b => decide (b ≤ a)).map fun b => { refdiv := r, post1 := a, post2 := b }

/-- One MHz in units of the target operand: 65536 for `PLL_FRAC` = 16 (R131). -/
def pllOne (c : Params) : Nat := 2 ^ c.pllFrac

/-- `fb = round(m * T / 25)`, a tie going up: `(2*m*t + 1638400) / 3276800`, where `1638400 = 25 * 65536` (R132, R134). -/
def feedback (c : Params) (t m : Nat) : Nat :=
  (2 * m * t + Config.refClk * pllOne c) / (2 * (Config.refClk * pllOne c))

/-- `N = |t*m - 1638400*fb|` (R132). -/
def diffNum (c : Params) (t m fb : Nat) : Nat :=
  ((t * m : Int) - (Config.refClk * pllOne c * fb : Nat)).natAbs

/-- The range test and the strict ceiling `N < 65536 * m` (R132, R135). -/
def candidateOf (c : Params) (t : Nat) (x : Dividers) : Option Candidate :=
  let fb := feedback c t x.m
  if Config.fbMin ≤ fb ∧ fb ≤ Config.fbMax ∧ diffNum c t x.m fb < Config.ceiling * pllOne c * x.m then
    some { div := x, fb := fb, num := diffNum c t x.m fb }
  else none

/-- `d < best.d`, strictly: `N * best.m < best.N * m` (R132). -/
def closer (c best : Candidate) : Bool := decide (c.num * best.div.m < best.num * c.div.m)

/-- One turn of the search's inner loop (R132). -/
def searchStep (c : Params) (t : Nat) (best : Option Candidate) (x : Dividers) : Option Candidate :=
  match candidateOf c t x, best with
  | none, b => b
  | some y, none => some y
  | some y, some b => if closer y b then some y else some b

/-- `solve(T)`, `T` = `t / 65536` MHz (R131, R132). -/
def solve (c : Params) (t : BitVec 32) : Option Candidate := combinations.foldl (searchStep c t.toNat) none

/-- The results of `SOLVE` from the winning combination (R133). -/
def pllResult (c : Candidate) : PllResult :=
  { fb := BitVec.ofNat 8 c.fb
    refdiv := BitVec.ofNat 2 c.div.refdiv
    post1 := BitVec.ofNat 3 c.div.post1
    post2 := BitVec.ofNat 3 c.div.post2
    hf := hfBit c.fb c.div.refdiv
    fNum := Config.refClk * c.fb
    fDen := c.div.m }

/-- `pll_payload(s, hf)` (R137). -/
def pllPayload (c : Params) (r : PllResult) : Bytes := pllPayloadRaw c r.hf r.fb r.refdiv (r.post1 - 1) (r.post2 - 1)

/-- The frame `SETFREQ` sends: a broadcast register write (R138). -/
def pllSpec (c : Params) (r : PllResult) : FrameSpec := { header := c.hdrWriteAll, payload := pllPayload c r }

end Sys2Proof.Machine
end

