-- ==== Sys2Proof/Machine/Micro.lean ====
section
/-! DEFINITION. The micro-steps of the operations (R42), one definition each, and the loop that runs the operation
current on a port for as many micro-steps as it is given. -/

namespace Sys2Proof.Machine

/-- What one micro-step does: the operation goes on at another micro-step, ends, or cannot take the step yet (the
transport has not answered, or the lock is held). -/
inductive MicroOut where
  | more (t : Task) (s : State)
  | done (st : Status) (r : Results) (s : State)
  | wait
deriving DecidableEq, Repr

/-! ### `Tx` -/

/-- After the last frame of an operation has been answered. -/
def afterTx (k : AfterTx) (ok : Bool) (s : State) : MicroOut :=
  match k with
  | .send => .done .ok (.sent ok) s
  | .enumerate c i l => .more (.enumRead c i l 0 ok) s
  | .assign n =>
    .done .ok (.assigned n ok) (if s.eng.initState = .identityVerified then s.setInitState .chipsAddressed else s)
  | .setfreq r => .done .ok (.frequencySet r ok) s
  | .initStep next => .done .ok (.stepped next ok) (s.setInitState next)
  | .refuseOperand => .done .refusedOperand .empty s

/-- Hand the next frame to `Tx`, in list order (R44); with none left, go on as `k` says. -/
def microTransmit (left : List Bytes) (ok : Bool) (k : AfterTx) (s : State) : MicroOut :=
  match left with
  | [] => afterTx k ok s
  | F :: rest => .more (.txWait rest ok k) (s.handToTx F)

/-- The answer of `Tx`: `tx_ok` is the AND over the operation's frames and stops nothing (R100, R116, R181). -/
def microTxWait (left : List Bytes) (ok : Bool) (k : AfterTx) (s : State) : MicroOut :=
  match takeTxAnswer s with
  | none => .wait
  | some (a, s1) => .more (.transmit left (ok && a) k) s1

/-! ### `ENUMERATE` (R111, R113, R114) -/

/-- The writes that end `ENUMERATE`: `IdentityVerified`, and on count 0 at once `Failed(NoChips)` (R111). -/
def enumFinish (count : BitVec 8) (txOk : Bool) (s : State) : MicroOut :=
  let s1 := (s.setChipCount count).setInitState .identityVerified
  if count = 0 then
    .done .chainNotReady (.enumerated 0 txOk) ((s1.setInitState .failed).setFailReason .noChips)
  else .done .ok (.enumerated count txOk) s1

/-- One turn of the counting loop: a matching response counts, another does not, a failure ends the count (R111). -/
def microEnumRead (expCount : BitVec 8) (expId : BitVec 16) (expLen count : BitVec 8) (txOk : Bool) (s : State) :
    MicroOut :=
  if count < expCount then
    match callRx expLen.toNat s with
    | none => .wait
    | some (none, s1) => enumFinish count txOk s1
    | some (some B, s1) =>
      .more (.enumRead expCount expId expLen (if chipIdOf s.params B.toList = expId then count + 1 else count) txOk) s1
  else enumFinish count txOk s

/-! ### `SUBMIT` (R151), `MARK_VALID` (R153), `IS_VALID` (R154), `TAKE` (R155) -/

/-- m1: take the identifier and advance `NEXT_ID` by 24 modulo 128. -/
def microSubmit1 (wu : Handle) (version : BitVec 32) (s : State) : MicroOut :=
  .more (.submit2 s.eng.nextId wu version) (s.setNextId (s.eng.nextId + Config.jobStride))

/-- m2: release the handle of an occupied slot (R152). -/
def microSubmit2 (j : BitVec 7) (wu : Handle) (version : BitVec 32) (s : State) : MicroOut :=
  if (s.slot j).occupied then .more (.submit3 j wu version (some (s.slot j).wu)) (s.release (s.slot j).wu)
  else .more (.submit3 j wu version none) s

/-- m3: install the new WorkUnit. -/
def microSubmit3 (j : BitVec 7) (wu : Handle) (version : BitVec 32) (released : Option Handle)
    (s : State) : MicroOut :=
  .more (.submit4 j released) (s.setSlot j { s.slot j with wu := wu, version := version, occupied := true })

/-- m4: set the validity flag, atomic under the lock. -/
def microSubmit4 (p : Port) (j : BitVec 7) (released : Option Handle) (s : State) : MicroOut :=
  match setValid p j s with
  | none => .wait
  | some s1 => .done .ok (.submitted j released) s1

/-- `MARK_VALID`: set one flag under the lock. -/
def microMarkValid (p : Port) (j : BitVec 7) (s : State) : MicroOut :=
  match setValid p j s with
  | none => .wait
  | some s1 => .done .ok .empty s1

/-- `IS_VALID`: read one flag under the lock. -/
def microIsValid (p : Port) (j : BitVec 7) (s : State) : MicroOut :=
  match readValid p j s with
  | none => .wait
  | some (v, s1) => .done .ok (.validity v) s1

/-- `TAKE`, its read of `occupied`; `SLOT_EMPTY` returns `job_id` (R200; log 15). -/
def microTake1 (j : BitVec 7) (s : State) : MicroOut :=
  if (s.slot j).occupied then .more (.take2 j) s else .done .slotEmpty (.jobId j) s

/-- `TAKE`, its read of `wu`. -/
def microTake2 (j : BitVec 7) (s : State) : MicroOut := .more (.take3 j (s.slot j).wu) s

/-- `TAKE`, its read of `version`. -/
def microTake3 (j : BitVec 7) (wu : Handle) (s : State) : MicroOut :=
  .done .ok (.taken wu (s.slot j).version) s

/-! ### `RESULT` (R170) and `PARSE` (R168) -/

/-- `RESULT`'s `Rx(11)`: failure is `NO_RESULT`, a record goes on as `PARSE`. -/
def microResultRead (s : State) : MicroOut :=
  match callRx Config.respLen s with
  | none => .wait
  | some (none, s1) => .done .noResult .empty s1
  | some (some B, s1) => .more (.parse1 B) s1

/-- p1: the job identifier from the reply id. -/
def microParse1 (B : Vector Byte Config.respLen) (s : State) : MicroOut :=
  .more (.parse2 B (jobIdOf (replyIdOf B))) s

/-- p2: the validity check, under the lock; `REJECTED` returns `job_id` alone (R169). -/
def microParse2 (p : Port) (B : Vector Byte Config.respLen) (j : BitVec 7) (s : State) : MicroOut :=
  match readValid p j s with
  | none => .wait
  | some (v, s1) => if v then .more (.parse3 B j) s1 else .done .rejected (.jobId j) s1

/-- p3: the field extractions; no state is read (R166). -/
def microParse3 (B : Vector Byte Config.respLen) (j : BitVec 7) (s : State) : MicroOut :=
  .more (.parse4 j (coreIdOf (nonceOf B)) (smallCoreIdOf (replyIdOf B)) (nonceOf B) (nonceBytesOf B) (version16Of B)) s

/-- p4: the stored version, with no lock (R38); `SLOT_EMPTY` when nothing was submitted (R20). -/
def microParse4 (j coreId : BitVec 7) (smallCoreId : BitVec 4) (nonce : BitVec 32) (nonceBytes : Bytes)
    (version16 : BitVec 16) (s : State) : MicroOut :=
  if (s.slot j).occupied then .more (.parse5 j coreId smallCoreId nonce nonceBytes version16 (s.slot j).version) s
  else .done .slotEmpty (.jobId j) s

/-- p5: the results (R172). -/
def microParse5 (j coreId : BitVec 7) (smallCoreId : BitVec 4) (nonce : BitVec 32) (nonceBytes : Bytes)
    (version16 : BitVec 16) (stored : BitVec 32) (s : State) : MicroOut :=
  .done .ok (.parsed
    { jobId := j, coreId := coreId, smallCoreId := smallCoreId, nonce := nonce, nonceBytes := nonceBytes
      rolledVersion := rolledVersion stored version16 }) s

/-! ### Running an operation -/

/-- One micro-step of the operation at `t` on port `p`. -/
def micro (p : Port) (t : Task) (s : State) : MicroOut :=
  match t with
  | .transmit left ok k => microTransmit left ok k s
  | .txWait left ok k => microTxWait left ok k s
  | .enumRead c i l n ok => microEnumRead c i l n ok s
  | .submit1 wu v => microSubmit1 wu v s
  | .submit2 j wu v => microSubmit2 j wu v s
  | .submit3 j wu v r => microSubmit3 j wu v r s
  | .submit4 j r => microSubmit4 p j r s
  | .markValid j => microMarkValid p j s
  | .isValid j => microIsValid p j s
  | .take1 j => microTake1 j s
  | .take2 j => microTake2 j s
  | .take3 j wu => microTake3 j wu s
  | .resultRead => microResultRead s
  | .parse1 B => microParse1 B s
  | .parse2 B j => microParse2 p B j s
  | .parse3 B j => microParse3 B j s
  | .parse4 j c sc n nb v => microParse4 j c sc n nb v s
  | .parse5 j c sc n nb v st => microParse5 j c sc n nb v st s

/-- The micro-steps an operation can still take after its last frame is answered. -/
def afterTxRank (k : AfterTx) (s : State) : Nat :=
  match k with
  | .enumerate _ _ _ => s.env.rxAns.length + 1
  | _ => 0

/-- A bound on the micro-steps the operation at `t` can take before it ends or waits: every micro-step that goes on
lowers it (`Sys2Proof.Laws.micro_rank`), so the loop below never stops an operation on its account. -/
def taskRank (t : Task) (s : State) : Nat :=
  match t with
  | .transmit left _ k => 2 * left.length + 1 + afterTxRank k s
  | .txWait left _ k => 2 * left.length + 2 + afterTxRank k s
  | .enumRead _ _ _ _ _ => s.env.rxAns.length + 1
  | .submit1 _ _ => 4
  | .submit2 _ _ _ => 3
  | .submit3 _ _ _ _ => 2
  | .submit4 _ _ => 1
  | .markValid _ => 1
  | .isValid _ => 1
  | .take1 _ => 3
  | .take2 _ => 2
  | .take3 _ _ => 1
  | .resultRead => 6
  | .parse1 _ => 5
  | .parse2 _ _ => 4
  | .parse3 _ _ => 3
  | .parse4 _ _ _ _ _ _ => 2
  | .parse5 _ _ _ _ _ _ _ => 1

/-- Run the operation at `t` on port `p` for at most `n` micro-steps: until it ends, waits, or the schedule gives the
next micro-step to the other port (R42). -/
def runTask : Nat → Port → Task → State → State
  | 0, p, t, s => s.suspend p t
  | n + 1, p, t, s =>
    match micro p t s with
    | .wait => s.suspend p t
    | .done st r s1 => s1.answer p st r
    | .more t1 s1 =>
      match s1.goesOn p with
      | none => s1.suspend p t1
      | some s2 => runTask n p t1 s2

/-- Run the operation at `t` on port `p` as far as it goes. -/
def runOp (p : Port) (t : Task) (s : State) : State := runTask (taskRank t s) p t s

/-- Encode frames, hand each to `Tx` in list order and go on as `k` says after the last; at the first frame that `encode`
refuses, end with `REFUSED_OPERAND`, the frames before it sent (R44, R93, R181; log 24). -/
def runFrames (p : Port) (l : List FrameSpec) (k : AfterTx) (s : State) : State :=
  let fs := encodeList s.params l
  runOp p (.transmit fs.1 true (if fs.2 then k else .refuseOperand)) s

/-- Port acceptance (R51): an operation presented on a port that does not accept it ends with `REFUSED_OPCODE` and
changes nothing. This check precedes every other (R203). -/
def onPort (want p : Port) (s : State) (go : State) : State :=
  if p = want then go else s.answer p .refusedOpcode .empty

/-- What a meaning answers: no operation of this engine faults or is refused a meaning. -/
abbrev Result := Host.Outcome State Fault Refusal

end Sys2Proof.Machine
end

