-- ==== Sys2Proof/Machine/CrcUnit.lean ====
section
/-! DEFINITION. The CRC unit: `CRC5` (R82) and `CRC16` (R85), accepted on both ports. -/

namespace Sys2Proof.Machine

/-- `CRC5 B -> c` (R82). -/
def execCrc5 (p : Port) (B : Bytes) (s : State) : Result := .next (s.answer p .ok (.crc5 (crc5 s.params B)))

/-- `CRC16 B -> c` (R85). -/
def execCrc16 (p : Port) (B : Bytes) (s : State) : Result := .next (s.answer p .ok (.crc16 (crc16 s.params B)))

end Sys2Proof.Machine
end

