-- ==== Sys2Proof/Machine/EnumUnit.lean ====
section
/-! DEFINITION. The enumeration unit: `ENUMERATE` (R111) and `ASSIGN` (R116). -/

namespace Sys2Proof.Machine

/-- `ENUMERATE` on port `S`: the sequence check, then the operand check, then the read and the count (R111, R203). -/
def runEnumerate (p : Port) (expCount : BitVec 8) (expId : BitVec 16) (expLen : BitVec 8) (s : State) : State :=
  if s.eng.initState ≠ .versionMaskSet then s.answer p .refusedSequence (.initState s.eng.initState)
  else if expLen.toNat < minExpLen s.params then s.answer p .refusedOperand .empty
  else runFrames p [readidSpec s.params] (.enumerate expCount expId expLen) s

/-- `ENUMERATE exp_count, exp_id, exp_len -> count, tx_ok` (R111); port `S`. -/
def execEnumerate (p : Port) (expCount : BitVec 8) (expId : BitVec 16) (expLen : BitVec 8) (s : State) : Result :=
  .next (onPort .S p s (runEnumerate p expCount expId expLen s))

/-- The set-address frames for `n` chips, in ascending chip index (R115, R116). -/
def assignFrames (c : Params) (n : Nat) : List FrameSpec :=
  (List.range n).map fun i => setaddrSpec c (chipAddress i n)

/-- The states in which `ASSIGN` is refused (R116, R184). -/
def refusesAssign (x : InitState) : Bool :=
  match x with
  | .poweredOn | .versionMaskSet | .failed => true
  | .identityVerified | .chipsAddressed | .coreRegistersConfigured | .difficultyConfigured | .clockRamped | .ready =>
    false

/-- `ASSIGN` on port `S` (R116). -/
def runAssign (p : Port) (s : State) : State :=
  if refusesAssign s.eng.initState then s.answer p .refusedSequence (.initState s.eng.initState)
  else runFrames p (assignFrames s.params s.eng.chipCount.toNat) (.assign s.eng.chipCount) s

/-- `ASSIGN -> n, tx_ok` (R116); port `S`. -/
def execAssign (p : Port) (s : State) : Result := .next (onPort .S p s (runAssign p s))

end Sys2Proof.Machine
end

