-- ==== Sys2Proof/Machine/InitSequencer.lean ====
section
/-! DEFINITION. The init sequencer: `INIT_STEP` (R181). -/

namespace Sys2Proof.Machine

/-- The state `INIT_STEP` moves to; `none` where it ends with `REFUSED_SEQUENCE` (R181). -/
def initNext (x : InitState) : Option InitState :=
  match x with
  | .poweredOn => some .versionMaskSet
  | .chipsAddressed => some .coreRegistersConfigured
  | .coreRegistersConfigured => some .difficultyConfigured
  | .difficultyConfigured => some .clockRamped
  | .clockRamped => some .ready
  | .versionMaskSet | .identityVerified | .ready | .failed => none

/-- `INIT_SEQ[s](CHIP_COUNT)` (R182); a state and count the table does not list have the empty list (log 9). -/
def initFrames (tbl : List InitSeqEntry) (x : InitState) (count : BitVec 8) : List FrameSpec :=
  match tbl with
  | [] => []
  | e :: es => if e.state = x ∧ e.count = count then e.frames else initFrames es x count

/-- `INIT_STEP` on port `S` (R181). -/
def runInitStep (p : Port) (s : State) : State :=
  match initNext s.eng.initState with
  | none => s.answer p .refusedSequence (.initState s.eng.initState)
  | some next => runFrames p (initFrames s.initSeq s.eng.initState s.eng.chipCount) (.initStep next) s

/-- `INIT_STEP -> state, tx_ok` (R181); port `S`. -/
def execInitStep (p : Port) (s : State) : Result := .next (onPort .S p s (runInitStep p s))

end Sys2Proof.Machine
end

