-- ==== Sys2Proof/Machine/PllUnit.lean ====
section
/-! DEFINITION. The PLL unit: `SOLVE` (R133) and `SETFREQ` (R138). -/

namespace Sys2Proof.Machine

/-- What `SOLVE` answers to what the search found (R133). -/
def answerFound (p : Port) (found : Option Candidate) (s : State) : State :=
  match found with
  | none => s.answer p .notFound .empty
  | some c => s.answer p .ok (.solved (pllResult c))

/-- `SOLVE t -> fb, refdiv, post1, post2, hf, f_num, f_den` (R133); port `S`. -/
def execSolve (p : Port) (t : BitVec 32) (s : State) : Result := .next (onPort .S p s (answerFound p (solve s.params t) s))

/-- What `SETFREQ` does with what the search found: on `NOT_FOUND` nothing is sent (R138). -/
def sendFound (p : Port) (found : Option Candidate) (s : State) : State :=
  match found with
  | none => s.answer p .notFound .empty
  | some c => runFrames p [pllSpec s.params (pllResult c)] (.setfreq (pllResult c)) s

/-- `SETFREQ t -> (results of SOLVE), tx_ok` (R138); port `S`. -/
def execSetfreq (p : Port) (t : BitVec 32) (s : State) : Result := .next (onPort .S p s (sendFound p (solve s.params t) s))

end Sys2Proof.Machine
end

