-- ==== Sys2Proof/Machine/Reserved.lean ====
section
/-! DEFINITION. The reserved operation codes 0x11 to 0x1F (R52). -/

namespace Sys2Proof.Machine

/-- A reserved code on either port: `REFUSED_OPCODE`; no state changes, nothing is sent or received (R52). -/
def refuseOpcode (p : Port) (s : State) : Result := .next (s.answer p .refusedOpcode .empty)

/-- Reserved code 0x11 (R52). -/
def execReserved11 (p : Port) (s : State) : Result := refuseOpcode p s

/-- Reserved code 0x12 (R52). -/
def execReserved12 (p : Port) (s : State) : Result := refuseOpcode p s

/-- Reserved code 0x13 (R52). -/
def execReserved13 (p : Port) (s : State) : Result := refuseOpcode p s

/-- Reserved code 0x14 (R52). -/
def execReserved14 (p : Port) (s : State) : Result := refuseOpcode p s

/-- Reserved code 0x15 (R52). -/
def execReserved15 (p : Port) (s : State) : Result := refuseOpcode p s

/-- Reserved code 0x16 (R52). -/
def execReserved16 (p : Port) (s : State) : Result := refuseOpcode p s

/-- Reserved code 0x17 (R52). -/
def execReserved17 (p : Port) (s : State) : Result := refuseOpcode p s

/-- Reserved code 0x18 (R52). -/
def execReserved18 (p : Port) (s : State) : Result := refuseOpcode p s

/-- Reserved code 0x19 (R52). -/
def execReserved19 (p : Port) (s : State) : Result := refuseOpcode p s

/-- Reserved code 0x1A (R52). -/
def execReserved1A (p : Port) (s : State) : Result := refuseOpcode p s

/-- Reserved code 0x1B (R52). -/
def execReserved1B (p : Port) (s : State) : Result := refuseOpcode p s

/-- Reserved code 0x1C (R52). -/
def execReserved1C (p : Port) (s : State) : Result := refuseOpcode p s

/-- Reserved code 0x1D (R52). -/
def execReserved1D (p : Port) (s : State) : Result := refuseOpcode p s

/-- Reserved code 0x1E (R52). -/
def execReserved1E (p : Port) (s : State) : Result := refuseOpcode p s

/-- Reserved code 0x1F (R52). -/
def execReserved1F (p : Port) (s : State) : Result := refuseOpcode p s

end Sys2Proof.Machine
end

