-- ==== Sys2Proof/Machine/SlotTable.lean ====
section
/-! DEFINITION. The job slot table: `SUBMIT` (R151), `MARK_VALID` (R153), `IS_VALID` (R154), `TAKE` (R155). -/

namespace Sys2Proof.Machine

/-- `SUBMIT wu, version -> job_id, released, old_wu` (R151); port `S`. -/
def execSubmit (p : Port) (wu : Handle) (version : BitVec 32) (s : State) : Result :=
  .next (onPort .S p s (runOp p (.submit1 (fitHandle s.params wu) version) s))

/-- `MARK_VALID j` (R153); port `S`. -/
def execMarkValid (p : Port) (j : BitVec 7) (s : State) : Result :=
  .next (onPort .S p s (runOp p (.markValid j) s))

/-- `IS_VALID j -> v` (R154); port `R`. -/
def execIsValid (p : Port) (j : BitVec 7) (s : State) : Result :=
  .next (onPort .R p s (runOp p (.isValid j) s))

/-- `TAKE j -> wu, version` (R155); port `R`; it leaves the slot as it was. -/
def execTake (p : Port) (j : BitVec 7) (s : State) : Result :=
  .next (onPort .R p s (runOp p (.take1 j) s))

end Sys2Proof.Machine
end

