-- ==== Sys2Proof/Machine/FrameUnit.lean ====
section
/-! DEFINITION. The frame unit: `ENCODE` (R92), `DECODE` (R95), `JOBPAYLOAD` (R98), `SEND` (R100). -/

namespace Sys2Proof.Machine

/-- The answer of `ENCODE` (R92, R93). -/
def answerEncode (p : Port) (h : Byte) (P : Bytes) (s : State) : State :=
  match encodeFrame s.params h P with
  | some F => s.answer p .ok (.bytes F)
  | none => s.answer p .refusedOperand .empty

/-- `ENCODE h, P -> F` (R92); port `S`. -/
def execEncode (p : Port) (h : Byte) (P : Bytes) (s : State) : Result := .next (onPort .S p s (answerEncode p h P s))

/-- The answer of `DECODE` (R95, R200). -/
def answerDecode (p : Port) (B : Bytes) (s : State) : State :=
  match decodeFrame s.params B with
  | .accepted h P => s.answer p .ok (.decoded h P)
  | .badPreamble => s.answer p .framePreamble .empty
  | .badLength => s.answer p .frameLength .empty
  | .badChecksum => s.answer p .frameChecksum .empty

/-- `DECODE B -> h, P` (R95); both ports. -/
def execDecode (p : Port) (B : Bytes) (s : State) : Result := .next (answerDecode p B s)

/-- `JOBPAYLOAD … -> P` (R98); port `S`. -/
def execJobpayload (p : Port) (f : JobFields) (s : State) : Result :=
  .next (onPort .S p s (s.answer p .ok (.bytes (jobPayload f))))

/-- Hand one byte string to `Tx` as given and end with `tx_ok` (R100). -/
def sendBytes (p : Port) (F : Bytes) (s : State) : State := runOp p (.transmit [F] true .send) s

/-- `SEND F -> tx_ok` (R100); port `S`. -/
def execSend (p : Port) (F : Bytes) (s : State) : Result := .next (onPort .S p s (sendBytes p F s))

end Sys2Proof.Machine
end

