-- ==== Sys2Proof/Machine/ResultParser.lean ====
section
/-! DEFINITION. The result parser: `PARSE` (R168) and `RESULT` (R170). -/

namespace Sys2Proof.Machine

/-- `PARSE B -> …` (R168); port `R`. -/
def execParse (p : Port) (B : Vector Byte Config.respLen) (s : State) : Result :=
  .next (onPort .R p s (runOp p (.parse1 B) s))

/-- `RESULT -> …` (R170); port `R`. -/
def execResult (p : Port) (s : State) : Result :=
  .next (onPort .R p s (runOp p .resultRead s))

end Sys2Proof.Machine
end

