-- ==== Sys2Proof/Machine/WireRows.lean ====
section
/-! DEFINITION. The wire rows of the table presented on a command port (log 2, DESIGN CHOICE, unsafe): a unit that goes
out to the chips is sent, a building block is assembled and returned, a unit that comes in is read as the engine reads
it. -/

namespace Sys2Proof.Machine

/-- `FRAME_COMMAND` (R53): the frame's bytes are handed to `Tx` as given, as `SEND` does (R100); port `S`. -/
def execFrameCommand (p : Port) (h len : Byte) (rest : Bytes) (s : State) : Result :=
  .next (onPort .S p s (sendBytes p (rawFrame h len rest) s))

/-- `FRAME_JOB` (R53): as `FRAME_COMMAND`; port `S`. -/
def execFrameJob (p : Port) (h len : Byte) (rest : Bytes) (s : State) : Result :=
  .next (onPort .S p s (sendBytes p (rawFrame h len rest) s))

/-- `HEADER` (R55): the header byte of the fields, and whether it selects the job shape; port `S`. -/
def execHeader (p : Port) (t c j g : Bool) (k : BitVec 4) (s : State) : Result :=
  .next (onPort .S p s (s.answer p .ok (.headerByte (headerByte s.params t c j g k) (isJobHeader s.params (headerByte s.params t c j g k)))))

/-- `READID` (R65, R67): the identification read frame is sent, its checksum byte as given; port `S`. With the right
checksum this is the expansion `ENCODE 0x52, [00 00] -> F ; SEND F`. -/
def execReadid (p : Port) (crc : Byte) (s : State) : Result :=
  .next (onPort .S p s (sendBytes p (rawCommand s.params s.params.hdrReadid s.params.readidPayload crc) s))

/-- `SETADDR a` (R65, R67): the set-address frame is sent, its checksum byte as given; port `S`. -/
def execSetaddr (p : Port) (a crc : Byte) (s : State) : Result :=
  .next (onPort .S p s (sendBytes p (rawCommand s.params s.params.hdrSetaddr [a, 0x00] crc) s))

/-- `PLLWRITE` (R61, R67 `WRITEALL`): the register write is sent, its checksum byte as given; port `S`. -/
def execPllwrite (p : Port) (hf : Bool) (fb : Byte) (refdiv : BitVec 2) (post1m post2m : BitVec 3) (crc : Byte)
    (s : State) : Result :=
  .next (onPort .S p s
    (sendBytes p (rawCommand s.params s.params.hdrWriteAll (pllPayloadRaw s.params hf fb refdiv post1m post2m) crc) s))

/-- `JOBPAYLOAD_LAYOUT` (R60): the 82 bytes of the layout; port `S`. -/
def execJobpayloadLayout (p : Port) (f : JobFields) (s : State) : Result :=
  .next (onPort .S p s (s.answer p .ok (.bytes (jobPayload f))))

/-- `RESULT_RECORD` (R62): the record is read by the parser (R63, R168); port `R`. -/
def execResultRecord (p : Port) (r : RecordFields) (s : State) : Result :=
  .next (onPort .R p s (runOp p (.parse1 (recordBytes r)) s))

/-- What `ID_RECORD` answers for the bytes of a record: the two bytes from `ID_OFFSET`, no other byte examined; a record in
which they do not exist is refused as `ENUMERATE` refuses its length (R64, R112). -/
def answerIdRecord (p : Port) (B : Bytes) (s : State) : State :=
  if B.length < minExpLen s.params then s.answer p .refusedOperand .empty
  else s.answer p .ok (.chipId (chipIdOf s.params B))

/-- `ID_RECORD` (R64): the chip identifier is read from the record; port `S`. -/
def execIdRecord (p : Port) (preamble chipId : BitVec 16) (rest : Bytes) (s : State) : Result :=
  .next (onPort .S p s (answerIdRecord p (idRecordBytes preamble chipId rest) s))

end Sys2Proof.Machine
end

