-- ==== Sys2Proof/Machine/Dispatch.lean ====
section
/-! DEFINITION. One arm per operation, each one direct call of its meaning. -/

namespace Sys2Proof.Machine

open Sys2Proof

def exec (i : Instr) (s : State) : Host.Outcome State Fault Refusal :=
  match i with
  | .crc5 p B => Sys2Proof.Machine.execCrc5 p B s
  | .crc16 p B => Sys2Proof.Machine.execCrc16 p B s
  | .encode p h P => Sys2Proof.Machine.execEncode p h P s
  | .decode p B => Sys2Proof.Machine.execDecode p B s
  | .jobpayload p f => Sys2Proof.Machine.execJobpayload p f s
  | .send p F => Sys2Proof.Machine.execSend p F s
  | .enumerate p expCount expId expLen => Sys2Proof.Machine.execEnumerate p expCount expId expLen s
  | .assign p => Sys2Proof.Machine.execAssign p s
  | .solve p t => Sys2Proof.Machine.execSolve p t s
  | .setfreq p t => Sys2Proof.Machine.execSetfreq p t s
  | .submit p wu version => Sys2Proof.Machine.execSubmit p wu version s
  | .markValid p j => Sys2Proof.Machine.execMarkValid p j s
  | .isValid p j => Sys2Proof.Machine.execIsValid p j s
  | .take p j => Sys2Proof.Machine.execTake p j s
  | .parse p B => Sys2Proof.Machine.execParse p B s
  | .result p => Sys2Proof.Machine.execResult p s
  | .initStep p => Sys2Proof.Machine.execInitStep p s
  | .reserved11 p => Sys2Proof.Machine.execReserved11 p s
  | .reserved12 p => Sys2Proof.Machine.execReserved12 p s
  | .reserved13 p => Sys2Proof.Machine.execReserved13 p s
  | .reserved14 p => Sys2Proof.Machine.execReserved14 p s
  | .reserved15 p => Sys2Proof.Machine.execReserved15 p s
  | .reserved16 p => Sys2Proof.Machine.execReserved16 p s
  | .reserved17 p => Sys2Proof.Machine.execReserved17 p s
  | .reserved18 p => Sys2Proof.Machine.execReserved18 p s
  | .reserved19 p => Sys2Proof.Machine.execReserved19 p s
  | .reserved1A p => Sys2Proof.Machine.execReserved1A p s
  | .reserved1B p => Sys2Proof.Machine.execReserved1B p s
  | .reserved1C p => Sys2Proof.Machine.execReserved1C p s
  | .reserved1D p => Sys2Proof.Machine.execReserved1D p s
  | .reserved1E p => Sys2Proof.Machine.execReserved1E p s
  | .reserved1F p => Sys2Proof.Machine.execReserved1F p s
  | .frameCommand p h len rest => Sys2Proof.Machine.execFrameCommand p h len rest s
  | .frameJob p h len rest => Sys2Proof.Machine.execFrameJob p h len rest s
  | .header p t c j g k => Sys2Proof.Machine.execHeader p t c j g k s
  | .readid p crc => Sys2Proof.Machine.execReadid p crc s
  | .setaddr p a crc => Sys2Proof.Machine.execSetaddr p a crc s
  | .pllwrite p hf fb refdiv post1m post2m crc => Sys2Proof.Machine.execPllwrite p hf fb refdiv post1m post2m crc s
  | .jobpayloadLayout p f => Sys2Proof.Machine.execJobpayloadLayout p f s
  | .resultRecord p r => Sys2Proof.Machine.execResultRecord p r s
  | .idRecord p preamble chipId rest => Sys2Proof.Machine.execIdRecord p preamble chipId rest s

end Sys2Proof.Machine
end

