-- ==== Sys2Proof/WellFormed.lean ====
section
/-! DEFINITION. Which operations have an encoding that the spec calls well-formed, for given parameters. Operand widths are in
the types but for a handle's (R51); what is left to check is the wire rows' length, shape, range and checksum fields (R53,
R54, R57, R61, R64). -/

namespace Sys2Proof

open Machine

/-- A raw command frame is well-formed: command shape, a length byte that is the payload's byte count plus the offset, and the
checksum over header, length and payload (R53, R54, R57). -/
def commandFrameOk (c : Params) (h len : Byte) (rest : Bytes) : Bool :=
  !isJobHeader c h && decide (1 ≤ rest.length) && len.toNat == rest.length - 1 + c.lenOffCmd
    && rest.drop (rest.length - 1) == [crc5TrailByte c (h :: len :: rest.take (rest.length - 1))]

/-- The same for a raw job frame (R53, R54). -/
def jobFrameOk (c : Params) (h len : Byte) (rest : Bytes) : Bool :=
  isJobHeader c h && decide (2 ≤ rest.length) && len.toNat == rest.length - 2 + c.lenOffJob
    && rest.drop (rest.length - 2) == crc16TrailBytes c (h :: len :: rest.take (rest.length - 2))

/-- A raw command frame is well-formed and its row is `i` and no other. -/
def commandRowOk (c : Params) (i : Instr) (h len : Byte) (rest : Bytes) : Bool :=
  commandFrameOk c h len rest && classifyFrame c i.port h len rest == i

/-- A row whose frame has header `h`, payload `P` and the checksum byte given. -/
def payloadRowOk (c : Params) (i : Instr) (h : Byte) (P : Bytes) (crc : Byte) : Bool :=
  commandRowOk c i h (lengthByte c.lenOffCmd P) (P ++ [crc])

/-- The dividers of a PLL register write as stored: `fb` in `0xA0` to `0xEF`, `refdiv` 1 or 2, post dividers 1 to 7 with
`post1 ≥ post2` (R61, R130). -/
def pllFieldsOk (fb : Byte) (refdiv : BitVec 2) (post1m post2m : BitVec 3) : Bool :=
  decide (Config.fbMin ≤ fb.toNat) && decide (fb.toNat ≤ Config.fbMax) && (refdiv == 1 || refdiv == 2)
    && decide (post1m.toNat + Config.pdMin ≤ Config.pdMax) && decide (post2m ≤ post1m)

/-- The checks, row by row; an operation of R51 or R52 has none beyond its operand types, but for the width of a handle. -/
def wellFormed (c : Params) (i : Instr) : Bool :=
  match i with
  | .submit _ wu _ => decide (wu < 2 ^ c.wuW)
  | .frameCommand p h len rest => commandRowOk c (.frameCommand p h len rest) h len rest
  | .frameJob p h len rest => jobFrameOk c h len rest && classifyFrame c p h len rest == .frameJob p h len rest
  | .readid p crc => payloadRowOk c (.readid p crc) c.hdrReadid c.readidPayload crc
  | .setaddr p a crc => payloadRowOk c (.setaddr p a crc) c.hdrSetaddr [a, 0x00] crc
  | .pllwrite p hf fb refdiv post1m post2m crc =>
    pllFieldsOk fb refdiv post1m post2m && hf == hfBit fb.toNat refdiv.toNat
      && payloadRowOk c (.pllwrite p hf fb refdiv post1m post2m crc) c.hdrWriteAll (pllPayloadRaw c hf fb refdiv post1m post2m) crc
  | .idRecord _ _ _ rest => decide (minExpLen c ≤ rest.length + 4) && decide (rest.length + 4 ≤ 255)
  | .crc5 _ _ | .crc16 _ _ | .encode _ _ _ | .decode _ _ | .jobpayload _ _ | .send _ _ | .enumerate _ _ _ _ | .assign _
  | .solve _ _ | .setfreq _ _ | .markValid _ _ | .isValid _ _ | .take _ _ | .parse _ _ | .result _
  | .initStep _ | .reserved11 _ | .reserved12 _ | .reserved13 _ | .reserved14 _ | .reserved15 _ | .reserved16 _
  | .reserved17 _ | .reserved18 _ | .reserved19 _ | .reserved1A _ | .reserved1B _ | .reserved1C _ | .reserved1D _
  | .reserved1E _ | .reserved1F _ | .header _ _ _ _ _ _ | .jobpayloadLayout _ _ | .resultRecord _ _ => true

/-- The operation is well-formed. -/
abbrev WellFormed (c : Params) (i : Instr) : Prop := wellFormed c i = true

end Sys2Proof
end

