-- ==== Sys2Proof/Decode.lean ====
section
/-! DEFINITION. The byte form in which operations are presented on a command port, its decoder and its encoder.
The spec's ports take typed operands (R50); the byte form is the model's (DESIGN CHOICE, log 1): one byte for the operation
code in bits 4:0, then the operands in R51's order, big-endian, a 7-bit operand in one byte, and a byte string carrying its
length in unary (a mark 01 before each byte, a mark 00 after the last). A handle takes the whole bytes that hold `WU_W` bits,
so decoder and encoder take the parameters. A frame is presented as its own bytes, which begin
55; the other wire rows have the tags 80 to 83. -/

namespace Sys2Proof

open Machine

/-! ### Taking operands from bytes -/

/-- What a decoder of an operand answers: the operand and the bytes after it, or why there is none. -/
abbrev Decoded (α : Type) := Except DecodeError (α × Bytes)

/-- Take an operand, then go on with the bytes after it. -/
def Decoded.andThen {α β : Type} (x : Decoded α) (f : α → Bytes → Decoded β) : Decoded β :=
  match x with
  | .ok y => f y.1 y.2
  | .error e => .error e

/-- Take an operand and make something of it. -/
def Decoded.into {α β : Type} (x : Decoded α) (f : α → β) : Decoded β := x.andThen fun a r => .ok (f a, r)

/-- One byte. -/
def takeByte (bs : Bytes) : Decoded Byte :=
  match bs with
  | [] => .error .incomplete
  | b :: r => .ok (b, r)

/-- A 7-bit operand: one byte whose bit 7 is clear. -/
def take7 (bs : Bytes) : Decoded (BitVec 7) :=
  match bs with
  | [] => .error .incomplete
  | b :: r => if b.getLsbD 7 then .error (.wideOperand b) else .ok (b.setWidth 7, r)

/-- A 16-bit operand, big-endian. -/
def take16 (bs : Bytes) : Decoded (BitVec 16) :=
  match bs with
  | a :: b :: r => .ok (beWord16 a b, r)
  | _ => .error .incomplete

/-- A 32-bit operand, big-endian. -/
def take32 (bs : Bytes) : Decoded (BitVec 32) :=
  match bs with
  | a :: b :: c :: d :: r => .ok (beWord32 a b c d, r)
  | _ => .error .incomplete

/-- A number of `n` bytes, big-endian, after the digits `acc`. -/
def takeNat (n acc : Nat) (bs : Bytes) : Decoded Nat :=
  match n, bs with
  | 0, bs => .ok (acc, bs)
  | _ + 1, [] => .error .incomplete
  | n + 1, b :: r => takeNat n (acc * 256 + b.toNat) r

/-- A handle: the whole bytes that hold `WU_W` bits, the bits above that width clear. -/
def takeHandle (c : Params) (bs : Bytes) : Decoded Handle :=
  Decoded.andThen (takeNat (handleBytes c) 0 bs) fun w r =>
  if w < 2 ^ c.wuW then .ok (w, r) else .error (.wideOperand (byteAt bs 0))

/-- A byte string of fixed length. -/
def takeVec (n : Nat) (bs : Bytes) : Decoded (Vector Byte n) :=
  if h : n ≤ bs.length then .ok (⟨(bs.take n).toArray, by simpa using h⟩, bs.drop n) else .error .incomplete

/-- A byte string that carries its length in unary. -/
def takeString (bs : Bytes) : Decoded Bytes :=
  match bs with
  | [] => .error .incomplete
  | [m] => if m = 0x00 then .ok ([], []) else if m = 0x01 then .error .incomplete else .error (.badMark m)
  | m :: b :: r =>
    if m = 0x00 then .ok ([], b :: r)
    else if m = 0x01 then Decoded.into (takeString r) (b :: ·)
    else .error (.badMark m)

/-- The operands of `JOBPAYLOAD` (R98), in R60's order. -/
def takeJobFields (bs : Bytes) : Decoded JobFields :=
  Decoded.andThen (takeByte bs) fun a r =>
  Decoded.andThen (takeByte r) fun b r =>
  Decoded.andThen (take32 r) fun c r =>
  Decoded.andThen (take32 r) fun d r =>
  Decoded.andThen (take32 r) fun e r =>
  Decoded.andThen (takeVec 32 r) fun f r =>
  Decoded.andThen (takeVec 32 r) fun g r =>
  Decoded.andThen (take32 r) fun h r =>
  .ok ({ jobId := a, numMidstates := b, startingNonce := c, nbits := d, ntime := e, merkleRoot := f,
         prevBlockHash := g, version := h }, r)

/-- The fields of a response record (R62). -/
def takeRecord (bs : Bytes) : Decoded RecordFields :=
  Decoded.andThen (take16 bs) fun a r =>
  Decoded.andThen (take32 r) fun b r =>
  Decoded.andThen (takeByte r) fun c r =>
  Decoded.andThen (takeByte r) fun d r =>
  Decoded.andThen (take16 r) fun e r =>
  Decoded.andThen (takeByte r) fun f r =>
  .ok ({ preamble := a, nonce := b, midstateNum := c, replyId := d, version := e, crc := f }, r)

/-! ### The decoder -/

/-- The operands of `CRC5`, `CRC16`, `DECODE` and `SEND`: one byte string. -/
def decodeString (mk : Bytes → Instr) (r : Bytes) : Decoded Instr := Decoded.into (takeString r) mk

/-- The operand of `MARK_VALID`, `IS_VALID` and `TAKE`: a slot index. -/
def decodeIndex (mk : BitVec 7 → Instr) (r : Bytes) : Decoded Instr := Decoded.into (take7 r) mk

/-- `ENCODE`'s operands. -/
def decodeEncode (p : Port) (r : Bytes) : Decoded Instr :=
  Decoded.andThen (takeByte r) fun h r =>
  Decoded.andThen (takeString r) fun P r =>
  .ok (.encode p h P, r)

/-- `ENUMERATE`'s operands. -/
def decodeEnumerate (p : Port) (r : Bytes) : Decoded Instr :=
  Decoded.andThen (takeByte r) fun c r =>
  Decoded.andThen (take16 r) fun i r =>
  Decoded.andThen (takeByte r) fun l r =>
  .ok (.enumerate p c i l, r)

/-- `SUBMIT`'s operands. -/
def decodeSubmit (c : Params) (p : Port) (r : Bytes) : Decoded Instr :=
  Decoded.andThen (takeHandle c r) fun w r =>
  Decoded.andThen (take32 r) fun v r =>
  .ok (.submit p w v, r)

/-- The operation codes of R51 and R52 (5 bits), each followed by its operands. -/
def decodeOperation (c : Params) (p : Port) (op : Nat) (r : Bytes) : Decoded Instr :=
  match op with
  | 0x00 => decodeString (.crc5 p) r
  | 0x01 => decodeString (.crc16 p) r
  | 0x02 => decodeEncode p r
  | 0x03 => decodeString (.decode p) r
  | 0x04 => Decoded.into (takeJobFields r) (.jobpayload p)
  | 0x05 => decodeString (.send p) r
  | 0x06 => decodeEnumerate p r
  | 0x07 => .ok (.assign p, r)
  | 0x08 => Decoded.into (take32 r) (.solve p)
  | 0x09 => Decoded.into (take32 r) (.setfreq p)
  | 0x0A => decodeSubmit c p r
  | 0x0B => decodeIndex (.markValid p) r
  | 0x0C => decodeIndex (.isValid p) r
  | 0x0D => decodeIndex (.take p) r
  | 0x0E => Decoded.into (takeVec Config.respLen r) (.parse p)
  | 0x0F => .ok (.result p, r)
  | 0x10 => .ok (.initStep p, r)
  | 0x11 => .ok (.reserved11 p, r)
  | 0x12 => .ok (.reserved12 p, r)
  | 0x13 => .ok (.reserved13 p, r)
  | 0x14 => .ok (.reserved14 p, r)
  | 0x15 => .ok (.reserved15 p, r)
  | 0x16 => .ok (.reserved16 p, r)
  | 0x17 => .ok (.reserved17 p, r)
  | 0x18 => .ok (.reserved18 p, r)
  | 0x19 => .ok (.reserved19 p, r)
  | 0x1A => .ok (.reserved1A p, r)
  | 0x1B => .ok (.reserved1B p, r)
  | 0x1C => .ok (.reserved1C p, r)
  | 0x1D => .ok (.reserved1D p, r)
  | 0x1E => .ok (.reserved1E p, r)
  | 0x1F => .ok (.reserved1F p, r)
  | _ => .error (.notAnOperation (BitVec.ofNat 8 op))

/-- A frame presented as its own bytes, after its first byte 55: the second preamble byte, the header, the length byte `L`,
and the bytes up to `L + 2` in all (R56; at least the four up to `L` itself, log 25). -/
def decodeWireFrame (c : Params) (p : Port) (r : Bytes) : Decoded Instr :=
  match r with
  | [] => .error .incomplete
  | a :: r =>
    if a ≠ Config.preamble1 then .error (.badPreamble a)
    else match r with
      | h :: len :: r =>
        if bytesAfterLength c h len ≤ r.length then
          .ok (classifyFrame c p h len (r.take (bytesAfterLength c h len)), r.drop (bytesAfterLength c h len))
        else .error .incomplete
      | _ => .error .incomplete

/-- The `HEADER` row: its fields in the places of the table's row. -/
def decodeHeaderRow (p : Port) (r : Bytes) : Decoded Instr :=
  Decoded.andThen (takeByte r) fun b r =>
  .ok (.header p (b.getLsbD 7) (b.getLsbD 6) (b.getLsbD 5) (b.getLsbD 4) (b.setWidth 4), r)

/-- The `ID_RECORD` row. -/
def decodeIdRecord (p : Port) (r : Bytes) : Decoded Instr :=
  Decoded.andThen (take16 r) fun a r =>
  Decoded.andThen (take16 r) fun i r =>
  Decoded.andThen (takeString r) fun t r =>
  .ok (.idRecord p a i t, r)

/-- The decoder: the operation at the front of the bytes presented on port `p`, and the bytes after it. Total; a byte
that starts nothing is rejected by name. -/
def decodeCommandPort (c : Params) (p : Port) (bs : Bytes) : Decoded Instr :=
  match bs with
  | [] => .error .incomplete
  | b :: r =>
    if b.toNat < 32 then decodeOperation c p b.toNat r
    else if b = Config.preamble0 then decodeWireFrame c p r
    else if b = 0x80 then decodeHeaderRow p r
    else if b = 0x81 then Decoded.into (takeJobFields r) (.jobpayloadLayout p)
    else if b = 0x82 then Decoded.into (takeRecord r) (.resultRecord p)
    else if b = 0x83 then decodeIdRecord p r
    else .error (.notAnOperation b)

/-! ### The encoder -/

/-- A byte string with its length in unary. -/
def putString (bs : Bytes) : Bytes :=
  match bs with
  | [] => [0x00]
  | b :: r => 0x01 :: b :: putString r

/-- The bytes of `JOBPAYLOAD`'s operands: R60's layout. -/
def putJobFields (f : JobFields) : Bytes := jobPayload f

/-- The bytes in which a well-formed operation is presented on its port. -/
def encode (c : Params) (i : Instr) : Bytes :=
  match i with
  | .crc5 _ B => 0x00 :: putString B
  | .crc16 _ B => 0x01 :: putString B
  | .encode _ h P => 0x02 :: h :: putString P
  | .decode _ B => 0x03 :: putString B
  | .jobpayload _ f => 0x04 :: putJobFields f
  | .send _ F => 0x05 :: putString F
  | .enumerate _ n i l => 0x06 :: n :: (bytesBe16 i ++ [l])
  | .assign _ => [0x07]
  | .solve _ t => 0x08 :: bytesBe32 t
  | .setfreq _ t => 0x09 :: bytesBe32 t
  | .submit _ w v => 0x0A :: (bytesOfNat (handleBytes c) w ++ bytesBe32 v)
  | .markValid _ j => [0x0B, j.setWidth 8]
  | .isValid _ j => [0x0C, j.setWidth 8]
  | .take _ j => [0x0D, j.setWidth 8]
  | .parse _ B => 0x0E :: B.toList
  | .result _ => [0x0F]
  | .initStep _ => [0x10]
  | .reserved11 _ => [0x11]
  | .reserved12 _ => [0x12]
  | .reserved13 _ => [0x13]
  | .reserved14 _ => [0x14]
  | .reserved15 _ => [0x15]
  | .reserved16 _ => [0x16]
  | .reserved17 _ => [0x17]
  | .reserved18 _ => [0x18]
  | .reserved19 _ => [0x19]
  | .reserved1A _ => [0x1A]
  | .reserved1B _ => [0x1B]
  | .reserved1C _ => [0x1C]
  | .reserved1D _ => [0x1D]
  | .reserved1E _ => [0x1E]
  | .reserved1F _ => [0x1F]
  | .frameCommand _ h len rest => rawFrame h len rest
  | .frameJob _ h len rest => rawFrame h len rest
  | .header _ t m j g k => [0x80, headerRowByte t m j g k]
  | .readid _ crc => rawCommand c c.hdrReadid c.readidPayload crc
  | .setaddr _ a crc => rawCommand c c.hdrSetaddr [a, 0x00] crc
  | .pllwrite _ hf fb refdiv a b crc => rawCommand c c.hdrWriteAll (pllPayloadRaw c hf fb refdiv a b) crc
  | .jobpayloadLayout _ f => 0x81 :: putJobFields f
  | .resultRecord _ r => 0x82 :: (recordBytes r).toList
  | .idRecord _ a i t => 0x83 :: (bytesBe16 a ++ (bytesBe16 i ++ putString t))

/-! ### The table's numbering (log 18) -/

/-- The bytes of a table word: one byte for an operation code; for a wire row, whose table pattern has byte 0 most
significant, its bytes in wire order; then zeros up to the longest presented operation. -/
def tableBytes (nbits w : Nat) : Bytes := bytesOfNat ((nbits + 7) / 8) w ++ List.replicate 300 0x00

/-- The port a table word is presented on: `R` for the four operations only `R` accepts, else `S` (R51). -/
def tablePort (nbits w : Nat) : Port :=
  if nbits ≤ 8 ∧ 0x0C ≤ w % 256 ∧ w % 256 ≤ 0x0F then .R else .S

/-- The operation the decoder reads from a table word, with the parameters of R9's table. -/
def decodeTableWord (nbits w : Nat) : Option Instr :=
  match decodeCommandPort Params.default (tablePort nbits w) (tableBytes nbits w) with
  | .ok x => some x.1
  | .error _ => none

end Sys2Proof
end

