-- ==== Sys2Proof/Machine/Fetch.lean ====
section
/-! DEFINITION. Accepting the next operation presented on a port, and resuming one in progress. -/

namespace Sys2Proof.Machine

/-- What is at the front of the bytes presented on port `p`: an operation and the bytes after it; or nothing whole yet;
or bytes that are no operation (log 12, log 13). -/
inductive Fetched where
  | operation (i : Instr) (rest : Bytes)
  | nothing
  | bad (e : DecodeError)
deriving DecidableEq, Repr

/-- Read the operation at the front of port `p`'s bytes. -/
def fetch (p : Port) (s : State) : Fetched :=
  match decodeCommandPort s.params p (s.port p).cmd with
  | .ok x => .operation x.1 x.2
  | .error .incomplete => .nothing
  | .error e => .bad e

/-- The bytes of a table word that its operation occupies, without the zeros after it. -/
def tableWordBytes (c : Params) (nbits w : Nat) : Bytes :=
  match decodeCommandPort c (tablePort nbits w) (tableBytes nbits w) with
  | .ok x => (tableBytes nbits w).take ((tableBytes nbits w).length - x.2.length)
  | .error _ => tableBytes nbits w

end Sys2Proof.Machine
end

