-- ==== Sys2Proof/Machine/Step.lean ====
section
/-! DEFINITION. One step of the machine: the reset event if it is asked for and neither port has an operation in progress
(R230); else the port whose turn it is resumes its operation in progress, or accepts the next one presented, and runs it for
as many micro-steps as the schedule gives it (R42, log 3). A port with nothing to do leaves the state as it is (log 12). -/

namespace Sys2Proof.Machine

/-- The turn of port `p`. -/
def stepPort (p : Port) (s : State) : Host.Outcome State Fault Refusal :=
  match (s.port p).cur with
  | some t => .next (runOp p t s)
  | none =>
    match fetch p s with
    | .operation i rest => exec i (s.withCmd p rest)
    | .nothing => .next s
    | .bad e => .refused (.undecodable e)

/-- One step. -/
def step (s : State) : Host.Outcome State Fault Refusal :=
  if s.resetReq && s.betweenOperations then .next s.resetEvent
  else stepPort s.nextTurn.turn s.nextTurn

/-- `s` with a table word presented as the next operation of the port it belongs to, that port's turn, and nothing in
progress there, so that the very next step runs it (log 18). -/
def State.withFetchWord (s : State) (nbits w : Nat) : State :=
  let p := tablePort nbits w
  let x := s.port p
  { s.withPort p { x with cmd := tableWordBytes s.params nbits w ++ x.cmd, cur := none } with
    turn := p, sched := [], resetReq := false }

end Sys2Proof.Machine
end

