-- ==== Sys2Proof/Machine/Pseudo.lean ====
section
/-! DEFINITION. The pseudo-operations of R67: each is an abbreviation of a sequence of operations on port `S` and has no
operation code. Where the sequence passes a result on (a frame `F`, a payload `P`, an identifier), the result stands here
as the value the operation before it answers; where that operation ends with a refusal and answers no result (`ENCODE`, R93),
the operations that would take it do not follow. -/

namespace Sys2Proof.Machine

/-- `SEND F` for the frame `ENCODE` answered, if it answered one (R92, R93). -/
def sendAnswered (F : Option Bytes) : List Instr := F.toList.map (.send .S)

/-- `ENCODE h, P -> F ; SEND F`. -/
def encodeThenSend (c : Params) (x : FrameSpec) : List Instr :=
  .encode .S x.header x.payload :: sendAnswered (encodeFrame c x.header x.payload)

/-- `READID`: `ENCODE 0x52, [00 00] -> F ; SEND F`. -/
def pseudoReadid (c : Params) : List Instr := encodeThenSend c (readidSpec c)

/-- `SETADDR a`: `ENCODE 0x40, [a 00] -> F ; SEND F`. -/
def pseudoSetaddr (c : Params) (a : Byte) : List Instr := encodeThenSend c (setaddrSpec c a)

/-- `WRITEALL P`: `ENCODE 0x51, P -> F ; SEND F`. -/
def pseudoWriteall (c : Params) (P : Bytes) : List Instr := encodeThenSend c { header := c.hdrWriteAll, payload := P }

/-- `JOBFRAME id, …`: `JOBPAYLOAD id, … -> P ; ENCODE 0x21, P -> F`. -/
def pseudoJobframe (c : Params) (f : JobFields) : List Instr := [.jobpayload .S f, .encode .S c.hdrJob (jobPayload f)]

/-- `SENDJOB wu, …`: `SUBMIT wu, ver -> id ; JOBFRAME id, … -> F ; SEND F`, with `id` the identifier `SUBMIT` answers. -/
def pseudoSendjob (c : Params) (wu : Handle) (id : BitVec 7) (f : JobFields) : List Instr :=
  let g := { f with jobId := id.setWidth 8 }
  .submit .S wu f.version :: pseudoJobframe c g ++ sendAnswered (encodeFrame c c.hdrJob (jobPayload g))

end Sys2Proof.Machine
end

