-- ==== Sys2Proof/Safety.lean ====
section
/-! DEFINITION. What a safe state of the machine is: the invariant every step keeps, in the terms the statements use. -/

namespace Sys2Proof.Machine

/-- `INIT_STATE` is past a successful enumeration (R15, R180). -/
def pastEnumeration (x : InitState) : Bool :=
  match x with
  | .identityVerified | .chipsAddressed | .coreRegistersConfigured | .difficultyConfigured | .clockRamped | .ready => true
  | .poweredOn | .versionMaskSet | .failed => false

/-- What an operation that is sending frames presumes of the registers (R111, R116, R181): its sequence check passed. -/
def afterTxOk (e : Engine) (k : AfterTx) : Prop :=
  match k with
  | .send | .setfreq _ | .refuseOperand => True
  | .enumerate _ _ _ => e.initState = .versionMaskSet
  | .assign n => refusesAssign e.initState = false ∧ n = e.chipCount
  | .initStep next => initNext e.initState = some next

/-- The operation in progress on port `S` is one port `S` accepts, and its working values fit the registers (R19, R22). -/
def sendTaskOk (c : Params) (e : Engine) (t : Task) : Prop :=
  match t with
  | .transmit _ _ k | .txWait _ _ k => afterTxOk e k
  | .enumRead _ _ _ _ _ => e.initState = .versionMaskSet
  | .submit1 wu _ => wu < 2 ^ c.wuW
  | .submit2 j wu _ | .submit3 j wu _ _ => j.toNat % 8 = 0 ∧ wu < 2 ^ c.wuW
  | .submit4 j _ => j.toNat % 8 = 0
  | .markValid _ => True
  | .isValid _ | .take1 _ | .take2 _ | .take3 _ _ | .resultRead | .parse1 _ | .parse2 _ _ | .parse3 _ _
  | .parse4 _ _ _ _ _ _ | .parse5 _ _ _ _ _ _ _ => False

/-- The operation in progress on port `R` is one port `R` accepts (R51). -/
def receiveTask (t : Task) : Prop :=
  match t with
  | .isValid _ | .take1 _ | .take2 _ | .take3 _ _ | .resultRead | .parse1 _ | .parse2 _ _ | .parse3 _ _
  | .parse4 _ _ _ _ _ _ | .parse5 _ _ _ _ _ _ _ => True
  | .transmit _ _ _ | .txWait _ _ _ | .enumRead _ _ _ _ _ | .submit1 _ _ | .submit2 _ _ _ | .submit3 _ _ _ _
  | .submit4 _ _ | .markValid _ => False

/-- The invariant of the machine. -/
structure Inv (s : State) : Prop where
  /-- No micro-step ends holding the lock (R14, R41). -/
  lockFree : s.eng.lock = .free
  /-- `NEXT_ID` only ever holds a multiple of 8 (R12). -/
  nextIdSpaced : s.eng.nextId.toNat % 8 = 0
  /-- Only slots whose index is a multiple of 8 are ever occupied (R32, R159). -/
  occupiedSpaced : ∀ j, (s.slot j).occupied = true → j.toNat % 8 = 0
  /-- An occupied slot is valid, except between m3 and m4 of the `SUBMIT` that fills it (R151, R158). -/
  occupiedValid : ∀ j, (s.slot j).occupied = true →
    (s.slot j).valid = true ∨ ∃ r, s.portS.cur = some (.submit4 j r)
  /-- Every handle in the table has `WU_W` bits (R13). -/
  handlesFit : ∀ j, (s.slot j).wu < 2 ^ s.params.wuW
  /-- `FAIL_REASON` is `NoChips` exactly in `Failed` (R17, R185). -/
  failedReason : s.eng.failReason = .noChips ↔ s.eng.initState = .failed
  /-- `CHIP_COUNT` is at least 1 exactly in the states after a successful enumeration (R16, R118). -/
  countEnumerated : s.eng.chipCount ≠ 0 ↔ pastEnumeration s.eng.initState = true
  /-- Port `S` runs operations of port `S` only. -/
  portSOk : ∀ t, s.portS.cur = some t → sendTaskOk s.params s.eng t
  /-- Port `R` runs operations of port `R` only. -/
  portROk : ∀ t, s.portR.cur = some t → receiveTask t

/-- A run is safe if it starts in the invariant and no step of it is refused: the hosts present operations only. -/
def SafeRun (s : State) : Prop :=
  Inv s ∧ ∀ k, ∃ s', Host.Core.run core k s = .next s'

/-- The transitions of `INIT_STATE` one operation can make (R180's table). -/
def initTransition (x y : InitState) : Bool :=
  match x, y with
  | .poweredOn, .versionMaskSet | .versionMaskSet, .identityVerified | .versionMaskSet, .failed
  | .identityVerified, .chipsAddressed | .chipsAddressed, .coreRegistersConfigured
  | .coreRegistersConfigured, .difficultyConfigured | .difficultyConfigured, .clockRamped | .clockRamped, .ready => true
  | _, _ => false

/-- The step performs the reset event (R230). -/
def State.resetsNow (s : State) : Bool := s.resetReq && s.betweenOperations

end Sys2Proof.Machine
end

