-- ==== Sys2Proof/Certificates/Slice0/Obligations.lean ====
section
/-! DEFINITION. The statements for the provers. A hypothesis `s.sched = []` says that no switch to the other port is
ordered, so the operation runs on as long as it can (log 3); `s.env.txAns = a :: as` that the transport has answered (log 5).
An equation for the whole next state is also the operation's frame: what it does not name is unchanged. The statements hold for
every value of the parameters `s.params` that R9 leaves open or decides; `DefaultParametersAreR9s` gives R9's values. -/

namespace Sys2Proof.Reference

open Machine

/-! ### Reference forms, written from the spec independently of the model's definitions -/

/-- R81's five flip-flops `c4 c3 c2 c1 c0` clocked once with input bit `d`. -/
def flopStep (c : Bool × Bool × Bool × Bool × Bool) (d : Bool) : Bool × Bool × Bool × Bool × Bool :=
  match c with
  | (c4, c3, c2, c1, c0) => (c3, c2, (c1 ^^ c4) ^^ d, c0, c4 ^^ d)

/-- The bits of a byte string, first byte first, bit 7 of each byte first (R36). -/
def inputBits (B : Bytes) : List Bool :=
  B.flatMap fun b => [b.getLsbD 7, b.getLsbD 6, b.getLsbD 5, b.getLsbD 4, b.getLsbD 3, b.getLsbD 2, b.getLsbD 1, b.getLsbD 0]

/-- The value of the flip-flops, `c4` most significant (R81). -/
def flopValue (c : Bool × Bool × Bool × Bool × Bool) : Nat :=
  match c with
  | (c4, c3, c2, c1, c0) => 16 * c4.toNat + 8 * c3.toNat + 4 * c2.toNat + 2 * c1.toNat + c0.toNat

/-- R84's bit-serial step for the generator `poly`: `fb <- c[15] ^ d; c <- (c << 1)[15:0]; if fb = 1: c <- c ^ poly`. -/
def serial16 (poly c : BitVec 16) (d : Bool) : BitVec 16 :=
  if (c.getLsbD 15 ^^ d) = true then (c <<< 1) ^^^ poly else c <<< 1

/-- `encode(h, P)` as R92's pseudocode writes it, with R9's values. -/
def encodeR92 (h : Byte) (P : Bytes) : Option Bytes :=
  if h.getLsbD 5 then
    if P.length > 251 then none
    else some ([0x55, 0xAA, h, BitVec.ofNat 8 (P.length + 4)] ++ P ++
      [(crc16 Params.default ([h, BitVec.ofNat 8 (P.length + 4)] ++ P)).extractLsb' 8 8,
       (crc16 Params.default ([h, BitVec.ofNat 8 (P.length + 4)] ++ P)).extractLsb' 0 8])
  else
    if P.length > 252 then none
    else some ([0x55, 0xAA, h, BitVec.ofNat 8 (P.length + 3)] ++ P ++
      [(crc5 Params.default ([h, BitVec.ofNat 8 (P.length + 3)] ++ P)).setWidth 8])

/-- A divider combination of R132's loops. -/
def legalDividers (refdiv post1 post2 : Nat) : Prop :=
  (refdiv = 1 ∨ refdiv = 2) ∧ 1 ≤ post2 ∧ post2 ≤ post1 ∧ post1 ≤ 7

/-- The target frequency `T = t / 2^PLL_FRAC` MHz, `t / 65536` with R9's 16 (R131). -/
def target (c : Params) (t : BitVec 32) : ℚ := (t.toNat : ℚ) / 2 ^ c.pllFrac

/-- `round(m * T / 25)` with a tie going up: `floor(x + 1/2)` (R132, R134). -/
def roundedFeedback (c : Params) (t : BitVec 32) (m : Nat) : Nat := ⌊(m : ℚ) * target c t / 25 + 1 / 2⌋₊

/-- The achieved frequency `25 * fb / m`, exact (R132). -/
def achieved (fb m : Nat) : ℚ := 25 * (fb : ℚ) / (m : ℚ)

/-- The difference `d = |T - f|` of a combination (R132). -/
def difference (c : Params) (t : BitVec 32) (m : Nat) : ℚ := |target c t - achieved (roundedFeedback c t m) m|

/-- A combination the search accepts: rounded divider in range, difference strictly below 1 MHz (R135). -/
def acceptable (c : Params) (t : BitVec 32) (refdiv post1 post2 : Nat) : Prop :=
  legalDividers refdiv post1 post2 ∧ 0xA0 ≤ roundedFeedback c t (refdiv * post1 * post2) ∧
    roundedFeedback c t (refdiv * post1 * post2) ≤ 0xEF ∧ difference c t (refdiv * post1 * post2) < 1

/-- The first combination does not come after the second in R135's iteration order: `refdiv` 2 before 1, then the larger
`post1`, then the larger `post2`. -/
def notAfter (r a b r' a' b' : Nat) : Prop := r' < r ∨ (r = r' ∧ (a' < a ∨ (a = a' ∧ b' ≤ b)))

/-- Run operations one after another, each to its next state. -/
def runOperations : List Instr → State → Option State
  | [], s => some s
  | i :: is, s =>
    match exec i s with
    | .next s' => runOperations is s'
    | .fault _ => none
    | .refused _ => none

/-- The state after a frame has been handed to `Tx` and answered. -/
def sentFrames (s : State) (Fs : List Bytes) (answersLeft : List Bool) : State :=
  { s with env := { s.env with txLog := s.env.txLog ++ Fs, txAns := answersLeft } }

/-- The registers after an `ENUMERATE` that counted `n` (R111). -/
def enumerated (e : Engine) (n : Nat) : Engine :=
  { e with
    chipCount := BitVec.ofNat 8 n
    initState := if n = 0 then .failed else .identityVerified
    failReason := if n = 0 then .noChips else e.failReason }

/-- The operations of port `S` alone (R51), with the wire rows of log 2. -/
def sendOnly (i : Instr) : Bool :=
  match i with
  | .encode _ _ _ | .jobpayload _ _ | .send _ _ | .enumerate _ _ _ _ | .assign _ | .solve _ _ | .setfreq _ _ | .submit _ _ _
  | .markValid _ _ | .initStep _ | .frameCommand _ _ _ _ | .frameJob _ _ _ _ | .header _ _ _ _ _ _ | .readid _ _
  | .setaddr _ _ _ | .pllwrite _ _ _ _ _ _ _ | .jobpayloadLayout _ _ | .idRecord _ _ _ _ => true
  | _ => false

/-- The operations of port `R` alone (R51), with the wire row of log 2. -/
def receiveOnly (i : Instr) : Bool :=
  match i with
  | .isValid _ _ | .take _ _ | .parse _ _ | .result _ | .resultRecord _ _ => true
  | _ => false

/-- The fields R63 extracts from a record, and the rolled version over a stored version. -/
def chipResult (B : Vector Byte 11) (stored : BitVec 32) : ChipResult :=
  { jobId := BitVec.ofNat 7 ((B[7].toNat / 16) * 8)
    coreId := BitVec.ofNat 7 (B[2].toNat / 2)
    smallCoreId := BitVec.ofNat 4 (B[7].toNat % 16)
    nonce := BitVec.ofNat 32 (B[2].toNat * 2 ^ 24 + B[3].toNat * 2 ^ 16 + B[4].toNat * 2 ^ 8 + B[5].toNat)
    nonceBytes := [B[2], B[3], B[4], B[5]]
    rolledVersion := stored ||| BitVec.ofNat 32 ((B[8].toNat * 256 + B[9].toNat) * 2 ^ 13) }

/-- The job identifier R63 extracts. -/
def recordJob (B : Vector Byte 11) : BitVec 7 := BitVec.ofNat 7 ((B[7].toNat / 16) * 8)

/-- `PARSE` of a record (R168, R169): rejected, empty slot, or the fields. -/
def parseAnswer (s : State) (B : Vector Byte 11) : Status × Results :=
  if (s.slot (recordJob B)).valid = false then (.rejected, .jobId (recordJob B))
  else if (s.slot (recordJob B)).occupied = false then (.slotEmpty, .jobId (recordJob B))
  else (.ok, .parsed (chipResult B (s.slot (recordJob B)).version))

/-- The response to one identification read matches `exp_id`: the two bytes from `ID_OFFSET`, that is bytes 2 and 3, big-endian
(R64, R113). -/
def matchesId (c : Params) (expId : BitVec 16) {n : Nat} (B : Vector Byte n) : Bool :=
  decide ((B.toList.getD c.idOffset 0).toNat * 256 + (B.toList.getD (c.idOffset + 1) 0).toNat = expId.toNat)

/-- The payload of a PLL register write that carries a solution (R61, R137). -/
def solutionPayload (c : Params) (r : PllResult) : Bytes :=
  [0x00, c.pllReg, BitVec.ofNat 8 (64 + 16 * r.hf.toNat), r.fb, r.refdiv.setWidth 8,
    BitVec.ofNat 8 (16 * (r.post1.toNat - 1) + (r.post2.toNat - 1))]

/-- The transport has no answer of `n` bytes, and no failure, for the next call of `Rx` (log 5, log 6). -/
def noRxAnswer (n : Nat) (rx : List RxAnswer) : Prop := rx = [] ∨ ∃ B rs, rx = .bytes B :: rs ∧ B.length ≠ n

/-- Each of the records `bs` is read while the count, `count` before them, is below `n`: the loop of `ENUMERATE` reads none after
the count is reached (R111, R114). -/
def readWhileShort (c : Params) (expId : BitVec 16) (n count : Nat) {k : Nat} (bs : List (Vector Byte k)) : Prop :=
  ∀ l B l', bs = l ++ B :: l' → count + l.countP (matchesId c expId) < n

/-- The state after `ENUMERATE` has counted `n` and ended (R111). -/
def enumerateEnded (s : State) (n : Nat) (ok : Bool) : State :=
  ({ s with eng := enumerated s.eng n } : State).answer .S (if n = 0 then .chainNotReady else .ok)
    (.enumerated (BitVec.ofNat 8 n) ok)

/-- An operation of port `S` in progress that calls no `Rx`: all but `ENUMERATE` (R44). -/
def callsNoRx (t : Task) : Bool :=
  match t with
  | .transmit _ _ (.enumerate _ _ _) | .txWait _ _ (.enumerate _ _ _) | .enumRead _ _ _ _ _ | .resultRead => false
  | _ => true

/-- Port `S` has one operation to do, in progress or presented, and it calls no `Rx`. -/
def oneSendOperation (s : State) : Prop :=
  (∃ t, s.portS.cur = some t ∧ callsNoRx t = true ∧ s.portS.cmd = []) ∨
    (s.portS.cur = none ∧ ∃ i, decodeCommandPort s.params .S s.portS.cmd = .ok (i, []) ∧
      ∀ n x l, i ≠ .enumerate .S n x l)

/-- The two states are the same to the operations of port `S` that call no `Rx`: registers, port `S`, histories, answers of
`Tx`. -/
def sameForSend (a b : State) : Prop :=
  a.eng = b.eng ∧ a.portS = b.portS ∧ a.env.txLog = b.env.txLog ∧ a.env.released = b.env.released ∧ a.env.txAns = b.env.txAns

/-- Port `S` takes one turn that nothing cuts. -/
def uncutSendTurn (s : State) : Host.Outcome State Fault Refusal := step { s with turn := .S, sched := [] }

/-- `w` is the state before one of the first `m` steps from `s`. -/
def seenBefore (m : Nat) (s w : State) : Prop := ∃ n, n < m ∧ Host.Core.run core n s = .next w

/-- What a `PARSE` of `B` may answer when its two reads of the slot table are of states in `seen` (R168, R169). -/
def parseSaw (seen : State → Prop) (B : Vector Byte 11) (x : Response) : Prop :=
  (∃ w, seen w ∧ (w.slot (recordJob B)).valid = false ∧ x = ⟨.rejected, .jobId (recordJob B)⟩) ∨
  ∃ w v, seen w ∧ seen v ∧ (w.slot (recordJob B)).valid = true ∧
    (((v.slot (recordJob B)).occupied = false ∧ x = ⟨.slotEmpty, .jobId (recordJob B)⟩) ∨
      ((v.slot (recordJob B)).occupied = true ∧ x = ⟨.ok, .parsed (chipResult B (v.slot (recordJob B)).version)⟩))

/-- What an operation of port `R` may answer when its reads are of states in `seen` (R154, R155, R168, R170, R200; `RESULT_RECORD`
is log 2, `TAKE`'s three reads are log 4, the index in its `SLOT_EMPTY` is log 15). -/
def receiveSaw (seen : State → Prop) (i : Instr) (x : Response) : Prop :=
  match i with
  | .isValid _ j => ∃ w, seen w ∧ x = ⟨.ok, .validity (w.slot j).valid⟩
  | .take _ j =>
    (∃ w, seen w ∧ (w.slot j).occupied = false ∧ x = ⟨.slotEmpty, .jobId j⟩) ∨
    ∃ w v u, seen w ∧ seen v ∧ seen u ∧ (w.slot j).occupied = true ∧ x = ⟨.ok, .taken (v.slot j).wu (u.slot j).version⟩
  | .parse _ B => parseSaw seen B x
  | .resultRecord _ r => parseSaw seen (recordBytes r) x
  | .result _ =>
    (∃ w l, seen w ∧ w.env.rxAns = .failure :: l ∧ x = ⟨.noResult, .empty⟩) ∨
    ∃ w l B, seen w ∧ w.env.rxAns = .bytes B.toList :: l ∧ parseSaw seen B x
  | _ => False

end Sys2Proof.Reference

open Sys2Proof Sys2Proof.Machine Sys2Proof.Reference

/-! ### The step, the decoder, reset -/

/-- What one step does, case by case (R42, R50, R230; the model's own form of it is log 3, 11, 12, 13): the reset event if it
is asked for between operations; else the port whose turn it is resumes its operation, or runs the operation its bytes
decode to, or has none, or its bytes are no operation. -/
def Obligations.StepRunsTheDecodedOperation : Prop :=
  ∀ s : State,
    (s.resetsNow = true → step s = .next s.resetEvent) ∧
    (s.resetsNow = false →
      (∀ t, (s.port s.nextTurn.turn).cur = some t → step s = .next (runOp s.nextTurn.turn t s.nextTurn)) ∧
      ((s.port s.nextTurn.turn).cur = none →
        (∀ i rest, decodeCommandPort s.params s.nextTurn.turn (s.port s.nextTurn.turn).cmd = .ok (i, rest) →
          step s = exec i (s.nextTurn.withCmd s.nextTurn.turn rest)) ∧
        (decodeCommandPort s.params s.nextTurn.turn (s.port s.nextTurn.turn).cmd = .error .incomplete → step s = .next s.nextTurn) ∧
        (∀ e, e ≠ .incomplete → decodeCommandPort s.params s.nextTurn.turn (s.port s.nextTurn.turn).cmd = .error e →
          step s = .refused (.undecodable e))))

/-- R230, R231: the reset event sets every register to its reset value and touches nothing else: neither port, nor the boundary
(nothing is sent, released or drained), nor turn and schedule, nor the configuration; the request is withdrawn. While an
operation is in progress it does not occur, asked for or not: the step is the turn of a port. -/
def Obligations.ResetEventSetsTheRegisters : Prop :=
  (∀ s : State, s.resetReq = true → s.portS.cur = none → s.portR.cur = none →
    ∃ t, step s = .next t ∧ t.eng.nextId = 0 ∧ (∀ j, (t.slot j).valid = false ∧ (t.slot j).occupied = false) ∧
      t.eng.lock = .free ∧ initStateCode t.eng.initState = 0 ∧ t.eng.chipCount = 0 ∧ failReasonCode t.eng.failReason = 0 ∧
      t = { s with eng := t.eng, resetReq := false }) ∧
  (∀ s : State, s.portS.cur ≠ none ∨ s.portR.cur ≠ none → step s = stepPort s.nextTurn.turn s.nextTurn)

/-- `decode` of `encode` is the identity on every operation well-formed for the parameters, whatever the parameters are and
whatever follows it (the byte form is the model's, log 1). -/
def Obligations.DecodeEncodeRoundTrip : Prop :=
  ∀ (c : Params) (i : Instr) (rest : Bytes), WellFormed c i →
    decodeCommandPort c i.port (encode c i ++ rest) = .ok (i, rest)

/-- A few operations written out byte by byte decode, with R9's parameters, to what they stand for (operation codes of R51,
frames of R65). -/
def Obligations.WrittenOutWordsDecode : Prop :=
  decodeCommandPort Params.default .S [0x00, 0x01, 0x52, 0x01, 0x05, 0x00] = .ok (.crc5 .S [0x52, 0x05], []) ∧
  decodeCommandPort Params.default .S [0x06, 0x04, 0x13, 0x66, 0x0B] = .ok (.enumerate .S 4 0x1366 11, []) ∧
  decodeCommandPort Params.default .R [0x0D, 0x18] = .ok (.take .R 24, []) ∧
  decodeCommandPort Params.default .S [0x55, 0xAA, 0x40, 0x05, 0x55, 0x00, 0x0A] = .ok (.setaddr .S 0x55 0x0A, []) ∧
  decodeTableWord 8 0x10 = some (.initStep .S) ∧ decodeTableWord 8 0x0F = some (.result .R)

/-! ### The checksums (R80 to R86) -/

/-- R82, R85: `CRC5` and `CRC16` complete on either port for every byte string with the checksum of it, and change nothing
else; of the empty string it is the initial value, `0x1F` and `0xFFFF` with R9's parameters. -/
def Obligations.CrcOperationsAnswerTheChecksum : Prop :=
  (∀ (p : Port) (B : Bytes) (s : State),
    exec (.crc5 p B) s = .next (s.answer p .ok (.crc5 (crc5 s.params B))) ∧
    exec (.crc16 p B) s = .next (s.answer p .ok (.crc16 (crc16 s.params B)))) ∧
  (∀ c : Params, crc5 c [] = c.crc5Init ∧ crc16 c [] = c.crc16Init) ∧
  crc5 Params.default [] = 0x1F ∧ crc16 Params.default [] = 0xFFFF

/-- R81's flip-flop form, which the spec derives for the generator x^5 + x^2 + 1 and the initial value `0x1F`, computes the
same `crc5`. -/
def Obligations.Crc5IsTheFlipFlopForm : Prop :=
  ∀ B : Bytes, (crc5 Params.default B).toNat = flopValue ((inputBits B).foldl flopStep (true, true, true, true, true))

/-- R84's bit-serial form, which the spec derives, computes the same `crc16`, for every generator and initial value. -/
def Obligations.Crc16IsTheBitSerialForm : Prop :=
  ∀ (c : Params) (B : Bytes), crc16 c B = (inputBits B).foldl (serial16 c.crc16Poly) c.crc16Init

/-- R83 (ii), which the spec derives: flipping any one bit of any byte string changes its `crc5`, for every generator
with constant term 1, whatever the initial value. -/
def Obligations.Crc5ChangesOnEveryBitFlip : Prop :=
  ∀ (c : Params) (A C : Bytes) (b : Byte) (k : Nat), c.crc5Poly.getLsbD 0 = true → k < 8 →
    crc5 c (A ++ (b ^^^ BitVec.twoPow 8 k) :: C) ≠ crc5 c (A ++ b :: C)

/-- R86 (ii), which the spec derives: flipping any one bit of any byte string changes its `crc16`, for every generator
with constant term 1, whatever the initial value. -/
def Obligations.Crc16ChangesOnEveryBitFlip : Prop :=
  ∀ (c : Params) (A C : Bytes) (b : Byte) (k : Nat), c.crc16Poly.getLsbD 0 = true → k < 8 →
    crc16 c (A ++ (b ^^^ BitVec.twoPow 8 k) :: C) ≠ crc16 c (A ++ b :: C)

/-- R86 (iii), which the spec derives: appending the checksum big-endian gives residue zero, for every generator and initial
value. -/
def Obligations.Crc16ResidueIsZero : Prop :=
  ∀ (c : Params) (B : Bytes), crc16 c (B ++ [(crc16 c B).extractLsb' 8 8, (crc16 c B).extractLsb' 0 8]) = 0

/-! ### The frame unit (R91 to R100) -/

/-- R92: `ENCODE` completes with the frame of the shape the header's job flag selects, byte by byte, or refuses a payload whose
length plus the shape's offset does not fit the length byte (`DefaultParametersAreR9s` has R92's own numbers). -/
def Obligations.EncodeBuildsTheFrame : Prop :=
  ∀ (h : Byte) (P : Bytes) (s : State),
    (h &&& s.params.hdrJobFlag ≠ 0 → P.length + s.params.lenOffJob ≤ 255 →
      exec (.encode .S h P) s = .next (s.answer .S .ok (.bytes
        ([0x55, 0xAA, h, BitVec.ofNat 8 (P.length + s.params.lenOffJob)] ++ P ++
          [(crc16 s.params ([h, BitVec.ofNat 8 (P.length + s.params.lenOffJob)] ++ P)).extractLsb' 8 8,
           (crc16 s.params ([h, BitVec.ofNat 8 (P.length + s.params.lenOffJob)] ++ P)).extractLsb' 0 8])))) ∧
    (h &&& s.params.hdrJobFlag = 0 → P.length + s.params.lenOffCmd ≤ 255 →
      exec (.encode .S h P) s = .next (s.answer .S .ok (.bytes
        ([0x55, 0xAA, h, BitVec.ofNat 8 (P.length + s.params.lenOffCmd)] ++ P ++
          [(crc5 s.params ([h, BitVec.ofNat 8 (P.length + s.params.lenOffCmd)] ++ P)).setWidth 8])))) ∧
    (h &&& s.params.hdrJobFlag ≠ 0 → 255 < P.length + s.params.lenOffJob →
      exec (.encode .S h P) s = .next (s.answer .S .refusedOperand .empty)) ∧
    (h &&& s.params.hdrJobFlag = 0 → 255 < P.length + s.params.lenOffCmd →
      exec (.encode .S h P) s = .next (s.answer .S .refusedOperand .empty)) ∧
    (s.params = Params.default → exec (.encode .S h P) s = .next (match encodeR92 h P with
      | some F => s.answer .S .ok (.bytes F)
      | none => s.answer .S .refusedOperand .empty))

/-- R95, R96: `DECODE` completes on either port for every byte string; preamble, then length, then checksum, and the first
failure is reported; a whole frame gives its header and payload. The length byte must be the payload's byte count plus the
shape's offset, which with R9's offsets is the byte count minus 2: so the last clause. -/
def Obligations.DecodeReportsTheFirstFailure : Prop :=
  ∀ (p : Port) (B : Bytes) (s : State),
    (B.take 2 ≠ [0x55, 0xAA] → exec (.decode p B) s = .next (s.answer p .framePreamble .empty)) ∧
    (B.take 2 = [0x55, 0xAA] → B.length < 4 → exec (.decode p B) s = .next (s.answer p .frameLength .empty)) ∧
    (∀ (h len : Byte) (rest : Bytes), B = [0x55, 0xAA, h, len] ++ rest →
      (h &&& s.params.hdrJobFlag ≠ 0 → rest.length < 2 ∨ len.toNat ≠ rest.length - 2 + s.params.lenOffJob →
        exec (.decode p B) s = .next (s.answer p .frameLength .empty)) ∧
      (h &&& s.params.hdrJobFlag = 0 → rest.length < 1 ∨ len.toNat ≠ rest.length - 1 + s.params.lenOffCmd →
        exec (.decode p B) s = .next (s.answer p .frameLength .empty)) ∧
      (h &&& s.params.hdrJobFlag ≠ 0 → ∀ (P : Bytes) (hi lo : Byte), rest = P ++ [hi, lo] →
        len.toNat = P.length + s.params.lenOffJob →
        (hi ++ lo ≠ crc16 s.params ([h, len] ++ P) → exec (.decode p B) s = .next (s.answer p .frameChecksum .empty)) ∧
        (hi ++ lo = crc16 s.params ([h, len] ++ P) → exec (.decode p B) s = .next (s.answer p .ok (.decoded h P)))) ∧
      (h &&& s.params.hdrJobFlag = 0 → ∀ (P : Bytes) (k : Byte), rest = P ++ [k] →
        len.toNat = P.length + s.params.lenOffCmd →
        (k ≠ (crc5 s.params ([h, len] ++ P)).setWidth 8 → exec (.decode p B) s = .next (s.answer p .frameChecksum .empty)) ∧
        (k = (crc5 s.params ([h, len] ++ P)).setWidth 8 → exec (.decode p B) s = .next (s.answer p .ok (.decoded h P)))) ∧
      (s.params = Params.default → len.toNat ≠ B.length - 2 → exec (.decode p B) s = .next (s.answer p .frameLength .empty)))

/-- R94: decoding what `ENCODE` answered recovers header and payload, for both shapes and every payload it accepts, whatever the
parameters, so long as both have the same. -/
def Obligations.FramingRoundTrip : Prop :=
  ∀ (h : Byte) (P : Bytes) (s : State),
    P.length + (if h &&& s.params.hdrJobFlag ≠ 0 then s.params.lenOffJob else s.params.lenOffCmd) ≤ 255 →
    ∃ F, exec (.encode .S h P) s = .next (s.answer .S .ok (.bytes F)) ∧
      ∀ (p : Port) (t : State), t.params = s.params → exec (.decode p F) t = .next (t.answer p .ok (.decoded h P))

/-- R58, R95: the only byte string `DECODE` accepts with header `h` and payload `P` is the one `ENCODE` builds. -/
def Obligations.DecodeAcceptsOnlyEncodedFrames : Prop :=
  ∀ (p : Port) (B : Bytes) (s : State) (h : Byte) (P : Bytes),
    exec (.decode p B) s = .next (s.answer p .ok (.decoded h P)) →
    exec (.encode .S h P) s = .next (s.answer .S .ok (.bytes B))

/-- R98: `JOBPAYLOAD` completes with 82 bytes, each field at its offset (R60), big-endian, none examined. -/
def Obligations.JobPayloadFieldsStandAtTheirOffsets : Prop :=
  ∀ (f : JobFields) (s : State), ∃ P : Bytes,
    exec (.jobpayload .S f) s = .next (s.answer .S .ok (.bytes P)) ∧
    P.length = 82 ∧ P.getD 0 0 = f.jobId ∧ P.getD 1 0 = f.numMidstates ∧
    (∀ k < 4, P.getD (2 + k) 0 = f.startingNonce.extractLsb' (24 - 8 * k) 8 ∧
      P.getD (6 + k) 0 = f.nbits.extractLsb' (24 - 8 * k) 8 ∧ P.getD (10 + k) 0 = f.ntime.extractLsb' (24 - 8 * k) 8 ∧
      P.getD (78 + k) 0 = f.version.extractLsb' (24 - 8 * k) 8) ∧
    (P.drop 14).take 32 = f.merkleRoot.toList ∧ (P.drop 46).take 32 = f.prevBlockHash.toList

/-- The `JOBPAYLOAD_LAYOUT` row completes with the 82 bytes `JOBPAYLOAD` answers for the same fields, and `ENCODE` with a job
header makes an 88-byte job frame of them, of length byte `0x56` with R9's offset (R60; that the row is assembled and answered
is the model's choice, log 2). -/
def Obligations.JobPayloadLayoutRowIsAssembled : Prop :=
  ∀ (f : JobFields) (s : State), ∃ P : Bytes,
    exec (.jobpayloadLayout .S f) s = .next (s.answer .S .ok (.bytes P)) ∧
    exec (.jobpayload .S f) s = .next (s.answer .S .ok (.bytes P)) ∧
    ∀ h : Byte, h &&& s.params.hdrJobFlag ≠ 0 → 82 + s.params.lenOffJob ≤ 255 →
      ∃ F : Bytes, exec (.encode .S h P) s = .next (s.answer .S .ok (.bytes F)) ∧ F.length = 88 ∧
        (F.getD 3 0).toNat = 82 + s.params.lenOffJob ∧ (F.drop 4).take 82 = P

/-- R100: `SEND` completes when the transport answers: the bytes join the `Tx` history as given and the answer is `tx_ok`. -/
def Obligations.SendHandsItsBytesToTheTransport : Prop :=
  ∀ (F : Bytes) (s : State) (a : Bool) (as : List Bool), s.sched = [] → s.env.txAns = a :: as →
    exec (.send .S F) s = .next ((sentFrames s [F] as).answer .S .ok (.sent a))

/-- U3, R101: while the transport has not answered, `SEND` has handed its bytes over and waits, and so does every operation of
port `S` that has handed a frame over, under every schedule: nothing is answered, and the port takes no other operation (log 5).
This says where an operation waits; `AnsweredOperationsGoOn` says how it goes on. -/
def Obligations.SendWaitsForTheTransport : Prop :=
  (∀ (F : Bytes) (s : State), s.sched = [] → s.env.txAns = [] →
    exec (.send .S F) s = .next ((sentFrames s [F] []).suspend .S (.txWait [] true .send))) ∧
  ∀ (t : State) (left : List Bytes) (ok : Bool) (k : AfterTx), t.nextTurn.turn = .S → t.env.txAns = [] →
    t.portS.cur = some (.txWait left ok k) → step t = .next t.nextTurn

/-- The frame rows presented on port `S` are handed to `Tx` as given and answer `tx_ok` (the model's choice, log 2, after
R100). -/
def Obligations.WireFramesAreSentAsGiven : Prop :=
  ∀ (s : State) (a : Bool) (as : List Bool), s.sched = [] → s.env.txAns = a :: as →
    (∀ h len rest, exec (.frameCommand .S h len rest) s =
      .next ((sentFrames s [[0x55, 0xAA, h, len] ++ rest] as).answer .S .ok (.sent a))) ∧
    (∀ h len rest, exec (.frameJob .S h len rest) s =
      .next ((sentFrames s [[0x55, 0xAA, h, len] ++ rest] as).answer .S .ok (.sent a))) ∧
    (∀ k, exec (.readid .S k) s = .next ((sentFrames s
      [[0x55, 0xAA, s.params.hdrReadid, BitVec.ofNat 8 (s.params.readidPayload.length + s.params.lenOffCmd)] ++
        s.params.readidPayload ++ [k]] as).answer .S .ok (.sent a))) ∧
    (∀ x k, exec (.setaddr .S x k) s = .next ((sentFrames s
      [[0x55, 0xAA, s.params.hdrSetaddr, BitVec.ofNat 8 (2 + s.params.lenOffCmd), x, 0x00, k]] as).answer .S .ok (.sent a))) ∧
    (∀ (hf : Bool) (fb : Byte) (rd : BitVec 2) (p1 p2 : BitVec 3) (k : Byte), exec (.pllwrite .S hf fb rd p1 p2 k) s =
      .next ((sentFrames s [[0x55, 0xAA, s.params.hdrWriteAll, BitVec.ofNat 8 (6 + s.params.lenOffCmd), 0x00, s.params.pllReg,
        if hf then 0x50 else 0x40, fb, BitVec.ofNat 8 rd.toNat, BitVec.ofNat 8 (16 * p1.toNat + p2.toNat), k]] as).answer .S .ok
        (.sent a)))

/-- R53, R65, R67: a well-formed frame row is exactly what `ENCODE` builds from its header and payload, whatever the parameters,
so presenting it is the pseudo-operation of R67 (the row's meaning is log 2). -/
def Obligations.WellFormedFrameRowsAreEncoded : Prop :=
  ∀ c : Params,
  (∀ p h len rest, WellFormed c (.frameCommand p h len rest) →
    ∃ P, encodeFrame c h P = some ([0x55, 0xAA, h, len] ++ rest)) ∧
  (∀ p h len rest, WellFormed c (.frameJob p h len rest) →
    ∃ P, encodeFrame c h P = some ([0x55, 0xAA, h, len] ++ rest)) ∧
  (∀ p k, WellFormed c (.readid p k) →
    encodeFrame c c.hdrReadid c.readidPayload = some (encode c (.readid p k)) ∧
    (c = Params.default → encode c (.readid p k) = [0x55, 0xAA, 0x52, 0x05, 0x00, 0x00, 0x0A])) ∧
  (∀ p x k, WellFormed c (.setaddr p x k) → encodeFrame c c.hdrSetaddr [x, 0x00] = some (encode c (.setaddr p x k))) ∧
  (∀ p hf fb rd p1 p2 k, WellFormed c (.pllwrite p hf fb rd p1 p2 k) →
    encodeFrame c c.hdrWriteAll
        [0x00, c.pllReg, if hf then 0x50 else 0x40, fb, rd.setWidth 8, (p1.setWidth 8 <<< 4) ||| p2.setWidth 8] =
      some (encode c (.pllwrite p hf fb rd p1 p2 k)) ∧ (hf = true ↔ 25 * fb.toNat ≥ 2400 * rd.toNat))

/-- The `HEADER` row answers the byte of its fields, each flag the bits R9 gives it (R55's positions with R9's values), and
whether it selects the job shape; the `ID_RECORD` row the identifier its record has at `ID_OFFSET` (R64), or a refusal of a
record too short for one (R112); nothing else changes (that these rows answer so is the model's choice, log 2). -/
def Obligations.HeaderAndIdRecordRowsAnswer : Prop :=
  ∀ s : State,
    (∀ (t m j g : Bool) (k : BitVec 4), ∃ h : Byte,
      exec (.header .S t m j g k) s = .next (s.answer .S .ok (.headerByte h (decide (h &&& s.params.hdrJobFlag ≠ 0)))) ∧
      h = ((if t then 0x80 else 0) ||| (if m then s.params.hdrCmdFlag else 0) ||| (if j then s.params.hdrJobFlag else 0) |||
        (if g then s.params.hdrGroupAll else 0) ||| k.setWidth 8) ∧
      (s.params = Params.default → h.toNat = 128 * t.toNat + 64 * m.toNat + 32 * j.toNat + 16 * g.toNat + k.toNat ∧
        (h &&& s.params.hdrJobFlag ≠ 0 ↔ j = true))) ∧
    (∀ (a i : BitVec 16) (rest : Bytes),
      (s.params.idOffset = 2 → exec (.idRecord .S a i rest) s = .next (s.answer .S .ok (.chipId i))) ∧
      (s.params.idOffset + 2 ≤ rest.length + 4 → ∃ x y : Byte,
        (a.extractLsb' 8 8 :: a.extractLsb' 0 8 :: i.extractLsb' 8 8 :: i.extractLsb' 0 8 :: rest)[s.params.idOffset]? = some x ∧
        (a.extractLsb' 8 8 :: a.extractLsb' 0 8 :: i.extractLsb' 8 8 :: i.extractLsb' 0 8 :: rest)[s.params.idOffset + 1]? = some y ∧
        exec (.idRecord .S a i rest) s = .next (s.answer .S .ok (.chipId (x ++ y)))) ∧
      (rest.length + 4 < s.params.idOffset + 2 →
        exec (.idRecord .S a i rest) s = .next (s.answer .S .refusedOperand .empty)))

/-! ### The enumeration unit (R110 to R119) -/

/-- R111: `ENUMERATE` completes with the count of matching responses, reading until the count is reached or `Rx` fails, and
writes `CHIP_COUNT`, `INIT_STATE` and, on count 0, `FAIL_REASON`. `bs` are the records read; either a failure follows them
while the count is short, or the last of them brings the count to `exp_count`. `F` is the identification read frame, `55 AA 52 05
00 00 0A` with R9's parameters. Before anything is sent it is refused out of sequence, then for an `exp_len` without room for the
identifier (less than 4), then where `encode` refuses the frame, which it does not with R9's parameters (R111 names no such
refusal: this clause is the model's inference, log 24). -/
def Obligations.EnumerateCountsMatchingResponses : Prop :=
  (∀ (expCount : BitVec 8) (expId : BitVec 16) (expLen : BitVec 8) (s : State),
    (s.eng.initState ≠ .versionMaskSet →
      exec (.enumerate .S expCount expId expLen) s = .next (s.answer .S .refusedSequence (.initState s.eng.initState))) ∧
    (s.eng.initState = .versionMaskSet → expLen.toNat < s.params.idOffset + 2 →
      exec (.enumerate .S expCount expId expLen) s = .next (s.answer .S .refusedOperand .empty)) ∧
    (s.eng.initState = .versionMaskSet → encodeFrame s.params s.params.hdrReadid s.params.readidPayload = none →
      exec (.enumerate .S expCount expId expLen) s = .next (s.answer .S .refusedOperand .empty))) ∧
  (∀ (expCount : BitVec 8) (expId : BitVec 16) (expLen : BitVec 8) (s : State) (F : Bytes) (a : Bool) (as : List Bool)
    (bs : List (Vector Byte expLen.toNat)) (rs left : List RxAnswer),
    s.sched = [] → s.eng.initState = .versionMaskSet → s.params.idOffset + 2 ≤ expLen.toNat →
    encodeFrame s.params s.params.hdrReadid s.params.readidPayload = some F → s.env.txAns = a :: as →
    s.env.rxAns = bs.map (fun B => .bytes B.toList) ++ rs →
    ((bs.countP (matchesId s.params expId) < expCount.toNat ∧ rs = .failure :: left) ∨
      (bs.countP (matchesId s.params expId) = expCount.toNat ∧ rs = left ∧
        ∀ (l : List (Vector Byte expLen.toNat)) B, bs = l ++ [B] → matchesId s.params expId B = true)) →
    exec (.enumerate .S expCount expId expLen) s = .next
      (({ s with
          eng := enumerated s.eng (bs.countP (matchesId s.params expId))
          env := { s.env with txAns := as, rxAns := left, txLog := s.env.txLog ++ [F] } } : State).answer .S
        (if bs.countP (matchesId s.params expId) = 0 then .chainNotReady else .ok)
        (.enumerated (BitVec.ofNat 8 (bs.countP (matchesId s.params expId))) a))) ∧
  encodeFrame Params.default Params.default.hdrReadid Params.default.readidPayload =
    some [0x55, 0xAA, 0x52, 0x05, 0x00, 0x00, 0x0A] ∧ Params.default.idOffset + 2 = 4

/-- R116: `ASSIGN` completes: one set-address frame per chip in ascending index, address `i * (256 / n)`; `tx_ok` is the AND of
the answers; `INIT_STATE` moves on the first run only. Before enumeration or after its failure it is refused. `fs` are the frames
`encode(0x40, [a, 00])`, which with R9's parameters `encode` never refuses; where it refuses them, `ASSIGN` sends nothing and ends
with `REFUSED_OPERAND` (R116 names no such refusal: this clause is the model's inference, log 24). -/
def Obligations.AssignSendsOneFramePerChip : Prop :=
  (∀ (s : State) (fs : List Bytes) (as left : List Bool), s.sched = [] →
    s.eng.initState ≠ .poweredOn → s.eng.initState ≠ .versionMaskSet → s.eng.initState ≠ .failed →
    ((List.range s.eng.chipCount.toNat).map fun i =>
      encodeFrame s.params s.params.hdrSetaddr [BitVec.ofNat 8 (i * (256 / s.eng.chipCount.toNat)), 0x00]) = fs.map some →
    as.length = fs.length → s.env.txAns = as ++ left →
    exec (.assign .S) s = .next
      ((sentFrames { s with eng := { s.eng with
            initState := if s.eng.initState = .identityVerified then .chipsAddressed else s.eng.initState } } fs left).answer
        .S .ok (.assigned s.eng.chipCount (as.all id)))) ∧
  (∀ s : State, s.eng.initState ≠ .poweredOn → s.eng.initState ≠ .versionMaskSet → s.eng.initState ≠ .failed →
    s.eng.chipCount ≠ 0 → (∀ x, encodeFrame s.params s.params.hdrSetaddr [x, 0x00] = none) →
    exec (.assign .S) s = .next (s.answer .S .refusedOperand .empty)) ∧
  (∀ s : State, s.eng.initState = .poweredOn ∨ s.eng.initState = .versionMaskSet ∨ s.eng.initState = .failed →
    exec (.assign .S) s = .next (s.answer .S .refusedSequence (.initState s.eng.initState))) ∧
  ∀ x : Byte, encodeFrame Params.default Params.default.hdrSetaddr [x, 0x00] =
    some [0x55, 0xAA, 0x40, 0x05, x, 0x00, (crc5 Params.default [0x40, 0x05, x, 0x00]).setWidth 8]

/-- R117 (i) to (iii), which the spec derives: the addresses of `n` chips are strictly increasing, so distinct, and the last is
at most 255. -/
def Obligations.ChipAddressesAscend : Prop :=
  ∀ n : Nat, 1 ≤ n → n ≤ 255 →
    (∀ i k, i < k → k < n → (chipAddress i n).toNat < (chipAddress k n).toNat) ∧
    (∀ i, i < n → (chipAddress i n).toNat = i * (256 / n)) ∧ chipAddress 0 n = 0

/-! ### The PLL unit (R130 to R139) -/

/-- R132, R134, R135, R136 over exact rationals: `SOLVE` completes for every target. If no combination is acceptable it answers
`NOT_FOUND`; else the acceptable combination of least difference, and among equals the first in iteration order, with the
achieved frequency as `25 * fb / m` unreduced and the high-frequency bit. -/
def Obligations.SolveFindsTheFirstClosest : Prop :=
  ∀ (t : BitVec 32) (s : State),
    ((∀ r a b, ¬ acceptable s.params t r a b) → exec (.solve .S t) s = .next (s.answer .S .notFound .empty)) ∧
    (∀ r a b, acceptable s.params t r a b →
      (∀ r' a' b', acceptable s.params t r' a' b' → difference s.params t (r * a * b) < difference s.params t (r' * a' * b') ∨
        (difference s.params t (r * a * b) = difference s.params t (r' * a' * b') ∧ notAfter r a b r' a' b')) →
      exec (.solve .S t) s = .next (s.answer .S .ok (.solved
        { fb := BitVec.ofNat 8 (roundedFeedback s.params t (r * a * b))
          refdiv := BitVec.ofNat 2 r
          post1 := BitVec.ofNat 3 a
          post2 := BitVec.ofNat 3 b
          hf := decide (25 * roundedFeedback s.params t (r * a * b) ≥ 2400 * r)
          fNum := 25 * roundedFeedback s.params t (r * a * b)
          fDen := r * a * b })))

/-- R139, which the spec derives: every target at or below 3902/98 MHz (that is 4000/98 - 1) and every target of 5976 MHz or
more is `NOT_FOUND`, and an unanswered search changes nothing. -/
def Obligations.TargetsOutOfReachAreNotFound : Prop :=
  ∀ (t : BitVec 32) (s : State), target s.params t ≤ 3902 / 98 ∨ 5976 ≤ target s.params t →
    exec (.solve .S t) s = .next (s.answer .S .notFound .empty) ∧
    exec (.setfreq .S t) s = .next (s.answer .S .notFound .empty)

/-- R137, R138: `SETFREQ` completes with what `SOLVE` answers: on a solution it sends exactly one broadcast register write
carrying it, and answers it with `tx_ok`; on `NOT_FOUND` it sends nothing. `F` is the frame `encode(0x51, payload)`, which with
R9's parameters `encode` never refuses; where it does, `SETFREQ` sends nothing and ends with `REFUSED_OPERAND` (R138 names no such
refusal: this clause is the model's inference, log 24). -/
def Obligations.SetfreqSendsTheSolution : Prop :=
  (∀ (t : BitVec 32) (s : State) (a : Bool) (as : List Bool), s.sched = [] → s.env.txAns = a :: as →
    (exec (.solve .S t) s = .next (s.answer .S .notFound .empty) ∧
      exec (.setfreq .S t) s = .next (s.answer .S .notFound .empty)) ∨
    (∃ r : PllResult, exec (.solve .S t) s = .next (s.answer .S .ok (.solved r)) ∧
      (∀ F, encodeFrame s.params s.params.hdrWriteAll (solutionPayload s.params r) = some F →
        exec (.setfreq .S t) s = .next ((sentFrames s [F] as).answer .S .ok (.frequencySet r a))) ∧
      (encodeFrame s.params s.params.hdrWriteAll (solutionPayload s.params r) = none →
        exec (.setfreq .S t) s = .next (s.answer .S .refusedOperand .empty)))) ∧
  ∀ r : PllResult, encodeFrame Params.default Params.default.hdrWriteAll (solutionPayload Params.default r) =
    some ([0x55, 0xAA, 0x51, 0x09] ++ solutionPayload Params.default r ++
      [(crc5 Params.default ([0x51, 0x09] ++ solutionPayload Params.default r)).setWidth 8])

/-! ### The job slot table (R150 to R159) -/

/-- R151: `SUBMIT` completes: the identifier is `NEXT_ID`, which advances by 24 modulo 128; the handle of an occupied slot is
released; the slot holds the new handle of `WU_W` bits and the version, occupied and valid; every other slot and register is as
before. In which order this happens is `ScheduleCutsSubmitBetweenMicroSteps`. -/
def Obligations.SubmitInstallsTheWorkUnit : Prop :=
  ∀ (wu : Handle) (version : BitVec 32) (s : State), s.sched = [] → s.eng.lock = .free →
    ∃ t : State, exec (.submit .S wu version) s = .next t ∧
      t.eng.nextId.toNat = (s.eng.nextId.toNat + 24) % 128 ∧
      t.slot s.eng.nextId = { valid := true, occupied := true, wu := wu % 2 ^ s.params.wuW, version := version } ∧
      (∀ j, j ≠ s.eng.nextId → t.slot j = s.slot j) ∧
      t.env = { s.env with released := s.env.released ++
        (if (s.slot s.eng.nextId).occupied then [(s.slot s.eng.nextId).wu] else []) } ∧
      t.portS = { s.portS with
        cur := none
        rsp := s.portS.rsp ++ [⟨.ok, .submitted s.eng.nextId
          (if (s.slot s.eng.nextId).occupied then some (s.slot s.eng.nextId).wu else none)⟩] } ∧
      t = { s with
        eng := { s.eng with nextId := t.eng.nextId, slots := t.eng.slots }
        env := t.env
        portS := t.portS }

/-- R156: from `NEXT_ID` = 0 the identifiers are 0, 24, 48, …: the `k`-th is `24 * k` modulo 128, and `NEXT_ID` stands ready
with the next. -/
def Obligations.IdentifierSequence : Prop :=
  ∀ (ws : List (Handle × BitVec 32)) (s : State), s.sched = [] → s.eng.lock = .free → s.eng.nextId = 0 →
    ∃ t : State, runOperations (ws.map fun w => .submit .S w.1 w.2) s = some t ∧
      t.eng.nextId.toNat = 24 * ws.length % 128 ∧
      ∃ rs : List (Option Handle), rs.length = ws.length ∧
        t.portS.rsp = s.portS.rsp ++ rs.mapIdx fun k r => ⟨.ok, .submitted (BitVec.ofNat 7 (24 * k)) r⟩

/-- R152, R156: starting from an empty table and `NEXT_ID` = 0, each `SUBMIT` after the sixteenth releases the handle submitted
sixteen before it, so the `Release` history is the handles in order of submission, all but the last sixteen. -/
def Obligations.HandlesAreReleasedInOrder : Prop :=
  ∀ (ws : List (Handle × BitVec 32)) (s : State), s.sched = [] → s.eng.lock = .free → s.eng.nextId = 0 →
    (∀ j, (s.slot j).occupied = false) →
    ∃ t : State, runOperations (ws.map fun w => .submit .S w.1 w.2) s = some t ∧
      t.env.released = s.env.released ++ (ws.take (ws.length - 16)).map fun w => w.1 % 2 ^ s.params.wuW

/-- R153: `MARK_VALID j` completes on port `S` for every `j`, occupied or not, and sets that flag alone; on a flag already set
it changes nothing; port `R` refuses it. -/
def Obligations.MarkValidSetsItsFlag : Prop :=
  ∀ (j : BitVec 7) (s : State),
    (s.eng.lock = .free → ∃ t : State, exec (.markValid .S j) s = .next (t.answer .S .ok .empty) ∧
      t.slot j = { s.slot j with valid := true } ∧ (∀ k, k ≠ j → t.slot k = s.slot k) ∧
      t = { s with eng := { s.eng with slots := t.eng.slots } } ∧ ((s.slot j).valid = true → t = s)) ∧
    exec (.markValid .R j) s = .next (s.answer .R .refusedOpcode .empty)

/-- R154: `IS_VALID j` completes on port `R` with the flag and changes nothing; after reset every flag is 0; port `S` refuses
it. -/
def Obligations.IsValidReadsTheFlag : Prop :=
  ∀ (j : BitVec 7) (s : State),
    (s.eng.lock = .free → exec (.isValid .R j) s = .next (s.answer .R .ok (.validity (s.slot j).valid))) ∧
    exec (.isValid .R j) State.reset = .next (State.reset.answer .R .ok (.validity false)) ∧
    exec (.isValid .S j) s = .next (s.answer .S .refusedOpcode .empty)

/-- R155: `TAKE j` completes with the handle and version of an occupied slot, valid or not, and leaves the slot as it was; on a
slot never submitted to it ends with `SLOT_EMPTY`; port `S` refuses it. -/
def Obligations.TakeReadsTheSlot : Prop :=
  ∀ (j : BitVec 7) (s : State),
    (s.sched = [] → (s.slot j).occupied = true →
      exec (.take .R j) s = .next (s.answer .R .ok (.taken (s.slot j).wu (s.slot j).version))) ∧
    ((s.slot j).occupied = false → ∃ r, exec (.take .R j) s = .next (s.answer .R .slotEmpty r)) ∧
    exec (.take .S j) s = .next (s.answer .S .refusedOpcode .empty)

/-! ### The result parser (R165 to R173) -/

/-- R166, R63: `PARSE` completes for every record: rejected on a flag that is 0, `SLOT_EMPTY` on a slot never submitted to, else
the six fields; nothing else changes. -/
def Obligations.ParseExtractsTheFields : Prop :=
  ∀ (B : Vector Byte 11) (s : State), s.sched = [] → s.eng.lock = .free →
    exec (.parse .R B) s = .next (s.answer .R (parseAnswer s B).1 (parseAnswer s B).2)

/-- R170: `RESULT` completes: one record of 11 bytes is consumed from the transport and parsed as `PARSE` does; on failure it
answers `NO_RESULT`. -/
def Obligations.ResultReadsOneRecord : Prop :=
  ∀ (s : State) (rs : List RxAnswer), s.sched = [] → s.eng.lock = .free →
    (∀ B : Vector Byte 11, s.env.rxAns = .bytes B.toList :: rs →
      exec (.result .R) s =
        .next (({ s with env := { s.env with rxAns := rs } } : State).answer .R (parseAnswer s B).1 (parseAnswer s B).2)) ∧
    (s.env.rxAns = .failure :: rs →
      exec (.result .R) s = .next (({ s with env := { s.env with rxAns := rs } } : State).answer .R .noResult .empty))

/-- The `RESULT_RECORD` row completes with what the parser reads from its fields (R62, R63; that the row is read so is the
model's choice, log 2). -/
def Obligations.ResultRecordRowIsParsed : Prop :=
  ∀ (r : RecordFields) (s : State), s.sched = [] → s.eng.lock = .free →
    ∃ B : Vector Byte 11, exec (.resultRecord .R r) s = .next (s.answer .R (parseAnswer s B).1 (parseAnswer s B).2) ∧
      (chipResult B 0).nonce = r.nonce ∧ B[6] = r.midstateNum ∧ B[7] = r.replyId ∧ B[8] ++ B[9] = r.version ∧
      B[0] ++ B[1] = r.preamble ∧ B[10] = r.crc

/-- R167 (v), R171, which the spec derives: two records that differ only in bytes 0, 1, 6 and 10 parse alike. -/
def Obligations.UnexaminedRecordBytesDoNotMatter : Prop :=
  ∀ (A B : Vector Byte 11) (s : State), s.sched = [] → s.eng.lock = .free →
    A[2] = B[2] → A[3] = B[3] → A[4] = B[4] → A[5] = B[5] → A[7] = B[7] → A[8] = B[8] → A[9] = B[9] →
    exec (.parse .R A) s = exec (.parse .R B) s

/-- R167 (iii): the rolled version keeps bits 31:29 and 12:0 of the stored version, and bit `13 + k` is the OR of the stored
bit and bit `k` of the chip's field. -/
def Obligations.RolledVersionIsAnOr : Prop :=
  ∀ (stored : BitVec 32) (v : BitVec 16) (k : Nat),
    (k < 13 ∨ 29 ≤ k → (rolledVersion stored v).getLsbD k = stored.getLsbD k) ∧
    (k < 16 → (rolledVersion stored v).getLsbD (13 + k) = (stored.getLsbD (13 + k) || v.getLsbD k))

/-! ### The init sequencer (R180 to R185) -/

/-- R181: `INIT_STEP` completes from each of its five states: the frames of `INIT_SEQ` for that state and `CHIP_COUNT` are sent in
list order, `tx_ok` is the AND of the answers and stops nothing, and `INIT_STATE` moves. It is refused, with nothing sent, in
the four other states; and where a configured payload is too long for `encode` it ends with `REFUSED_OPERAND`, the frames
before it sent and `INIT_STATE` unchanged. -/
def Obligations.InitStepSendsItsFramesAndMoves : Prop :=
  (∀ s : State, s.eng.initState = .versionMaskSet ∨ s.eng.initState = .identityVerified ∨ s.eng.initState = .ready ∨
      s.eng.initState = .failed →
    exec (.initStep .S) s = .next (s.answer .S .refusedSequence (.initState s.eng.initState))) ∧
  (∀ (s : State) (before after : List FrameSpec) (bad : FrameSpec) (fs : List Bytes) (as left : List Bool), s.sched = [] →
    s.eng.initState ≠ .versionMaskSet → s.eng.initState ≠ .identityVerified → s.eng.initState ≠ .ready →
    s.eng.initState ≠ .failed →
    initFrames s.initSeq s.eng.initState s.eng.chipCount = before ++ bad :: after →
    before.map (fun x => encodeFrame s.params x.header x.payload) = fs.map some → encodeFrame s.params bad.header bad.payload = none →
    as.length = fs.length → s.env.txAns = as ++ left →
    exec (.initStep .S) s = .next ((sentFrames s fs left).answer .S .refusedOperand .empty)) ∧
  ∀ (s : State) (next : InitState) (fs : List Bytes) (as left : List Bool), s.sched = [] →
    (s.eng.initState, next) ∈ [(InitState.poweredOn, InitState.versionMaskSet),
      (.chipsAddressed, .coreRegistersConfigured), (.coreRegistersConfigured, .difficultyConfigured),
      (.difficultyConfigured, .clockRamped), (.clockRamped, .ready)] →
    (initFrames s.initSeq s.eng.initState s.eng.chipCount).map (fun x => encodeFrame s.params x.header x.payload) = fs.map some →
    as.length = fs.length → s.env.txAns = as ++ left →
    exec (.initStep .S) s =
      .next ((sentFrames { s with eng := { s.eng with initState := next } } fs left).answer .S .ok
        (.stepped next (as.all id)))

/-! ### Reserved codes and ports (R51, R52) -/

/-- The codes of the statuses (R200), of `INIT_STATE` (R15) and of `FAIL_REASON` (R17). -/
def Obligations.CodesAreTheSpecs : Prop :=
  [Status.ok, .noResult, .framePreamble, .frameLength, .frameChecksum, .rejected, .notFound, .chainNotReady, .refusedSequence,
      .refusedOperand, .refusedOpcode, .slotEmpty].map (fun x => (statusCode x).toNat) = List.range 12 ∧
    [InitState.poweredOn, .versionMaskSet, .identityVerified, .chipsAddressed, .coreRegistersConfigured, .difficultyConfigured,
      .clockRamped, .ready, .failed].map (fun x => (initStateCode x).toNat) = List.range 9 ∧
    [FailReason.none, .noChips].map (fun x => (failReasonCode x).toNat) = List.range 2

/-- R52: each of the fifteen reserved codes, on either port, ends with `REFUSED_OPCODE` and changes nothing. -/
def Obligations.ReservedCodesAreRefused : Prop :=
  ∀ (p : Port) (s : State), ∀ i ∈ [Instr.reserved11 p, .reserved12 p, .reserved13 p, .reserved14 p, .reserved15 p,
      .reserved16 p, .reserved17 p, .reserved18 p, .reserved19 p, .reserved1A p, .reserved1B p, .reserved1C p,
      .reserved1D p, .reserved1E p, .reserved1F p],
    exec i s = .next (s.answer p .refusedOpcode .empty)

/-- R51: an operation presented on a port that does not accept it ends with `REFUSED_OPCODE` and changes nothing (the ports of
the wire rows are the model's choice, log 2). -/
def Obligations.WrongPortIsRefused : Prop :=
  ∀ (i : Instr) (s : State),
    (sendOnly i = true → i.port = .R → exec i s = .next (s.answer .R .refusedOpcode .empty)) ∧
    (receiveOnly i = true → i.port = .S → exec i s = .next (s.answer .S .refusedOpcode .empty))

/-! ### Whole-machine rules -/

/-- The invariant holds after reset. -/
def Obligations.InvariantAtReset : Prop := Inv State.reset

/-- Every step keeps the invariant (R12, R14, R16, R17, R32, R41, R118, R159, R185 as `Inv` says them): from every state in
which it holds, however the ports interleave and whatever the transport answers. -/
def Obligations.InvariantKeptByEveryStep : Prop := ∀ s t : State, Inv s → step s = .next t → Inv t

/-- R158: no step but the reset event clears a `valid` or an `occupied` flag. -/
def Obligations.FlagsAreNeverCleared : Prop :=
  ∀ (s t : State) (j : BitVec 7), s.resetsNow = false → step s = .next t →
    ((s.slot j).valid = true → (t.slot j).valid = true) ∧ ((s.slot j).occupied = true → (t.slot j).occupied = true)

/-- R180: outside reset `INIT_STATE` only makes the transitions of R180's table, or stays. -/
def Obligations.InitStateMovesForwardOnly : Prop :=
  ∀ s t : State, Inv s → s.resetsNow = false → step s = .next t →
    t.eng.initState = s.eng.initState ∨ initTransition s.eng.initState t.eng.initState = true

/-- R38, R44: a step of port `R` writes no register of the engine, sends nothing, releases nothing, and leaves port `S`, the
configuration and the answers `Tx` will give as they are. -/
def Obligations.ReceivePortWritesNoRegister : Prop :=
  ∀ s t : State, Inv s → s.resetsNow = false → s.nextTurn.turn = .R → step s = .next t →
    t.eng = s.eng ∧ t.env.txLog = s.env.txLog ∧ t.env.released = s.env.released ∧ t.env.txAns = s.env.txAns ∧
      t.portS = s.portS ∧ t.initSeq = s.initSeq ∧ t.params = s.params

/-- R11, R45, R246: the histories and the responses only grow, the transport's answers are only consumed from the front, and no
step writes the configuration. -/
def Obligations.HistoriesOnlyGrow : Prop :=
  ∀ s t : State, step s = .next t →
    s.env.txLog <+: t.env.txLog ∧ s.env.released <+: t.env.released ∧ s.portS.rsp <+: t.portS.rsp ∧
      s.portR.rsp <+: t.portR.rsp ∧ t.env.txAns <:+ s.env.txAns ∧ t.env.rxAns <:+ s.env.rxAns ∧ t.initSeq = s.initSeq ∧
      t.params = s.params

/-- R200: every operation is answered with exactly one status, and every status answers one operation. In the turn of a port
either nothing whole is presented and the port stays as it is; or there is one operation, in progress before or taken from what
is presented (`left` is what stays presented), and after the turn it is in progress with nothing answered, or ended with one
response more. The other port's state is untouched. -/
def Obligations.OneStatusPerOperation : Prop :=
  ∀ (s t : State) (p : Port), s.resetsNow = false → p = s.nextTurn.turn → step s = .next t →
    (∀ q, q ≠ p → t.port q = s.port q) ∧
    (((s.port p).cur = none ∧ decodeCommandPort s.params p (s.port p).cmd = .error .incomplete ∧ t.port p = s.port p) ∨
      ∃ left : Bytes,
        (((s.port p).cur ≠ none ∧ left = (s.port p).cmd) ∨
          ((s.port p).cur = none ∧ ∃ i, decodeCommandPort s.params p (s.port p).cmd = .ok (i, left))) ∧
        ((∃ k, t.port p = { cmd := left, cur := some k, rsp := (s.port p).rsp }) ∨
          ∃ x, t.port p = { cmd := left, cur := none, rsp := (s.port p).rsp ++ [x] }))

/-- R204, R206: no step faults; a step that gives no next state was given bytes that are no operation (log 13). -/
def Obligations.OnlyUndecodableBytesStopTheMachine : Prop :=
  ∀ s : State, (∃ t, step s = .next t) ∨
    ∃ e, step s = .refused (.undecodable e) ∧
      decodeCommandPort s.params s.nextTurn.turn (s.port s.nextTurn.turn).cmd = .error e ∧ (s.port s.nextTurn.turn).cur = none

/-! ### The two ports at once (R42, R240) -/

/-- R42, R151: a schedule that gives the next micro-step to port `R` after `k + 1` micro-steps stops `SUBMIT` exactly there:
after m1, m2 or m3, with the effects of those micro-steps and no others. So the order is: identifier and `NEXT_ID`, release,
install, and the flag last. -/
def Obligations.ScheduleCutsSubmitBetweenMicroSteps : Prop :=
  ∀ (wu : Handle) (version : BitVec 32) (s : State) (l : List Port) (w : Handle) (r : Option Handle),
    w = wu % 2 ^ s.params.wuW →
    r = (if (s.slot s.eng.nextId).occupied then some (s.slot s.eng.nextId).wu else none) →
    (s.sched = .R :: l → exec (.submit .S wu version) s = .next
      { s with
        eng := { s.eng with nextId := s.eng.nextId + 24 }
        portS := { s.portS with cur := some (.submit2 s.eng.nextId w version) } }) ∧
    (s.sched = .S :: .R :: l → exec (.submit .S wu version) s = .next
      { s with
        eng := { s.eng with nextId := s.eng.nextId + 24 }
        env := { s.env with released := s.env.released ++ r.toList }
        portS := { s.portS with cur := some (.submit3 s.eng.nextId w version r) }
        sched := .R :: l }) ∧
    (s.sched = .S :: .S :: .R :: l → exec (.submit .S wu version) s = .next
      { s with
        eng := { s.eng with
          nextId := s.eng.nextId + 24
          slots := s.eng.slots.set s.eng.nextId.toNat
            { valid := (s.slot s.eng.nextId).valid, occupied := true, wu := w, version := version } s.eng.nextId.isLt }
        env := { s.env with released := s.env.released ++ r.toList }
        portS := { s.portS with cur := some (.submit4 s.eng.nextId r) }
        sched := .R :: l })

/-- R240: a `PARSE` stopped between p2 and p4 on the slot the next `SUBMIT` reuses is answered with the old occupant's version
if it goes on first, and with the new occupant's if the `SUBMIT` runs in between; no fault is reported. -/
def Obligations.ParseCutBySubmitSeesTheNewVersion : Prop :=
  ∀ (s : State) (wu : Handle) (version : BitVec 32) (core : BitVec 7) (small : BitVec 4) (nonce : BitVec 32) (nb : Bytes)
    (v16 : BitVec 16), s.sched = [] → s.eng.lock = .free → s.resetReq = false →
    s.portR.cur = some (.parse4 s.eng.nextId core small nonce nb v16) → (s.slot s.eng.nextId).occupied = true →
    (s.turn = .R → step s = .next (s.answer .R .ok (.parsed
      { jobId := s.eng.nextId, coreId := core, smallCoreId := small, nonce := nonce, nonceBytes := nb,
        rolledVersion := rolledVersion (s.slot s.eng.nextId).version v16 }))) ∧
    ∃ t : State, exec (.submit .S wu version) s = .next t ∧
      step { t with turn := .R } = .next (({ t with turn := .R } : State).answer .R .ok (.parsed
        { jobId := s.eng.nextId, coreId := core, smallCoreId := small, nonce := nonce, nonceBytes := nb,
          rolledVersion := rolledVersion version v16 }))

/-! ### The parameters (R9) -/

/-- R9: after reset the parameters that are open or decided have the values of R9's table; with them `encode` is R92's pseudocode,
the job flag is header bit 5 (R55), the least `exp_len` is 4 (R112) and one MHz is 65536 units of a target (R131). -/
def Obligations.DefaultParametersAreR9s : Prop :=
  State.reset.params =
    { lenOffCmd := 3, lenOffJob := 4, crc5Poly := 0x05, crc5Init := 0x1F, crc16Poly := 0x1021, crc16Init := 0xFFFF,
      hdrJobFlag := 0x20, hdrCmdFlag := 0x40, hdrGroupAll := 0x10, hdrReadid := 0x52, readidPayload := [0x00, 0x00],
      hdrSetaddr := 0x40, hdrWriteAll := 0x51, hdrJob := 0x21, idOffset := 2, pllReg := 0x08, pllFrac := 16, wuW := 32 } ∧
  (∀ (h : Byte) (P : Bytes), encodeFrame State.reset.params h P = encodeR92 h P) ∧
  (∀ h : Byte, isJobHeader State.reset.params h = h.getLsbD 5) ∧
  (∀ (n : BitVec 8) (x : BitVec 16) (l : BitVec 8) (s : State), s.params = State.reset.params →
    s.eng.initState = .versionMaskSet → l.toNat < 4 →
    exec (.enumerate .S n x l) s = .next (s.answer .S .refusedOperand .empty)) ∧
  ∀ t : BitVec 32, target State.reset.params t = (t.toNat : ℚ) / 65536

/-! ### Waiting, and every interleaving (R42, R101) -/

/-- R100, R101, R111, R116, R138, R181: an operation that waits for the transport goes on when it is answered. With an answer for
the frame handed over and for each frame after it, and no switch of port ordered, the frames after it are handed over in order and
the operation ends: `SEND` with `tx_ok`, `ASSIGN`, `SETFREQ` and `INIT_STEP` with theirs, one whose next frame `encode` refused with
`REFUSED_OPERAND` (log 24); and `ENUMERATE` does what a turn does that finds it at the start of its count
(`RxOperationsGoOn`). The same for one cut before it hands over its next frame. -/
def Obligations.AnsweredOperationsGoOn : Prop :=
  ∀ (s : State) (Fs : List Bytes) (ok a x : Bool) (as left : List Bool) (k : AfterTx), s.turn = .S → s.sched = [] →
    as.length = Fs.length →
    ((s.portS.cur = some (.txWait Fs ok k) ∧ s.env.txAns = a :: (as ++ left) ∧ x = (ok && a && as.all id)) ∨
      (s.portS.cur = some (.transmit Fs ok k) ∧ s.env.txAns = as ++ left ∧ x = (ok && as.all id))) →
    (k = .send → step s = .next ((sentFrames s Fs left).answer .S .ok (.sent x))) ∧
    (∀ r, k = .setfreq r → step s = .next ((sentFrames s Fs left).answer .S .ok (.frequencySet r x))) ∧
    (∀ n, k = .assign n → step s = .next
      ((sentFrames { s with eng := { s.eng with
          initState := if s.eng.initState = .identityVerified then .chipsAddressed else s.eng.initState } } Fs left).answer
        .S .ok (.assigned n x))) ∧
    (∀ y, k = .initStep y → step s = .next
      ((sentFrames { s with eng := { s.eng with initState := y } } Fs left).answer .S .ok (.stepped y x))) ∧
    (k = .refuseOperand → step s = .next ((sentFrames s Fs left).answer .S .refusedOperand .empty)) ∧
    (∀ n i l, k = .enumerate n i l → step s = step ((sentFrames s Fs left).suspend .S (.enumRead n i l 0 x)))

/-- R114, R170, U3: while the transport has not answered a call of `Rx`, `ENUMERATE` and `RESULT` wait, under every schedule; an
answer of another length than asked for is none (log 5, log 6). -/
def Obligations.OperationsWaitForRx : Prop :=
  ∀ s : State,
    (∀ (n : BitVec 8) (i : BitVec 16) (l count : BitVec 8) (ok : Bool), s.nextTurn.turn = .S →
      s.portS.cur = some (.enumRead n i l count ok) → count < n →
      (s.env.rxAns = [] ∨ ∃ B rs, s.env.rxAns = .bytes B :: rs ∧ B.length ≠ l.toNat) → step s = .next s.nextTurn) ∧
    (s.nextTurn.turn = .R → s.portR.cur = some .resultRead →
      (s.env.rxAns = [] ∨ ∃ B rs, s.env.rxAns = .bytes B :: rs ∧ B.length ≠ 11) → step s = .next s.nextTurn)

/-- R42 for the operations of port `S` that call no `Rx` (`SEND`, `ASSIGN`, `SETFREQ`, `INIT_STEP`, `SUBMIT`, `MARK_VALID` and those
answered at once): however the ports interleave and whatever port `R` does meanwhile, at every moment the operation, if it then
runs on uncut, ends or waits exactly as it would have, uncut, from the start: same registers, same response, same histories. That
the wire rows are among them is the model's choice (log 2), and so is where an operation other than `SUBMIT` can be cut (log 4). -/
def Obligations.SendOperationsEndAlikeUnderEveryInterleaving : Prop :=
  ∀ (s u u' r : State) (m : Nat), Inv s → s.resetReq = false → oneSendOperation s →
    Host.Core.run core m s = .next u → uncutSendTurn s = .next r → uncutSendTurn u = .next u' → sameForSend u' r

/-- R42, R240 for the operations of port `R`: however the ports interleave and whatever port `S` does meanwhile, an operation
presented there is not answered, or is answered once, from its operands, the record it received, and the fields it read in states
of the run. Three parts of this are the model's: that `RESULT_RECORD` is presented on a port at all (log 2), that `TAKE` reads its
three fields in three micro-steps (log 4), and that `TAKE` answers `SLOT_EMPTY` with its index, as R200's table has it and R155
does not (log 15). -/
def Obligations.ReceiveAnswersAreWhatTheReadsSaw : Prop :=
  ∀ (s u : State) (m : Nat) (i : Instr), s.resetReq = false → s.portR.cur = none →
    decodeCommandPort s.params .R s.portR.cmd = .ok (i, []) → receiveOnly i = true →
    Host.Core.run core m s = .next u →
    u.portR.rsp = s.portR.rsp ∨
      ∃ x, u.portR = { cmd := [], cur := none, rsp := s.portR.rsp ++ [x] } ∧ receiveSaw (seenBefore m s) i x

/-- R42, R111, R114 for the loop of `ENUMERATE`: what a turn does, whatever the schedule and whatever answers are left. It reads
some whole records `bs`, each while the count is below `exp_count`, and counts those that match. Then it stays in the loop with no
register written: where the transport has no answer and the count is short; or where the schedule gives the next micro-step to
port `R`, after one record at least. Or it ends with the registers and the status of R111, and no turn ends otherwise: at a failure
while the count is short, which is consumed, or with the count reached, and further answers stay in the transport. A record read
uses one entry of the schedule, if there is one. That a call of `Rx` is one micro-step is the model's choice (log 4). -/
def Obligations.EnumerateTurnCountsUnderEverySchedule : Prop :=
  ∀ (s t : State) (n : BitVec 8) (i : BitVec 16) (l count : BitVec 8) (ok : Bool), s.nextTurn.turn = .S →
    s.portS.cur = some (.enumRead n i l count ok) → step s = .next t →
    ∃ (bs : List (Vector Byte l.toNat)) (rest : List RxAnswer) (total : Nat),
      s.env.rxAns = bs.map (fun B => .bytes B.toList) ++ rest ∧ readWhileShort s.params i n.toNat count.toNat bs ∧
      total = count.toNat + bs.countP (matchesId s.params i) ∧
      (((∀ q ∈ s.nextTurn.sched.take bs.length, q = .S) ∧
          ((total < n.toNat ∧ noRxAnswer l.toNat rest ∧
              t = { s with
                env := { s.env with rxAns := rest }
                portS := { s.portS with cur := some (.enumRead n i l (BitVec.ofNat 8 total) ok) }
                turn := .S
                sched := s.nextTurn.sched.drop bs.length }) ∨
            ∃ left, ((rest = .failure :: left ∧ total < n.toNat) ∨ (rest = left ∧ n.toNat ≤ total)) ∧
              t = enumerateEnded { s with
                env := { s.env with rxAns := left }
                turn := .S
                sched := s.nextTurn.sched.drop bs.length } total ok)) ∨
        ∃ m q, bs.length = m + 1 ∧ s.nextTurn.sched = List.replicate m .S ++ .R :: q ∧
          t = { s with
            env := { s.env with rxAns := rest }
            portS := { s.portS with cur := some (.enumRead n i l (BitVec.ofNat 8 total) ok) }
            turn := .S
            sched := .R :: q })

/-! ### The pseudo-operations (R67) -/

/-- R67: running the expansions: `READID`, `SETADDR` and `WRITEALL` send the frame `ENCODE` answered; `JOBFRAME` answers payload and
frame; `SENDJOB` submits the WorkUnit and sends the job frame that carries the identifier `SUBMIT` answered. R67 gives no expansion
for an `ENCODE` that refuses its payload: that `ENCODE` then ends with `REFUSED_OPERAND` is R93, that nothing is sent after it is the
model's inference (log 21). -/
def Obligations.PseudoOperationsRun : Prop :=
  ∀ (s : State) (a : Bool) (as : List Bool), s.sched = [] → s.env.txAns = a :: as →
    (∀ (l : List Instr) (h : Byte) (P : Bytes),
      ((l = pseudoReadid s.params ∧ h = s.params.hdrReadid ∧ P = s.params.readidPayload) ∨
        (∃ x, l = pseudoSetaddr s.params x ∧ h = s.params.hdrSetaddr ∧ P = [x, 0x00]) ∨
        (l = pseudoWriteall s.params P ∧ h = s.params.hdrWriteAll)) →
      (∀ F, encodeFrame s.params h P = some F → runOperations l s =
        some ((sentFrames (s.answer .S .ok (.bytes F)) [F] as).answer .S .ok (.sent a))) ∧
      (encodeFrame s.params h P = none → runOperations l s = some (s.answer .S .refusedOperand .empty))) ∧
    (∀ f : JobFields,
      (∀ F, encodeFrame s.params s.params.hdrJob (jobPayload f) = some F → runOperations (pseudoJobframe s.params f) s =
        some ((s.answer .S .ok (.bytes (jobPayload f))).answer .S .ok (.bytes F))) ∧
      (encodeFrame s.params s.params.hdrJob (jobPayload f) = none → runOperations (pseudoJobframe s.params f) s =
        some ((s.answer .S .ok (.bytes (jobPayload f))).answer .S .refusedOperand .empty))) ∧
    (∀ (f g : JobFields) (wu : Handle), s.eng.lock = .free → g = { f with jobId := s.eng.nextId.setWidth 8 } →
      ∃ (u : State) (r : Option Handle), exec (.submit .S wu f.version) s = .next u ∧
        r = (if (s.slot s.eng.nextId).occupied then some (s.slot s.eng.nextId).wu else none) ∧
        u.slot s.eng.nextId = { valid := true, occupied := true, wu := wu % 2 ^ s.params.wuW, version := f.version } ∧
        u.portS.rsp = s.portS.rsp ++ [⟨.ok, .submitted s.eng.nextId r⟩] ∧ u.env.txLog = s.env.txLog ∧
        (∀ F, encodeFrame s.params s.params.hdrJob (jobPayload g) = some F →
          runOperations (pseudoSendjob s.params wu s.eng.nextId f) s =
            some ((sentFrames ((u.answer .S .ok (.bytes (jobPayload g))).answer .S .ok (.bytes F)) [F] as).answer .S .ok
              (.sent a))) ∧
        (encodeFrame s.params s.params.hdrJob (jobPayload g) = none →
          runOperations (pseudoSendjob s.params wu s.eng.nextId f) s =
            some ((u.answer .S .ok (.bytes (jobPayload g))).answer .S .refusedOperand .empty)))

/-! ### Waiting for `Rx`, answered -/

/-- R111, R114, R170: an operation that waits for `Rx` goes on when it is answered. With no switch of port ordered, `ENUMERATE`,
from any count so far, ends at a failure or with its count reached as it would have from the start, and waits again where the
answers run out before; `RESULT` parses the record or answers `NO_RESULT`. -/
def Obligations.RxOperationsGoOn : Prop :=
  (∀ (s : State) (n : BitVec 8) (i : BitVec 16) (l count : BitVec 8) (ok : Bool) (bs : List (Vector Byte l.toNat))
    (rest : List RxAnswer) (total : Nat), s.turn = .S → s.sched = [] → s.portS.cur = some (.enumRead n i l count ok) →
    s.env.rxAns = bs.map (fun B => .bytes B.toList) ++ rest → readWhileShort s.params i n.toNat count.toNat bs →
    total = count.toNat + bs.countP (matchesId s.params i) →
    (∀ left, (rest = .failure :: left ∧ total < n.toNat) ∨ (rest = left ∧ n.toNat ≤ total) →
      step s = .next (enumerateEnded { s with env := { s.env with rxAns := left } } total ok)) ∧
    (noRxAnswer l.toNat rest → total < n.toNat →
      step s = .next (({ s with env := { s.env with rxAns := rest } } : State).suspend .S
        (.enumRead n i l (BitVec.ofNat 8 total) ok)))) ∧
  ∀ (s : State) (rs : List RxAnswer), s.turn = .R → s.sched = [] → s.eng.lock = .free → s.portR.cur = some .resultRead →
    (∀ B : Vector Byte 11, s.env.rxAns = .bytes B.toList :: rs →
      step s = .next (({ s with env := { s.env with rxAns := rs } } : State).answer .R (parseAnswer s B).1 (parseAnswer s B).2)) ∧
    (s.env.rxAns = .failure :: rs →
      step s = .next (({ s with env := { s.env with rxAns := rs } } : State).answer .R .noResult .empty))
end

