-- ==== Sys2Proof/Laws/State.lean ====
section
/-! SUPPORT. One lemma per field per update of State, so that no proof unfolds an update. -/

namespace Sys2Proof.Machine

/-! ### Updates of the registers and of the boundary -/

@[simp] theorem State.withEng_eng (s : State) (e : Engine) : (s.withEng e).eng = e := rfl
@[simp] theorem State.withEng_portS (s : State) (e : Engine) : (s.withEng e).portS = s.portS := rfl
@[simp] theorem State.withEng_portR (s : State) (e : Engine) : (s.withEng e).portR = s.portR := rfl
@[simp] theorem State.withEng_env (s : State) (e : Engine) : (s.withEng e).env = s.env := rfl
@[simp] theorem State.withEng_turn (s : State) (e : Engine) : (s.withEng e).turn = s.turn := rfl
@[simp] theorem State.withEng_sched (s : State) (e : Engine) : (s.withEng e).sched = s.sched := rfl
@[simp] theorem State.withEng_resetReq (s : State) (e : Engine) : (s.withEng e).resetReq = s.resetReq := rfl
@[simp] theorem State.withEng_initSeq (s : State) (e : Engine) : (s.withEng e).initSeq = s.initSeq := rfl
@[simp] theorem State.withEng_params (s : State) (e : Engine) : (s.withEng e).params = s.params := rfl
@[simp] theorem State.withEng_port (s : State) (e : Engine) (p : Port) : (s.withEng e).port p = s.port p := by cases p <;> rfl

@[simp] theorem State.withEnv_eng (s : State) (e : Boundary) : (s.withEnv e).eng = s.eng := rfl
@[simp] theorem State.withEnv_portS (s : State) (e : Boundary) : (s.withEnv e).portS = s.portS := rfl
@[simp] theorem State.withEnv_portR (s : State) (e : Boundary) : (s.withEnv e).portR = s.portR := rfl
@[simp] theorem State.withEnv_env (s : State) (e : Boundary) : (s.withEnv e).env = e := rfl
@[simp] theorem State.withEnv_turn (s : State) (e : Boundary) : (s.withEnv e).turn = s.turn := rfl
@[simp] theorem State.withEnv_sched (s : State) (e : Boundary) : (s.withEnv e).sched = s.sched := rfl
@[simp] theorem State.withEnv_resetReq (s : State) (e : Boundary) : (s.withEnv e).resetReq = s.resetReq := rfl
@[simp] theorem State.withEnv_initSeq (s : State) (e : Boundary) : (s.withEnv e).initSeq = s.initSeq := rfl
@[simp] theorem State.withEnv_params (s : State) (e : Boundary) : (s.withEnv e).params = s.params := rfl
@[simp] theorem State.withEnv_port (s : State) (e : Boundary) (p : Port) : (s.withEnv e).port p = s.port p := by cases p <;> rfl

@[simp] theorem State.setInitState_eng (s : State) (x : InitState) : (s.setInitState x).eng = { s.eng with initState := x } := rfl
@[simp] theorem State.setInitState_portS (s : State) (x : InitState) : (s.setInitState x).portS = s.portS := rfl
@[simp] theorem State.setInitState_portR (s : State) (x : InitState) : (s.setInitState x).portR = s.portR := rfl
@[simp] theorem State.setInitState_env (s : State) (x : InitState) : (s.setInitState x).env = s.env := rfl
@[simp] theorem State.setInitState_turn (s : State) (x : InitState) : (s.setInitState x).turn = s.turn := rfl
@[simp] theorem State.setInitState_sched (s : State) (x : InitState) : (s.setInitState x).sched = s.sched := rfl
@[simp] theorem State.setInitState_resetReq (s : State) (x : InitState) : (s.setInitState x).resetReq = s.resetReq := rfl
@[simp] theorem State.setInitState_initSeq (s : State) (x : InitState) : (s.setInitState x).initSeq = s.initSeq := rfl
@[simp] theorem State.setInitState_params (s : State) (x : InitState) : (s.setInitState x).params = s.params := rfl
@[simp] theorem State.setInitState_port (s : State) (x : InitState) (p : Port) : (s.setInitState x).port p = s.port p := by cases p <;> rfl

@[simp] theorem State.setNextId_eng (s : State) (x : BitVec 7) : (s.setNextId x).eng = { s.eng with nextId := x } := rfl
@[simp] theorem State.setNextId_portS (s : State) (x : BitVec 7) : (s.setNextId x).portS = s.portS := rfl
@[simp] theorem State.setNextId_portR (s : State) (x : BitVec 7) : (s.setNextId x).portR = s.portR := rfl
@[simp] theorem State.setNextId_env (s : State) (x : BitVec 7) : (s.setNextId x).env = s.env := rfl
@[simp] theorem State.setNextId_turn (s : State) (x : BitVec 7) : (s.setNextId x).turn = s.turn := rfl
@[simp] theorem State.setNextId_sched (s : State) (x : BitVec 7) : (s.setNextId x).sched = s.sched := rfl
@[simp] theorem State.setNextId_resetReq (s : State) (x : BitVec 7) : (s.setNextId x).resetReq = s.resetReq := rfl
@[simp] theorem State.setNextId_initSeq (s : State) (x : BitVec 7) : (s.setNextId x).initSeq = s.initSeq := rfl
@[simp] theorem State.setNextId_params (s : State) (x : BitVec 7) : (s.setNextId x).params = s.params := rfl
@[simp] theorem State.setNextId_port (s : State) (x : BitVec 7) (p : Port) : (s.setNextId x).port p = s.port p := by cases p <;> rfl

@[simp] theorem State.setChipCount_eng (s : State) (x : BitVec 8) : (s.setChipCount x).eng = { s.eng with chipCount := x } := rfl
@[simp] theorem State.setChipCount_portS (s : State) (x : BitVec 8) : (s.setChipCount x).portS = s.portS := rfl
@[simp] theorem State.setChipCount_portR (s : State) (x : BitVec 8) : (s.setChipCount x).portR = s.portR := rfl
@[simp] theorem State.setChipCount_env (s : State) (x : BitVec 8) : (s.setChipCount x).env = s.env := rfl
@[simp] theorem State.setChipCount_turn (s : State) (x : BitVec 8) : (s.setChipCount x).turn = s.turn := rfl
@[simp] theorem State.setChipCount_sched (s : State) (x : BitVec 8) : (s.setChipCount x).sched = s.sched := rfl
@[simp] theorem State.setChipCount_resetReq (s : State) (x : BitVec 8) : (s.setChipCount x).resetReq = s.resetReq := rfl
@[simp] theorem State.setChipCount_initSeq (s : State) (x : BitVec 8) : (s.setChipCount x).initSeq = s.initSeq := rfl
@[simp] theorem State.setChipCount_params (s : State) (x : BitVec 8) : (s.setChipCount x).params = s.params := rfl
@[simp] theorem State.setChipCount_port (s : State) (x : BitVec 8) (p : Port) : (s.setChipCount x).port p = s.port p := by cases p <;> rfl

@[simp] theorem State.setFailReason_eng (s : State) (x : FailReason) : (s.setFailReason x).eng = { s.eng with failReason := x } := rfl
@[simp] theorem State.setFailReason_portS (s : State) (x : FailReason) : (s.setFailReason x).portS = s.portS := rfl
@[simp] theorem State.setFailReason_portR (s : State) (x : FailReason) : (s.setFailReason x).portR = s.portR := rfl
@[simp] theorem State.setFailReason_env (s : State) (x : FailReason) : (s.setFailReason x).env = s.env := rfl
@[simp] theorem State.setFailReason_turn (s : State) (x : FailReason) : (s.setFailReason x).turn = s.turn := rfl
@[simp] theorem State.setFailReason_sched (s : State) (x : FailReason) : (s.setFailReason x).sched = s.sched := rfl
@[simp] theorem State.setFailReason_resetReq (s : State) (x : FailReason) : (s.setFailReason x).resetReq = s.resetReq := rfl
@[simp] theorem State.setFailReason_initSeq (s : State) (x : FailReason) : (s.setFailReason x).initSeq = s.initSeq := rfl
@[simp] theorem State.setFailReason_params (s : State) (x : FailReason) : (s.setFailReason x).params = s.params := rfl
@[simp] theorem State.setFailReason_port (s : State) (x : FailReason) (p : Port) : (s.setFailReason x).port p = s.port p := by cases p <;> rfl

@[simp] theorem State.setSlot_eng (s : State) (j : BitVec 7) (x : Slot) : (s.setSlot j x).eng = { s.eng with slots := s.eng.slots.set j.toNat x j.isLt } := rfl
@[simp] theorem State.setSlot_portS (s : State) (j : BitVec 7) (x : Slot) : (s.setSlot j x).portS = s.portS := rfl
@[simp] theorem State.setSlot_portR (s : State) (j : BitVec 7) (x : Slot) : (s.setSlot j x).portR = s.portR := rfl
@[simp] theorem State.setSlot_env (s : State) (j : BitVec 7) (x : Slot) : (s.setSlot j x).env = s.env := rfl
@[simp] theorem State.setSlot_turn (s : State) (j : BitVec 7) (x : Slot) : (s.setSlot j x).turn = s.turn := rfl
@[simp] theorem State.setSlot_sched (s : State) (j : BitVec 7) (x : Slot) : (s.setSlot j x).sched = s.sched := rfl
@[simp] theorem State.setSlot_resetReq (s : State) (j : BitVec 7) (x : Slot) : (s.setSlot j x).resetReq = s.resetReq := rfl
@[simp] theorem State.setSlot_initSeq (s : State) (j : BitVec 7) (x : Slot) : (s.setSlot j x).initSeq = s.initSeq := rfl
@[simp] theorem State.setSlot_params (s : State) (j : BitVec 7) (x : Slot) : (s.setSlot j x).params = s.params := rfl
@[simp] theorem State.setSlot_port (s : State) (j : BitVec 7) (x : Slot) (p : Port) : (s.setSlot j x).port p = s.port p := by cases p <;> rfl

@[simp] theorem State.setLock_eng (s : State) (l : Lock) : (s.setLock l).eng = { s.eng with lock := l } := rfl
@[simp] theorem State.setLock_portS (s : State) (l : Lock) : (s.setLock l).portS = s.portS := rfl
@[simp] theorem State.setLock_portR (s : State) (l : Lock) : (s.setLock l).portR = s.portR := rfl
@[simp] theorem State.setLock_env (s : State) (l : Lock) : (s.setLock l).env = s.env := rfl
@[simp] theorem State.setLock_turn (s : State) (l : Lock) : (s.setLock l).turn = s.turn := rfl
@[simp] theorem State.setLock_sched (s : State) (l : Lock) : (s.setLock l).sched = s.sched := rfl
@[simp] theorem State.setLock_resetReq (s : State) (l : Lock) : (s.setLock l).resetReq = s.resetReq := rfl
@[simp] theorem State.setLock_initSeq (s : State) (l : Lock) : (s.setLock l).initSeq = s.initSeq := rfl
@[simp] theorem State.setLock_params (s : State) (l : Lock) : (s.setLock l).params = s.params := rfl
@[simp] theorem State.setLock_port (s : State) (l : Lock) (p : Port) : (s.setLock l).port p = s.port p := by cases p <;> rfl

@[simp] theorem State.handToTx_eng (s : State) (F : Bytes) : (s.handToTx F).eng = s.eng := rfl
@[simp] theorem State.handToTx_portS (s : State) (F : Bytes) : (s.handToTx F).portS = s.portS := rfl
@[simp] theorem State.handToTx_portR (s : State) (F : Bytes) : (s.handToTx F).portR = s.portR := rfl
@[simp] theorem State.handToTx_env (s : State) (F : Bytes) : (s.handToTx F).env = { s.env with txLog := s.env.txLog ++ [F] } := rfl
@[simp] theorem State.handToTx_turn (s : State) (F : Bytes) : (s.handToTx F).turn = s.turn := rfl
@[simp] theorem State.handToTx_sched (s : State) (F : Bytes) : (s.handToTx F).sched = s.sched := rfl
@[simp] theorem State.handToTx_resetReq (s : State) (F : Bytes) : (s.handToTx F).resetReq = s.resetReq := rfl
@[simp] theorem State.handToTx_initSeq (s : State) (F : Bytes) : (s.handToTx F).initSeq = s.initSeq := rfl
@[simp] theorem State.handToTx_params (s : State) (F : Bytes) : (s.handToTx F).params = s.params := rfl
@[simp] theorem State.handToTx_port (s : State) (F : Bytes) (p : Port) : (s.handToTx F).port p = s.port p := by cases p <;> rfl

@[simp] theorem State.release_eng (s : State) (h : Handle) : (s.release h).eng = s.eng := rfl
@[simp] theorem State.release_portS (s : State) (h : Handle) : (s.release h).portS = s.portS := rfl
@[simp] theorem State.release_portR (s : State) (h : Handle) : (s.release h).portR = s.portR := rfl
@[simp] theorem State.release_env (s : State) (h : Handle) : (s.release h).env = { s.env with released := s.env.released ++ [h] } := rfl
@[simp] theorem State.release_turn (s : State) (h : Handle) : (s.release h).turn = s.turn := rfl
@[simp] theorem State.release_sched (s : State) (h : Handle) : (s.release h).sched = s.sched := rfl
@[simp] theorem State.release_resetReq (s : State) (h : Handle) : (s.release h).resetReq = s.resetReq := rfl
@[simp] theorem State.release_initSeq (s : State) (h : Handle) : (s.release h).initSeq = s.initSeq := rfl
@[simp] theorem State.release_params (s : State) (h : Handle) : (s.release h).params = s.params := rfl
@[simp] theorem State.release_port (s : State) (h : Handle) (p : Port) : (s.release h).port p = s.port p := by cases p <;> rfl

@[simp] theorem State.resetEvent_eng (s : State) : (s.resetEvent).eng = Engine.reset := rfl
@[simp] theorem State.resetEvent_portS (s : State) : (s.resetEvent).portS = s.portS := rfl
@[simp] theorem State.resetEvent_portR (s : State) : (s.resetEvent).portR = s.portR := rfl
@[simp] theorem State.resetEvent_env (s : State) : (s.resetEvent).env = s.env := rfl
@[simp] theorem State.resetEvent_turn (s : State) : (s.resetEvent).turn = s.turn := rfl
@[simp] theorem State.resetEvent_sched (s : State) : (s.resetEvent).sched = s.sched := rfl
@[simp] theorem State.resetEvent_resetReq (s : State) : (s.resetEvent).resetReq = false := rfl
@[simp] theorem State.resetEvent_initSeq (s : State) : (s.resetEvent).initSeq = s.initSeq := rfl
@[simp] theorem State.resetEvent_params (s : State) : (s.resetEvent).params = s.params := rfl
@[simp] theorem State.resetEvent_port (s : State) (p : Port) : (s.resetEvent).port p = s.port p := by cases p <;> rfl

/-! ### Updates of a port -/

@[simp] theorem State.port_S (s : State) : s.port .S = s.portS := rfl
@[simp] theorem State.port_R (s : State) : s.port .R = s.portR := rfl
@[simp] theorem State.withPort_S (s : State) (x : PortState) : s.withPort .S x = { s with portS := x } := rfl
@[simp] theorem State.withPort_R (s : State) (x : PortState) : s.withPort .R x = { s with portR := x } := rfl

@[simp] theorem State.withPort_eng (s : State) (p : Port) (x : PortState) : (s.withPort p x).eng = s.eng := by cases p <;> rfl
@[simp] theorem State.withPort_env (s : State) (p : Port) (x : PortState) : (s.withPort p x).env = s.env := by cases p <;> rfl
@[simp] theorem State.withPort_turn (s : State) (p : Port) (x : PortState) : (s.withPort p x).turn = s.turn := by cases p <;> rfl
@[simp] theorem State.withPort_sched (s : State) (p : Port) (x : PortState) : (s.withPort p x).sched = s.sched := by cases p <;> rfl
@[simp] theorem State.withPort_resetReq (s : State) (p : Port) (x : PortState) : (s.withPort p x).resetReq = s.resetReq := by cases p <;> rfl
@[simp] theorem State.withPort_initSeq (s : State) (p : Port) (x : PortState) : (s.withPort p x).initSeq = s.initSeq := by cases p <;> rfl
@[simp] theorem State.withPort_params (s : State) (p : Port) (x : PortState) : (s.withPort p x).params = s.params := by cases p <;> rfl
@[simp] theorem State.withPort_slot (s : State) (p : Port) (x : PortState) (j : BitVec 7) : (s.withPort p x).slot j = s.slot j := by cases p <;> rfl
@[simp] theorem State.withPort_port (s : State) (p : Port) (x : PortState) : (s.withPort p x).port p = x := by cases p <;> rfl
theorem State.withPort_port_other (s : State) (p : Port) (x : PortState) (q : Port) (h : q ≠ p) : (s.withPort p x).port q = s.port q := by
  cases p <;> cases q <;> first | rfl | exact absurd rfl h

@[simp] theorem State.withCmd_eng (s : State) (p : Port) (bs : Bytes) : (s.withCmd p bs).eng = s.eng := by cases p <;> rfl
@[simp] theorem State.withCmd_env (s : State) (p : Port) (bs : Bytes) : (s.withCmd p bs).env = s.env := by cases p <;> rfl
@[simp] theorem State.withCmd_turn (s : State) (p : Port) (bs : Bytes) : (s.withCmd p bs).turn = s.turn := by cases p <;> rfl
@[simp] theorem State.withCmd_sched (s : State) (p : Port) (bs : Bytes) : (s.withCmd p bs).sched = s.sched := by cases p <;> rfl
@[simp] theorem State.withCmd_resetReq (s : State) (p : Port) (bs : Bytes) : (s.withCmd p bs).resetReq = s.resetReq := by cases p <;> rfl
@[simp] theorem State.withCmd_initSeq (s : State) (p : Port) (bs : Bytes) : (s.withCmd p bs).initSeq = s.initSeq := by cases p <;> rfl
@[simp] theorem State.withCmd_params (s : State) (p : Port) (bs : Bytes) : (s.withCmd p bs).params = s.params := by cases p <;> rfl
@[simp] theorem State.withCmd_slot (s : State) (p : Port) (bs : Bytes) (j : BitVec 7) : (s.withCmd p bs).slot j = s.slot j := by cases p <;> rfl
@[simp] theorem State.withCmd_port (s : State) (p : Port) (bs : Bytes) : (s.withCmd p bs).port p = { s.port p with cmd := bs } := by cases p <;> rfl
theorem State.withCmd_port_other (s : State) (p : Port) (bs : Bytes) (q : Port) (h : q ≠ p) : (s.withCmd p bs).port q = s.port q := by
  cases p <;> cases q <;> first | rfl | exact absurd rfl h

@[simp] theorem State.suspend_eng (s : State) (p : Port) (t : Task) : (s.suspend p t).eng = s.eng := by cases p <;> rfl
@[simp] theorem State.suspend_env (s : State) (p : Port) (t : Task) : (s.suspend p t).env = s.env := by cases p <;> rfl
@[simp] theorem State.suspend_turn (s : State) (p : Port) (t : Task) : (s.suspend p t).turn = s.turn := by cases p <;> rfl
@[simp] theorem State.suspend_sched (s : State) (p : Port) (t : Task) : (s.suspend p t).sched = s.sched := by cases p <;> rfl
@[simp] theorem State.suspend_resetReq (s : State) (p : Port) (t : Task) : (s.suspend p t).resetReq = s.resetReq := by cases p <;> rfl
@[simp] theorem State.suspend_initSeq (s : State) (p : Port) (t : Task) : (s.suspend p t).initSeq = s.initSeq := by cases p <;> rfl
@[simp] theorem State.suspend_params (s : State) (p : Port) (t : Task) : (s.suspend p t).params = s.params := by cases p <;> rfl
@[simp] theorem State.suspend_slot (s : State) (p : Port) (t : Task) (j : BitVec 7) : (s.suspend p t).slot j = s.slot j := by cases p <;> rfl
@[simp] theorem State.suspend_port (s : State) (p : Port) (t : Task) : (s.suspend p t).port p = { s.port p with cur := some t } := by cases p <;> rfl
theorem State.suspend_port_other (s : State) (p : Port) (t : Task) (q : Port) (h : q ≠ p) : (s.suspend p t).port q = s.port q := by
  cases p <;> cases q <;> first | rfl | exact absurd rfl h

@[simp] theorem State.answer_eng (s : State) (p : Port) (st : Status) (r : Results) : (s.answer p st r).eng = s.eng := by cases p <;> rfl
@[simp] theorem State.answer_env (s : State) (p : Port) (st : Status) (r : Results) : (s.answer p st r).env = s.env := by cases p <;> rfl
@[simp] theorem State.answer_turn (s : State) (p : Port) (st : Status) (r : Results) : (s.answer p st r).turn = s.turn := by cases p <;> rfl
@[simp] theorem State.answer_sched (s : State) (p : Port) (st : Status) (r : Results) : (s.answer p st r).sched = s.sched := by cases p <;> rfl
@[simp] theorem State.answer_resetReq (s : State) (p : Port) (st : Status) (r : Results) : (s.answer p st r).resetReq = s.resetReq := by cases p <;> rfl
@[simp] theorem State.answer_initSeq (s : State) (p : Port) (st : Status) (r : Results) : (s.answer p st r).initSeq = s.initSeq := by cases p <;> rfl
@[simp] theorem State.answer_params (s : State) (p : Port) (st : Status) (r : Results) : (s.answer p st r).params = s.params := by cases p <;> rfl
@[simp] theorem State.answer_slot (s : State) (p : Port) (st : Status) (r : Results) (j : BitVec 7) : (s.answer p st r).slot j = s.slot j := by cases p <;> rfl
@[simp] theorem State.answer_port (s : State) (p : Port) (st : Status) (r : Results) : (s.answer p st r).port p = { s.port p with cur := none, rsp := (s.port p).rsp ++ [{ status := st, results := r }] } := by cases p <;> rfl
theorem State.answer_port_other (s : State) (p : Port) (st : Status) (r : Results) (q : Port) (h : q ≠ p) : (s.answer p st r).port q = s.port q := by
  cases p <;> cases q <;> first | rfl | exact absurd rfl h

/-! ### Which port steps -/

@[simp] theorem State.nextTurn_eng (s : State) : s.nextTurn.eng = s.eng := by
  unfold State.nextTurn; split <;> rfl
@[simp] theorem State.nextTurn_portS (s : State) : s.nextTurn.portS = s.portS := by
  unfold State.nextTurn; split <;> rfl
@[simp] theorem State.nextTurn_portR (s : State) : s.nextTurn.portR = s.portR := by
  unfold State.nextTurn; split <;> rfl
@[simp] theorem State.nextTurn_env (s : State) : s.nextTurn.env = s.env := by
  unfold State.nextTurn; split <;> rfl
@[simp] theorem State.nextTurn_resetReq (s : State) : s.nextTurn.resetReq = s.resetReq := by
  unfold State.nextTurn; split <;> rfl
@[simp] theorem State.nextTurn_initSeq (s : State) : s.nextTurn.initSeq = s.initSeq := by
  unfold State.nextTurn; split <;> rfl
@[simp] theorem State.nextTurn_params (s : State) : s.nextTurn.params = s.params := by
  unfold State.nextTurn; split <;> rfl
@[simp] theorem State.nextTurn_port (s : State) (p : Port) : s.nextTurn.port p = s.port p := by cases p <;> simp
@[simp] theorem State.nextTurn_slot (s : State) (j : BitVec 7) : s.nextTurn.slot j = s.slot j := by simp [State.slot]

/-- An operation that goes on differs from where it was in the schedule alone. -/
theorem State.goesOn_some {s s' : State} {p : Port} (h : s.goesOn p = some s') : s' = { s with sched := s'.sched } := by
  unfold State.goesOn at h
  split at h
  · cases h; rfl
  · split at h
    · cases h; rfl
    · cases h

/-- With an empty schedule the operation goes on unchanged. -/
theorem State.goesOn_nil {s : State} (p : Port) (h : s.sched = []) : s.goesOn p = some s := by
  unfold State.goesOn; rw [h]

/-! ### The slot table -/

@[simp] theorem slotAt_set_same (t : Vector Slot Config.slotCount) (j : BitVec 7) (x : Slot) :
    slotAt (t.set j.toNat x j.isLt) j = x := by simp [slotAt]

theorem slotAt_set_other (t : Vector Slot Config.slotCount) (j k : BitVec 7) (x : Slot) (h : k ≠ j) :
    slotAt (t.set j.toNat x j.isLt) k = slotAt t k := by
  have hne : j.toNat ≠ k.toNat := fun e => h (BitVec.eq_of_toNat_eq e.symm)
  simp [slotAt, hne]

@[simp] theorem State.setSlot_slot_same (s : State) (j : BitVec 7) (x : Slot) : (s.setSlot j x).slot j = x := by
  simp [State.slot]

theorem State.setSlot_slot_other (s : State) (j k : BitVec 7) (x : Slot) (h : k ≠ j) :
    (s.setSlot j x).slot k = s.slot k := by
  simp [State.slot, slotAt_set_other _ _ _ _ h]

@[simp] theorem State.setInitState_slot (s : State) (x : InitState) (j : BitVec 7) : (s.setInitState x).slot j = s.slot j := rfl
@[simp] theorem State.setNextId_slot (s : State) (x : BitVec 7) (j : BitVec 7) : (s.setNextId x).slot j = s.slot j := rfl
@[simp] theorem State.setChipCount_slot (s : State) (x : BitVec 8) (j : BitVec 7) : (s.setChipCount x).slot j = s.slot j := rfl
@[simp] theorem State.setFailReason_slot (s : State) (x : FailReason) (j : BitVec 7) : (s.setFailReason x).slot j = s.slot j := rfl
@[simp] theorem State.setLock_slot (s : State) (l : Lock) (j : BitVec 7) : (s.setLock l).slot j = s.slot j := rfl
@[simp] theorem State.withEnv_slot (s : State) (e : Boundary) (j : BitVec 7) : (s.withEnv e).slot j = s.slot j := rfl
@[simp] theorem State.handToTx_slot (s : State) (F : Bytes) (j : BitVec 7) : (s.handToTx F).slot j = s.slot j := rfl
@[simp] theorem State.release_slot (s : State) (h : Handle) (j : BitVec 7) : (s.release h).slot j = s.slot j := rfl

/-- Every slot is empty after reset (R230). -/
@[simp] theorem slotAt_reset (j : BitVec 7) : slotAt Engine.reset.slots j = Slot.empty := by
  simp [slotAt, Engine.reset]

/-! ### A port's own fields after an update of it, and the other port's -/

@[simp] theorem State.withCmd_S_portS (s : State) (bs : Bytes) : (s.withCmd .S bs).portS = { s.portS with cmd := bs } := rfl
@[simp] theorem State.withCmd_S_portR (s : State) (bs : Bytes) : (s.withCmd .S bs).portR = s.portR := rfl
@[simp] theorem State.withCmd_R_portS (s : State) (bs : Bytes) : (s.withCmd .R bs).portS = s.portS := rfl
@[simp] theorem State.withCmd_R_portR (s : State) (bs : Bytes) : (s.withCmd .R bs).portR = { s.portR with cmd := bs } := rfl
@[simp] theorem State.suspend_S_portS (s : State) (t : Task) : (s.suspend .S t).portS = { s.portS with cur := some t } := rfl
@[simp] theorem State.suspend_S_portR (s : State) (t : Task) : (s.suspend .S t).portR = s.portR := rfl
@[simp] theorem State.suspend_R_portS (s : State) (t : Task) : (s.suspend .R t).portS = s.portS := rfl
@[simp] theorem State.suspend_R_portR (s : State) (t : Task) : (s.suspend .R t).portR = { s.portR with cur := some t } := rfl
@[simp] theorem State.answer_S_portS (s : State) (st : Status) (r : Results) : (s.answer .S st r).portS = { s.portS with cur := none, rsp := s.portS.rsp ++ [{ status := st, results := r }] } := rfl
@[simp] theorem State.answer_S_portR (s : State) (st : Status) (r : Results) : (s.answer .S st r).portR = s.portR := rfl
@[simp] theorem State.answer_R_portS (s : State) (st : Status) (r : Results) : (s.answer .R st r).portS = s.portS := rfl
@[simp] theorem State.answer_R_portR (s : State) (st : Status) (r : Results) : (s.answer .R st r).portR = { s.portR with cur := none, rsp := s.portR.rsp ++ [{ status := st, results := r }] } := rfl

end Sys2Proof.Machine
end

