-- ==== Sys2Proof/Laws/Ops.lean ====
section
/-! SUPPORT. What each shared operation can do, said once. -/

namespace Sys2Proof.Laws

open Machine

/-! ### The lock and the validity flags (R37) -/

theorem setLock_free (s : State) (p : Port) (h : s.eng.lock = .free) : (s.setLock (.heldBy p)).setLock .free = s := by
  simp only [State.setLock, State.withEng, ← h]

/-- Reading a flag under a free lock answers the flag and changes nothing. -/
theorem readValid_free {p : Port} {j : BitVec 7} {s : State} (h : s.eng.lock = .free) :
    readValid p j s = some ((s.slot j).valid, s) := by
  simp [readValid, takeLock, h, setLock_free s p h]

/-- A flag access that is answered found the lock free. -/
theorem readValid_some {p : Port} {j : BitVec 7} {s s' : State} {v : Bool} (h : readValid p j s = some (v, s')) :
    s.eng.lock = .free ∧ v = (s.slot j).valid ∧ s' = s := by
  by_cases hl : s.eng.lock = .free
  · rw [readValid_free hl] at h; cases h; exact ⟨hl, rfl, rfl⟩
  · simp [readValid, takeLock, hl] at h

theorem readValid_none {p : Port} {j : BitVec 7} {s : State} (h : s.eng.lock ≠ .free) : readValid p j s = none := by
  simp [readValid, takeLock, h]

/-- Setting a flag under a free lock sets that flag and nothing else. -/
theorem setValid_free {p : Port} {j : BitVec 7} {s : State} (h : s.eng.lock = .free) :
    setValid p j s = some (s.setSlot j { s.slot j with valid := true }) := by
  simp only [setValid, takeLock, h, if_pos, Option.map_some, State.setLock_slot]
  simp only [State.setLock, State.withEng, State.setSlot, ← h]

theorem setValid_some {p : Port} {j : BitVec 7} {s s' : State} (h : setValid p j s = some s') :
    s.eng.lock = .free ∧ s' = s.setSlot j { s.slot j with valid := true } := by
  by_cases hl : s.eng.lock = .free
  · rw [setValid_free hl] at h; cases h; exact ⟨hl, rfl⟩
  · simp [setValid, takeLock, hl] at h

theorem setValid_none {p : Port} {j : BitVec 7} {s : State} (h : s.eng.lock ≠ .free) : setValid p j s = none := by
  simp [setValid, takeLock, h]

/-! ### `Tx` and `Rx` -/

theorem takeTxAnswer_some {s s' : State} {a : Bool} (h : takeTxAnswer s = some (a, s')) :
    ∃ as, s.env.txAns = a :: as ∧ s' = s.withEnv { s.env with txAns := as } := by
  unfold takeTxAnswer at h
  split at h
  · cases h
  · next b bs hb => cases h; exact ⟨bs, hb, rfl⟩

theorem takeTxAnswer_cons {s : State} {a : Bool} {as : List Bool} (h : s.env.txAns = a :: as) :
    takeTxAnswer s = some (a, s.withEnv { s.env with txAns := as }) := by
  simp [takeTxAnswer, h]

@[simp] theorem bytesOfLength_toList {n : Nat} (v : Vector Byte n) : bytesOfLength n v.toList = some v := by
  simp [bytesOfLength, Vector.toList]

theorem bytesOfLength_some {n : Nat} {B : Bytes} {v : Vector Byte n} (h : bytesOfLength n B = some v) :
    B = v.toList := by
  unfold bytesOfLength at h
  split at h
  · cases h; simp [Vector.toList]
  · cases h

/-- A call of `Rx` that is answered consumed exactly one answer and changed nothing else (R40). -/
theorem callRx_some {n : Nat} {s s' : State} {a : Option (Vector Byte n)} (h : callRx n s = some (a, s')) :
    ∃ as, s' = s.withEnv { s.env with rxAns := as } ∧
      s.env.rxAns = (match a with | none => RxAnswer.failure | some v => RxAnswer.bytes v.toList) :: as := by
  unfold callRx at h
  split at h
  · cases h
  · next as e => cases h; exact ⟨as, rfl, e⟩
  · next B as e =>
    cases hv : bytesOfLength n B with
    | none => simp [hv] at h
    | some v =>
      simp only [hv, Option.map_some, Option.some.injEq, Prod.mk.injEq] at h
      obtain ⟨rfl, rfl⟩ := h
      exact ⟨as, rfl, by rw [e, bytesOfLength_some hv]⟩

theorem callRx_failure {n : Nat} {s : State} {as : List RxAnswer} (h : s.env.rxAns = .failure :: as) :
    callRx n s = some (none, s.withEnv { s.env with rxAns := as }) := by
  simp [callRx, h]

theorem callRx_bytes {n : Nat} {s : State} {v : Vector Byte n} {as : List RxAnswer}
    (h : s.env.rxAns = .bytes v.toList :: as) :
    callRx n s = some (some v, s.withEnv { s.env with rxAns := as }) := by
  simp [callRx, h]

/-! ### The loop that runs an operation -/

theorem runTask_done {n : Nat} {p : Port} {t : Task} {s s1 : State} {st : Status} {r : Results}
    (h : micro p t s = .done st r s1) : runTask (n + 1) p t s = s1.answer p st r := by
  simp [runTask, h]

theorem runTask_wait {n : Nat} {p : Port} {t : Task} {s : State} (h : micro p t s = .wait) :
    runTask (n + 1) p t s = s.suspend p t := by
  simp [runTask, h]

/-- With an empty schedule the operation goes on to its next micro-step. -/
theorem runTask_more {n : Nat} {p : Port} {t t1 : Task} {s s1 : State} (h : micro p t s = .more t1 s1)
    (hs : s1.sched = []) : runTask (n + 1) p t s = runTask n p t1 s1 := by
  simp [runTask, h, State.goesOn_nil p hs]

/-- What holds of an operation at every micro-step holds of the state in which it ends or stops: `Q` is kept by going on
to the next micro-step, and `G` follows from ending or stopping where `Q` holds. -/
theorem runTask_induct {p : Port} (Q : Task → State → Prop) (G : State → Prop)
    (stop : ∀ t s, Q t s → G (s.suspend p t))
    (ends : ∀ t s st r s1, Q t s → micro p t s = .done st r s1 → G (s1.answer p st r))
    (goes : ∀ t s t1 s1, Q t s → micro p t s = .more t1 s1 → Q t1 s1)
    (sched : ∀ t s l, Q t s → Q t { s with sched := l }) :
    ∀ n t s, Q t s → G (runTask n p t s) := by
  intro n
  induction n with
  | zero => intro t s h; exact stop t s h
  | succ n ih =>
    intro t s h
    simp only [runTask]
    split
    · exact stop t s h
    · next st r s1 e => exact ends t s st r s1 h e
    · next t1 s1 e =>
      have h1 := goes t s t1 s1 h e
      split
      · exact stop t1 s1 h1
      · next s2 e2 => rw [State.goesOn_some e2]; exact ih _ _ (by simpa using sched t1 s1 s2.sched h1)

@[simp] theorem onPort_same (p : Port) (s go : State) : onPort p p s go = go := by simp [onPort]

theorem onPort_other {want p : Port} (s go : State) (h : p ≠ want) :
    onPort want p s go = s.answer p .refusedOpcode .empty := by simp [onPort, h]

end Sys2Proof.Laws
end

