-- ==== Sys2Proof/Laws/Micro.lean ====
section
/-! SUPPORT. What one micro-step can do. -/

namespace Sys2Proof.Laws

open Machine

/-- Every micro-step that goes on lowers the bound on the micro-steps left, so running an operation for as many micro-steps
as the bound allows stops it only where it waits or gives way to the other port. -/
theorem micro_rank {p : Port} {t t1 : Task} {s s1 : State} (h : micro p t s = .more t1 s1) :
    taskRank t1 s1 < taskRank t s := by
  cases t <;> simp only [micro] at h
  case transmit left ok k =>
    cases left with
    | nil => cases k <;> simp [microTransmit, afterTx] at h; obtain ⟨rfl, rfl⟩ := h; simp [taskRank, afterTxRank]
    | cons F rest =>
      simp only [microTransmit, MicroOut.more.injEq] at h
      obtain ⟨rfl, rfl⟩ := h
      cases k <;> simp [taskRank, afterTxRank] <;> omega
  case txWait left ok k =>
    unfold microTxWait at h
    split at h
    · cases h
    · next a s2 e =>
      obtain ⟨as, -, rfl⟩ := takeTxAnswer_some e
      cases h
      cases k <;> simp [taskRank, afterTxRank]
  case enumRead c i l n ok =>
    unfold microEnumRead at h
    split at h
    · split at h
      · cases h
      · simp only [enumFinish] at h; split at h <;> cases h
      · next B s2 e =>
        obtain ⟨as, rfl, e2⟩ := callRx_some e
        cases h
        simp [taskRank, e2]
    · simp only [enumFinish] at h; split at h <;> cases h
  case submit1 => simp only [microSubmit1] at h; cases h; simp [taskRank]
  case submit2 => simp only [microSubmit2] at h; split at h <;> cases h <;> simp [taskRank]
  case submit3 => simp only [microSubmit3] at h; cases h; simp [taskRank]
  case submit4 => simp only [microSubmit4] at h; split at h <;> cases h
  case markValid => simp only [microMarkValid] at h; split at h <;> cases h
  case isValid => simp only [microIsValid] at h; split at h <;> cases h
  case take1 => simp only [microTake1] at h; split at h <;> cases h; simp [taskRank]
  case take2 => simp only [microTake2] at h; cases h; simp [taskRank]
  case take3 => simp only [microTake3] at h; cases h
  case resultRead =>
    simp only [microResultRead] at h
    split at h <;> cases h
    simp [taskRank]
  case parse1 => simp only [microParse1] at h; cases h; simp [taskRank]
  case parse2 =>
    simp only [microParse2] at h
    split at h
    · cases h
    · split at h <;> cases h; simp [taskRank]
  case parse3 => simp only [microParse3] at h; cases h; simp [taskRank]
  case parse4 => simp only [microParse4] at h; split at h <;> cases h; simp [taskRank]
  case parse5 => simp only [microParse5] at h; cases h

/-- More micro-steps than the bound change nothing: the bound in `runOp` stops no operation. -/
theorem runTask_bound {p : Port} : ∀ n t s, taskRank t s ≤ n → runTask n p t s = runTask (taskRank t s) p t s := by
  have pos : ∀ t s, 0 < taskRank t s := by intro t s; cases t <;> simp [taskRank]
  have key : ∀ n m t s, taskRank t s ≤ n → taskRank t s ≤ m → runTask n p t s = runTask m p t s := by
    intro n
    induction n with
    | zero => intro m t s h; have := pos t s; omega
    | succ n ih =>
      intro m t s hn hm
      cases m with
      | zero => have := pos t s; omega
      | succ m =>
        simp only [runTask]
        split
        · rfl
        · rfl
        · next t1 s1 e =>
          split
          · rfl
          · next s2 e2 =>
            have hr := micro_rank e
            have hs : taskRank t1 s2 = taskRank t1 s1 := by
              rw [State.goesOn_some e2]; cases t1 <;> simp only [taskRank, afterTxRank]
            exact ih m t1 s2 (by omega) (by omega)
  intro n t s h
  exact key n (taskRank t s) t s h (Nat.le_refl _)

/-- The state a micro-step that is taken leaves. -/
def after (m : MicroOut) : Option State :=
  match m with
  | .more _ s => some s
  | .done _ _ s => some s
  | .wait => none

/-- The part of the state no micro-step touches: ports, turn, schedule, reset request, configuration. -/
def sameFrame (s s1 : State) : Prop :=
  s1.portS = s.portS ∧ s1.portR = s.portR ∧ s1.turn = s.turn ∧ s1.sched = s.sched ∧ s1.resetReq = s.resetReq ∧
    s1.initSeq = s.initSeq ∧ s1.params = s.params

theorem sameFrame.refl (s : State) : sameFrame s s := ⟨rfl, rfl, rfl, rfl, rfl, rfl, rfl⟩

theorem enumFinish_frame (n : BitVec 8) (ok : Bool) (s s1 : State) :
    (∀ st r, enumFinish n ok s = .done st r s1 → sameFrame s s1) ∧ ∀ t, enumFinish n ok s ≠ .more t s1 := by
  constructor
  · intro st r h
    unfold enumFinish at h
    split at h <;> cases h <;> exact ⟨rfl, rfl, rfl, rfl, rfl, rfl, rfl⟩
  · intro t h
    unfold enumFinish at h
    split at h <;> cases h

theorem enumFinish_after {n : BitVec 8} {ok : Bool} {s s1 : State} (h : after (enumFinish n ok s) = some s1) :
    sameFrame s s1 := by
  cases e : enumFinish n ok s with
  | more t s2 => exact absurd e ((enumFinish_frame n ok s s2).2 t)
  | done st r s2 => rw [e] at h; cases h; exact (enumFinish_frame n ok s _).1 st r e
  | wait => rw [e] at h; cases h

/-- No micro-step touches the ports, the turn, the schedule, the reset request or the configuration. -/
theorem micro_frame {p : Port} {t : Task} {s s1 : State} (h : after (micro p t s) = some s1) : sameFrame s s1 := by
  cases t <;> simp only [micro] at h
  case transmit left ok k =>
    cases left with
    | nil =>
      cases k <;> simp only [microTransmit, afterTx, after, Option.some.injEq] at h
      case assign n => subst h; split <;> exact ⟨rfl, rfl, rfl, rfl, rfl, rfl, rfl⟩
      all_goals subst h; exact ⟨rfl, rfl, rfl, rfl, rfl, rfl, rfl⟩
    | cons F rest => cases h; exact ⟨rfl, rfl, rfl, rfl, rfl, rfl, rfl⟩
  case txWait left ok k =>
    unfold microTxWait at h
    split at h
    · cases h
    · next a s2 e => obtain ⟨as, -, rfl⟩ := takeTxAnswer_some e; cases h; exact ⟨rfl, rfl, rfl, rfl, rfl, rfl, rfl⟩
  case enumRead c i l n ok =>
    unfold microEnumRead at h
    split at h
    · split at h
      · cases h
      · next s2 e => obtain ⟨as, rfl, -⟩ := callRx_some e; have h2 := enumFinish_after h; exact h2
      · next B s2 e => obtain ⟨as, rfl, -⟩ := callRx_some e; cases h; exact ⟨rfl, rfl, rfl, rfl, rfl, rfl, rfl⟩
    · exact enumFinish_after h
  case submit1 => cases h; exact ⟨rfl, rfl, rfl, rfl, rfl, rfl, rfl⟩
  case submit2 => simp only [microSubmit2] at h; split at h <;> cases h <;> exact ⟨rfl, rfl, rfl, rfl, rfl, rfl, rfl⟩
  case submit3 => cases h; exact ⟨rfl, rfl, rfl, rfl, rfl, rfl, rfl⟩
  case submit4 =>
    simp only [microSubmit4] at h
    split at h
    · cases h
    · next s2 e => obtain ⟨-, rfl⟩ := setValid_some e; cases h; exact ⟨rfl, rfl, rfl, rfl, rfl, rfl, rfl⟩
  case markValid =>
    simp only [microMarkValid] at h
    split at h
    · cases h
    · next s2 e => obtain ⟨-, rfl⟩ := setValid_some e; cases h; exact ⟨rfl, rfl, rfl, rfl, rfl, rfl, rfl⟩
  case isValid =>
    simp only [microIsValid] at h
    split at h
    · cases h
    · next v s2 e => obtain ⟨-, -, rfl⟩ := readValid_some e; cases h; exact .refl _
  case take1 => simp only [microTake1] at h; split at h <;> cases h <;> exact .refl _
  case take2 => cases h; exact .refl _
  case take3 => cases h; exact .refl _
  case resultRead =>
    simp only [microResultRead] at h
    split at h
    · cases h
    all_goals next e => obtain ⟨as, rfl, -⟩ := callRx_some e; cases h; exact ⟨rfl, rfl, rfl, rfl, rfl, rfl, rfl⟩
  case parse1 => cases h; exact .refl _
  case parse2 =>
    simp only [microParse2] at h
    split at h
    · cases h
    · next v s2 e => obtain ⟨-, -, rfl⟩ := readValid_some e; split at h <;> cases h <;> exact .refl _
  case parse3 => cases h; exact .refl _
  case parse4 => simp only [microParse4] at h; split at h <;> cases h <;> exact .refl _
  case parse5 => cases h; exact .refl _

end Sys2Proof.Laws
end

