-- ==== Sys2Proof/Laws/Exec.lean ====
section
/-! SUPPORT. What `exec`, the decoder and `step` can do, said once. -/

namespace Sys2Proof.Laws

open Machine

/-- An operation either is answered at once, or starts a task its port runs, after its sequence check (R51, R203). -/
def execShape (i : Instr) (s : State) : Prop :=
  (∃ st r, exec i s = .next (s.answer i.port st r)) ∨
    ∃ t, exec i s = .next (runOp i.port t s) ∧
      ((i.port = .S ∧ sendTaskOk s.params s.eng t) ∨ (i.port = .R ∧ receiveTask t))

theorem onPort_cases (want p : Port) (s go : State) :
    (p ≠ want ∧ onPort want p s go = s.answer p .refusedOpcode .empty) ∨ (p = want ∧ onPort want p s go = go) := by
  by_cases h : p = want
  · exact .inr ⟨h, by simp [onPort, h]⟩
  · exact .inl ⟨h, by simp [onPort, h]⟩

theorem shape_answer {i : Instr} {s : State} {st : Status} {r : Results}
    (h : exec i s = .next (s.answer i.port st r)) : execShape i s := .inl ⟨st, r, h⟩

theorem shape_onS {i : Instr} {s go : State} (h : exec i s = .next (onPort .S i.port s go))
    (hg : i.port = .S → (∃ st r, go = s.answer .S st r) ∨ ∃ t, go = runOp .S t s ∧ sendTaskOk s.params s.eng t) :
    execShape i s := by
  obtain ⟨-, e⟩ | ⟨hp, e⟩ := onPort_cases .S i.port s go
  · exact .inl ⟨_, _, by rw [h, e]⟩
  · obtain ⟨st, r, e2⟩ | ⟨t, e2, ht⟩ := hg hp
    · exact .inl ⟨st, r, by rw [h, e, e2, hp]⟩
    · exact .inr ⟨t, by rw [h, e, e2, hp], .inl ⟨hp, ht⟩⟩

theorem shape_onR {i : Instr} {s go : State} (h : exec i s = .next (onPort .R i.port s go))
    (hg : i.port = .R → ∃ t, go = runOp .R t s ∧ receiveTask t) : execShape i s := by
  obtain ⟨-, e⟩ | ⟨hp, e⟩ := onPort_cases .R i.port s go
  · exact .inl ⟨_, _, by rw [h, e]⟩
  · obtain ⟨t, e2, ht⟩ := hg hp
    exact .inr ⟨t, by rw [h, e, e2, hp], .inr ⟨hp, ht⟩⟩

theorem encode_shape (h : Byte) (P : Bytes) (s : State) : ∃ st r, answerEncode .S h P s = s.answer .S st r := by
  unfold answerEncode; split <;> exact ⟨_, _, rfl⟩

theorem decode_shape (p : Port) (B : Bytes) (s : State) : ∃ st r, answerDecode p B s = s.answer p st r := by
  unfold answerDecode; split <;> exact ⟨_, _, rfl⟩

theorem solve_shape (x : Option Candidate) (s : State) : ∃ st r, answerFound .S x s = s.answer .S st r := by
  cases x <;> exact ⟨_, _, rfl⟩

theorem idRecord_shape (B : Bytes) (s : State) : ∃ st r, answerIdRecord .S B s = s.answer .S st r := by
  unfold answerIdRecord; split <;> exact ⟨_, _, rfl⟩

theorem fitHandle_lt (c : Params) (wu : Handle) : fitHandle c wu < 2 ^ c.wuW := Nat.mod_lt _ (Nat.two_pow_pos _)

/-- An operation that sends frames starts a task port `S` may run, if what follows the frames may. -/
theorem runFrames_shape {l : List FrameSpec} {k : AfterTx} {s : State} (h : afterTxOk s.eng k) :
    ∃ t, runFrames .S l k s = runOp .S t s ∧ sendTaskOk s.params s.eng t := by
  refine ⟨_, rfl, ?_⟩
  show afterTxOk s.eng _
  split
  · exact h
  · trivial

theorem setfreq_shape (x : Option Candidate) (s : State) :
    (∃ st r, sendFound .S x s = s.answer .S st r) ∨
      ∃ k, sendFound .S x s = runOp .S k s ∧ sendTaskOk s.params s.eng k := by
  cases x with
  | none => exact .inl ⟨_, _, rfl⟩
  | some c => exact .inr (runFrames_shape trivial)

theorem enumerate_shape (c : BitVec 8) (i : BitVec 16) (l : BitVec 8) (s : State) :
    (∃ st r, runEnumerate .S c i l s = s.answer .S st r) ∨
      ∃ k, runEnumerate .S c i l s = runOp .S k s ∧ sendTaskOk s.params s.eng k := by
  unfold runEnumerate; split
  · exact .inl ⟨_, _, rfl⟩
  · next h =>
    split
    · exact .inl ⟨_, _, rfl⟩
    · exact .inr (runFrames_shape (by simpa [afterTxOk] using h))

theorem assign_shape (s : State) :
    (∃ st r, runAssign .S s = s.answer .S st r) ∨
      ∃ k, runAssign .S s = runOp .S k s ∧ sendTaskOk s.params s.eng k := by
  unfold runAssign; split
  · exact .inl ⟨_, _, rfl⟩
  · next h => exact .inr (runFrames_shape (by simpa [afterTxOk] using h))

theorem initStep_shape (s : State) :
    (∃ st r, runInitStep .S s = s.answer .S st r) ∨
      ∃ k, runInitStep .S s = runOp .S k s ∧ sendTaskOk s.params s.eng k := by
  unfold runInitStep; split
  · exact .inl ⟨_, _, rfl⟩
  · next h => exact .inr (runFrames_shape h)

/-- What `exec` can do. -/
theorem exec_cases (i : Instr) (s : State) : execShape i s := by
  cases i
  case encode p h P => exact shape_onS rfl fun hp => .inl (by cases hp; exact encode_shape h P s)
  case decode p B => obtain ⟨st, r, e⟩ := decode_shape p B s; exact .inl ⟨st, r, congrArg Host.Outcome.next e⟩
  case enumerate p c i l => exact shape_onS rfl fun hp => by cases hp; exact enumerate_shape c i l s
  case assign p => exact shape_onS rfl fun hp => by cases hp; exact assign_shape s
  case solve p t => exact shape_onS rfl fun hp => .inl (by cases hp; exact solve_shape _ s)
  case setfreq p t => exact shape_onS rfl fun hp => by cases hp; exact setfreq_shape _ s
  case initStep p => exact shape_onS rfl fun hp => by cases hp; exact initStep_shape s
  case idRecord p a i r => exact shape_onS rfl fun hp => .inl (by cases hp; exact idRecord_shape _ s)
  case submit p wu v =>
    exact shape_onS rfl fun hp => .inr (by cases hp; exact ⟨_, rfl, fitHandle_lt s.params wu⟩)
  case jobpayload | jobpayloadLayout | header =>
    exact shape_onS rfl fun hp => .inl (by cases hp; exact ⟨_, _, rfl⟩)
  case send | markValid | frameCommand | frameJob | readid | setaddr | pllwrite =>
    exact shape_onS rfl fun hp => .inr (by cases hp; exact ⟨_, rfl, trivial⟩)
  case isValid | take | parse | result | resultRecord =>
    exact shape_onR rfl fun hp => by cases hp; exact ⟨_, rfl, trivial⟩
  all_goals exact shape_answer rfl

/-! ### The decoder answers an operation of the port it was asked about -/

theorem andThen_ok {α β : Type} {x : Decoded α} {f : α → Bytes → Decoded β} {b : β} {r : Bytes}
    (h : x.andThen f = .ok (b, r)) : ∃ a r1, x = .ok (a, r1) ∧ f a r1 = .ok (b, r) := by
  cases x with
  | error e => cases h
  | ok y => exact ⟨y.1, y.2, rfl, h⟩

theorem into_ok {α β : Type} {x : Decoded α} {f : α → β} {b : β} {r : Bytes} (h : x.into f = .ok (b, r)) :
    ∃ a, x = .ok (a, r) ∧ b = f a := by
  obtain ⟨a, r1, e, h2⟩ := andThen_ok h
  cases h2
  exact ⟨a, e, rfl⟩

theorem classifyFrame_port (c : Params) (p : Port) (h len : Byte) (rest : Bytes) :
    (classifyFrame c p h len rest).port = p := by
  unfold classifyFrame shapeRow
  repeat' split
  all_goals rfl

theorem decodeOperation_port {c : Params} {p : Port} {op : Nat} {r r2 : Bytes} {i : Instr}
    (h : decodeOperation c p op r = .ok (i, r2)) : i.port = p := by
  unfold decodeOperation at h
  split at h
  case h_3 =>
    obtain ⟨_, _, -, h⟩ := andThen_ok h
    obtain ⟨_, _, -, h⟩ := andThen_ok h
    cases h; rfl
  case h_7 =>
    obtain ⟨_, _, -, h⟩ := andThen_ok h
    obtain ⟨_, _, -, h⟩ := andThen_ok h
    obtain ⟨_, _, -, h⟩ := andThen_ok h
    cases h; rfl
  case h_11 =>
    obtain ⟨_, _, -, h⟩ := andThen_ok h
    obtain ⟨_, _, -, h⟩ := andThen_ok h
    cases h; rfl
  case h_1 | h_2 | h_4 | h_5 | h_6 | h_9 | h_10 | h_12 | h_13 | h_14 | h_15 =>
    obtain ⟨_, -, rfl⟩ := into_ok h; rfl
  all_goals cases h <;> rfl

theorem decodeWireFrame_port {c : Params} {p : Port} {r r2 : Bytes} {i : Instr}
    (h : decodeWireFrame c p r = .ok (i, r2)) : i.port = p := by
  unfold decodeWireFrame at h
  split at h
  · cases h
  · split at h
    · cases h
    · split at h
      · split at h
        · cases h; exact classifyFrame_port _ _ _ _ _
        · cases h
      · cases h

theorem decodeCommandPort_port {c : Params} {p : Port} {bs r : Bytes} {i : Instr} (h : decodeCommandPort c p bs = .ok (i, r)) :
    i.port = p := by
  unfold decodeCommandPort at h
  split at h
  · cases h
  · split at h
    · exact decodeOperation_port h
    · split at h
      · exact decodeWireFrame_port h
      · split at h
        · obtain ⟨_, _, -, h⟩ := andThen_ok h; cases h; rfl
        · split at h
          · obtain ⟨_, -, rfl⟩ := into_ok h; rfl
          · split at h
            · obtain ⟨_, -, rfl⟩ := into_ok h; rfl
            · split at h
              · obtain ⟨_, _, -, h⟩ := andThen_ok h
                obtain ⟨_, _, -, h⟩ := andThen_ok h
                obtain ⟨_, _, -, h⟩ := andThen_ok h
                cases h; rfl
              · cases h

/-! ### The step -/

/-- The operation a port fetches is what its bytes decode to, an operation of that port. -/
theorem fetch_operation {p : Port} {s : State} {i : Instr} {rest : Bytes} (h : fetch p s = .operation i rest) :
    decodeCommandPort s.params p (s.port p).cmd = .ok (i, rest) ∧ i.port = p := by
  unfold fetch at h
  split at h
  · next x e => cases h; exact ⟨e, decodeCommandPort_port e⟩
  · cases h
  · cases h

theorem fetch_nothing {p : Port} {s : State} (h : fetch p s = .nothing) :
    decodeCommandPort s.params p (s.port p).cmd = .error .incomplete := by
  unfold fetch at h
  split at h
  · cases h
  · next e => exact e
  · cases h

/-- What a step that gives a next state did: the reset event; a turn with nothing to do; an operation answered at once; or a
task of the port run as far as it goes, resumed or just started. -/
theorem step_cases {s s' : State} (h : step s = .next s') :
    (s.resetsNow = true ∧ s' = s.resetEvent) ∨
    (s.resetsNow = false ∧ ∃ p, p = s.nextTurn.turn ∧
      (((s.port p).cur = none ∧ decodeCommandPort s.params p (s.port p).cmd = .error .incomplete ∧ s' = s.nextTurn) ∨
       (∃ i rest st r, (s.port p).cur = none ∧ decodeCommandPort s.params p (s.port p).cmd = .ok (i, rest) ∧
         exec i (s.nextTurn.withCmd p rest) = .next s' ∧ s' = (s.nextTurn.withCmd p rest).answer p st r) ∨
       (∃ t, (s.port p).cur = some t ∧ s' = runOp p t s.nextTurn) ∨
       (∃ i rest t, (s.port p).cur = none ∧ decodeCommandPort s.params p (s.port p).cmd = .ok (i, rest) ∧
         exec i (s.nextTurn.withCmd p rest) = .next s' ∧ s' = runOp p t (s.nextTurn.withCmd p rest) ∧
         ((p = .S ∧ sendTaskOk s.params s.eng t) ∨ (p = .R ∧ receiveTask t))))) := by
  unfold step at h
  split at h
  · next hr => cases h; exact .inl ⟨hr, rfl⟩
  · next hr =>
    refine .inr ⟨by simpa [State.resetsNow] using hr, s.nextTurn.turn, rfl, ?_⟩
    unfold stepPort at h
    split at h
    · next t ht => cases h; exact .inr (.inr (.inl ⟨t, by simpa using ht, rfl⟩))
    · next hc =>
      rw [State.nextTurn_port] at hc
      split at h
      · next i rest hf =>
        obtain ⟨hd, hp⟩ := fetch_operation hf
        rw [State.nextTurn_params, State.nextTurn_port] at hd
        obtain ⟨st, r, e⟩ | ⟨t, e, ht⟩ := exec_cases i (s.nextTurn.withCmd s.nextTurn.turn rest)
        · rw [hp] at e
          exact .inr (.inl ⟨i, rest, st, r, hc, hd, h, Host.Outcome.next.inj (h.symm.trans e)⟩)
        · rw [hp] at e
          exact .inr (.inr (.inr ⟨i, rest, t, hc, hd, h, Host.Outcome.next.inj (h.symm.trans e), by simpa [hp] using ht⟩))
      · next hf =>
        have hd := fetch_nothing hf
        rw [State.nextTurn_params, State.nextTurn_port] at hd
        cases h; exact .inl ⟨hc, hd, rfl⟩
      · cases h

end Sys2Proof.Laws
end

