-- ==== Sys2Proof/Laws/PerInstr.lean ====
section
/-! SUPPORT. One lemma per constructor of `Instr`: the byte its presented form begins with, by which the decoder tells the
operations apart: the operation code of R51 and R52, the first preamble byte of R53's frames, or the model's tag of a
wire row (log 1). -/

namespace Sys2Proof.Laws

/-- The first byte of an operation's presented form. -/
def leadByte (i : Instr) : Byte :=
  match i with
  | .crc5 _ _ => 0x00
  | .crc16 _ _ => 0x01
  | .encode _ _ _ => 0x02
  | .decode _ _ => 0x03
  | .jobpayload _ _ => 0x04
  | .send _ _ => 0x05
  | .enumerate _ _ _ _ => 0x06
  | .assign _ => 0x07
  | .solve _ _ => 0x08
  | .setfreq _ _ => 0x09
  | .submit _ _ _ => 0x0A
  | .markValid _ _ => 0x0B
  | .isValid _ _ => 0x0C
  | .take _ _ => 0x0D
  | .parse _ _ => 0x0E
  | .result _ => 0x0F
  | .initStep _ => 0x10
  | .reserved11 _ => 0x11
  | .reserved12 _ => 0x12
  | .reserved13 _ => 0x13
  | .reserved14 _ => 0x14
  | .reserved15 _ => 0x15
  | .reserved16 _ => 0x16
  | .reserved17 _ => 0x17
  | .reserved18 _ => 0x18
  | .reserved19 _ => 0x19
  | .reserved1A _ => 0x1A
  | .reserved1B _ => 0x1B
  | .reserved1C _ => 0x1C
  | .reserved1D _ => 0x1D
  | .reserved1E _ => 0x1E
  | .reserved1F _ => 0x1F
  | .frameCommand _ _ _ _ => Config.preamble0
  | .frameJob _ _ _ _ => Config.preamble0
  | .header _ _ _ _ _ _ => 0x80
  | .readid _ _ => Config.preamble0
  | .setaddr _ _ _ => Config.preamble0
  | .pllwrite _ _ _ _ _ _ _ => Config.preamble0
  | .jobpayloadLayout _ _ => 0x81
  | .resultRecord _ _ => 0x82
  | .idRecord _ _ _ _ => 0x83

/-- The presented form of `i` begins with its lead byte, whatever the parameters. -/
def Opcode.Statement (i : Instr) : Prop := ∀ c : Params, ∃ r : Bytes, encode c i = leadByte i :: r

theorem Opcode.crc5 (p : Port) (a : _) : Opcode.Statement (.crc5 p a) := fun _ => ⟨_, rfl⟩
theorem Opcode.crc16 (p : Port) (a : _) : Opcode.Statement (.crc16 p a) := fun _ => ⟨_, rfl⟩
theorem Opcode.encode (p : Port) (a : _) (b : _) : Opcode.Statement (.encode p a b) := fun _ => ⟨_, rfl⟩
theorem Opcode.decode (p : Port) (a : _) : Opcode.Statement (.decode p a) := fun _ => ⟨_, rfl⟩
theorem Opcode.jobpayload (p : Port) (a : _) : Opcode.Statement (.jobpayload p a) := fun _ => ⟨_, rfl⟩
theorem Opcode.send (p : Port) (a : _) : Opcode.Statement (.send p a) := fun _ => ⟨_, rfl⟩
theorem Opcode.enumerate (p : Port) (a : _) (b : _) (c : _) : Opcode.Statement (.enumerate p a b c) := fun _ => ⟨_, rfl⟩
theorem Opcode.assign (p : Port) : Opcode.Statement (.assign p) := fun _ => ⟨_, rfl⟩
theorem Opcode.solve (p : Port) (a : _) : Opcode.Statement (.solve p a) := fun _ => ⟨_, rfl⟩
theorem Opcode.setfreq (p : Port) (a : _) : Opcode.Statement (.setfreq p a) := fun _ => ⟨_, rfl⟩
theorem Opcode.submit (p : Port) (a : _) (b : _) : Opcode.Statement (.submit p a b) := fun _ => ⟨_, rfl⟩
theorem Opcode.markValid (p : Port) (a : _) : Opcode.Statement (.markValid p a) := fun _ => ⟨_, rfl⟩
theorem Opcode.isValid (p : Port) (a : _) : Opcode.Statement (.isValid p a) := fun _ => ⟨_, rfl⟩
theorem Opcode.take (p : Port) (a : _) : Opcode.Statement (.take p a) := fun _ => ⟨_, rfl⟩
theorem Opcode.parse (p : Port) (a : _) : Opcode.Statement (.parse p a) := fun _ => ⟨_, rfl⟩
theorem Opcode.result (p : Port) : Opcode.Statement (.result p) := fun _ => ⟨_, rfl⟩
theorem Opcode.initStep (p : Port) : Opcode.Statement (.initStep p) := fun _ => ⟨_, rfl⟩
theorem Opcode.reserved11 (p : Port) : Opcode.Statement (.reserved11 p) := fun _ => ⟨_, rfl⟩
theorem Opcode.reserved12 (p : Port) : Opcode.Statement (.reserved12 p) := fun _ => ⟨_, rfl⟩
theorem Opcode.reserved13 (p : Port) : Opcode.Statement (.reserved13 p) := fun _ => ⟨_, rfl⟩
theorem Opcode.reserved14 (p : Port) : Opcode.Statement (.reserved14 p) := fun _ => ⟨_, rfl⟩
theorem Opcode.reserved15 (p : Port) : Opcode.Statement (.reserved15 p) := fun _ => ⟨_, rfl⟩
theorem Opcode.reserved16 (p : Port) : Opcode.Statement (.reserved16 p) := fun _ => ⟨_, rfl⟩
theorem Opcode.reserved17 (p : Port) : Opcode.Statement (.reserved17 p) := fun _ => ⟨_, rfl⟩
theorem Opcode.reserved18 (p : Port) : Opcode.Statement (.reserved18 p) := fun _ => ⟨_, rfl⟩
theorem Opcode.reserved19 (p : Port) : Opcode.Statement (.reserved19 p) := fun _ => ⟨_, rfl⟩
theorem Opcode.reserved1A (p : Port) : Opcode.Statement (.reserved1A p) := fun _ => ⟨_, rfl⟩
theorem Opcode.reserved1B (p : Port) : Opcode.Statement (.reserved1B p) := fun _ => ⟨_, rfl⟩
theorem Opcode.reserved1C (p : Port) : Opcode.Statement (.reserved1C p) := fun _ => ⟨_, rfl⟩
theorem Opcode.reserved1D (p : Port) : Opcode.Statement (.reserved1D p) := fun _ => ⟨_, rfl⟩
theorem Opcode.reserved1E (p : Port) : Opcode.Statement (.reserved1E p) := fun _ => ⟨_, rfl⟩
theorem Opcode.reserved1F (p : Port) : Opcode.Statement (.reserved1F p) := fun _ => ⟨_, rfl⟩
theorem Opcode.frameCommand (p : Port) (a : _) (b : _) (c : _) : Opcode.Statement (.frameCommand p a b c) := fun _ => ⟨_, rfl⟩
theorem Opcode.frameJob (p : Port) (a : _) (b : _) (c : _) : Opcode.Statement (.frameJob p a b c) := fun _ => ⟨_, rfl⟩
theorem Opcode.header (p : Port) (a : _) (b : _) (c : _) (d : _) (e : _) : Opcode.Statement (.header p a b c d e) := fun _ => ⟨_, rfl⟩
theorem Opcode.readid (p : Port) (a : _) : Opcode.Statement (.readid p a) := fun _ => ⟨_, rfl⟩
theorem Opcode.setaddr (p : Port) (a : _) (b : _) : Opcode.Statement (.setaddr p a b) := fun _ => ⟨_, rfl⟩
theorem Opcode.pllwrite (p : Port) (a : _) (b : _) (c : _) (d : _) (e : _) (f : _) : Opcode.Statement (.pllwrite p a b c d e f) := fun _ => ⟨_, rfl⟩
theorem Opcode.jobpayloadLayout (p : Port) (a : _) : Opcode.Statement (.jobpayloadLayout p a) := fun _ => ⟨_, rfl⟩
theorem Opcode.resultRecord (p : Port) (a : _) : Opcode.Statement (.resultRecord p a) := fun _ => ⟨_, rfl⟩
theorem Opcode.idRecord (p : Port) (a : _) (b : _) (c : _) : Opcode.Statement (.idRecord p a b c) := fun _ => ⟨_, rfl⟩

end Sys2Proof.Laws
end

