-- ==== Sys2Proof/Laws/Run.lean ====
section
/-! SUPPORT. What running an operation does, said once: the operations of port `R`, and the frames an operation sends. -/

namespace Sys2Proof.Laws

open Machine

/-! ### Port `R` -/

/-- A micro-step of an operation of port `R` consumes answers of `Rx` and changes nothing else (R38, R44). -/
theorem micro_receive {p : Port} {t : Task} {s : State} (h : receiveTask t) :
    (∀ t1 s1, micro p t s = .more t1 s1 →
      receiveTask t1 ∧ ∃ l, l <:+ s.env.rxAns ∧ s1 = s.withEnv { s.env with rxAns := l }) ∧
    (∀ st r s1, micro p t s = .done st r s1 → ∃ l, l <:+ s.env.rxAns ∧ s1 = s.withEnv { s.env with rxAns := l }) := by
  have base : ∃ l, l <:+ s.env.rxAns ∧ s = s.withEnv { s.env with rxAns := l } := ⟨_, List.suffix_refl _, rfl⟩
  cases t <;> simp only [receiveTask] at h <;> simp only [micro]
  case isValid j =>
    simp only [microIsValid]
    constructor
    · intro t1 s1 e; split at e <;> cases e
    · intro st r s1 e
      split at e
      · cases e
      · next v s2 e2 => obtain ⟨-, -, rfl⟩ := readValid_some e2; cases e; exact base
  case take1 j =>
    simp only [microTake1]
    constructor <;> (intros; rename_i e; split at e <;> cases e)
    · exact ⟨trivial, base⟩
    · exact base
  case take2 j => constructor <;> (intros; rename_i e; cases e); exact ⟨trivial, base⟩
  case take3 j => constructor <;> (intros; rename_i e; cases e); exact base
  case resultRead =>
    simp only [microResultRead]
    constructor
    · intro t1 s1 e
      split at e <;> cases e
      next B e2 => obtain ⟨as, rfl, e3⟩ := callRx_some e2; exact ⟨trivial, as, by rw [e3]; exact List.suffix_cons _ _, rfl⟩
    · intro st r s1 e
      split at e <;> cases e
      next e2 => obtain ⟨as, rfl, e3⟩ := callRx_some e2; exact ⟨as, by rw [e3]; exact List.suffix_cons _ _, rfl⟩
  case parse1 j => constructor <;> (intros; rename_i e; cases e); exact ⟨trivial, base⟩
  case parse2 B j =>
    simp only [microParse2]
    constructor <;> intros <;> rename_i e
    · split at e
      · cases e
      · next e2 => obtain ⟨-, -, rfl⟩ := readValid_some e2; split at e <;> cases e; exact ⟨trivial, base⟩
    · split at e
      · cases e
      · next e2 => obtain ⟨-, -, rfl⟩ := readValid_some e2; split at e <;> cases e; exact base
  case parse3 => constructor <;> (intros; rename_i e; cases e); exact ⟨trivial, base⟩
  case parse4 =>
    simp only [microParse4]
    constructor <;> (intros; rename_i e; split at e <;> cases e)
    · exact ⟨trivial, base⟩
    · exact base
  case parse5 => constructor <;> (intros; rename_i e; cases e); exact base

/-- Running an operation of port `R` changes that port, consumes answers of `Rx` and turns of the schedule, and nothing
else. -/
theorem run_receive {t : Task} {s : State} (h : receiveTask t) :
    ∃ l sc x, l <:+ s.env.rxAns ∧ (∀ k, x.cur = some k → receiveTask k) ∧ s.portR.rsp <+: x.rsp ∧
      runOp .R t s = { s with env := { s.env with rxAns := l }, sched := sc, portR := x } := by
  refine runTask_induct (p := .R)
    (Q := fun t' s' => receiveTask t' ∧
      ∃ l sc, l <:+ s.env.rxAns ∧ s' = { s with env := { s.env with rxAns := l }, sched := sc })
    (G := fun s' => ∃ l sc x, l <:+ s.env.rxAns ∧ (∀ k, x.cur = some k → receiveTask k) ∧ s.portR.rsp <+: x.rsp ∧
      s' = { s with env := { s.env with rxAns := l }, sched := sc, portR := x })
    ?_ ?_ ?_ ?_ (taskRank t s) t s ⟨h, s.env.rxAns, s.sched, List.suffix_refl _, rfl⟩
  · rintro t' s' ⟨hr, l, sc, hl, rfl⟩
    exact ⟨l, sc, { s.portR with cur := some t' }, hl, by simpa using hr, List.prefix_refl _, rfl⟩
  · rintro t' s' st r s1 ⟨hr, l, sc, hl, rfl⟩ e
    obtain ⟨l2, hl2, rfl⟩ := (micro_receive hr).2 _ _ _ e
    exact ⟨l2, sc, _, hl2.trans hl, by simp, List.prefix_append _ _, rfl⟩
  · rintro t' s' t1 s1 ⟨hr, l, sc, hl, rfl⟩ e
    obtain ⟨h1, l2, hl2, rfl⟩ := (micro_receive hr).1 _ _ e
    exact ⟨h1, l2, sc, hl2.trans hl, rfl⟩
  · rintro t' s' l' ⟨hr, l, sc, hl, rfl⟩
    exact ⟨hr, l, l', hl, rfl⟩

/-! ### The frames an operation sends -/

/-- Frames that `encode` builds, all of them. -/
theorem encodeList_all {c : Params} {l : List FrameSpec} {fs : List Bytes}
    (h : l.map (fun x => encodeFrame c x.header x.payload) = fs.map some) : encodeList c l = (fs, true) := by
  induction l generalizing fs with
  | nil => cases fs with
    | nil => rfl
    | cons => cases h
  | cons x xs ih => cases fs with
    | nil => cases h
    | cons F fs =>
      simp only [List.map_cons, List.cons.injEq] at h
      simp only [encodeList, h.1, ih h.2]

/-- Frames of which `encode` refuses one: those before it. -/
theorem encodeList_refused {c : Params} {before after : List FrameSpec} {bad : FrameSpec} {fs : List Bytes}
    (h : before.map (fun x => encodeFrame c x.header x.payload) = fs.map some)
    (hb : encodeFrame c bad.header bad.payload = none) : encodeList c (before ++ bad :: after) = (fs, false) := by
  induction before generalizing fs with
  | nil => cases fs with
    | nil => simp only [List.nil_append, encodeList, hb]
    | cons => cases h
  | cons x xs ih => cases fs with
    | nil => cases h
    | cons F fs =>
      simp only [List.map_cons, List.cons.injEq] at h
      simp only [List.cons_append, encodeList, h.1, ih h.2]

theorem runFrames_all {p : Port} {l : List FrameSpec} {k : AfterTx} {s : State} {fs : List Bytes}
    (h : l.map (fun x => encodeFrame s.params x.header x.payload) = fs.map some) :
    runFrames p l k s = runOp p (.transmit fs true k) s := by
  simp only [runFrames, encodeList_all h, if_true]

theorem runFrames_refused {p : Port} {before after : List FrameSpec} {bad : FrameSpec} {k : AfterTx} {s : State}
    {fs : List Bytes} (h : before.map (fun x => encodeFrame s.params x.header x.payload) = fs.map some)
    (hb : encodeFrame s.params bad.header bad.payload = none) :
    runFrames p (before ++ bad :: after) k s = runOp p (.transmit fs true .refuseOperand) s := by
  simp only [runFrames, encodeList_refused h hb, Bool.false_eq_true, if_false]

/-- The state after frames have been handed to `Tx` and all answered; `left` are the answers not used. -/
def afterFrames (s : State) (Fs : List Bytes) (left : List Bool) : State :=
  s.withEnv { s.env with txLog := s.env.txLog ++ Fs, txAns := left }

@[simp] theorem afterFrames_eng (s : State) (Fs : List Bytes) (l : List Bool) : (afterFrames s Fs l).eng = s.eng := rfl
@[simp] theorem afterFrames_sched (s : State) (Fs : List Bytes) (l : List Bool) : (afterFrames s Fs l).sched = s.sched := rfl
@[simp] theorem afterFrames_rxAns (s : State) (Fs : List Bytes) (l : List Bool) :
    (afterFrames s Fs l).env.rxAns = s.env.rxAns := rfl

/-- With no switch of port ordered and an answer waiting for each frame, the frames go out in list order and the operation
goes on with `tx_ok` the AND of the answers (R44, R100, R116, R181). -/
theorem run_transmit (k : AfterTx) (left : List Bool) :
    ∀ (Fs : List Bytes) (as : List Bool) (ok : Bool) (s : State), s.sched = [] → as.length = Fs.length →
      s.env.txAns = as ++ left →
      runOp .S (.transmit Fs ok k) s = runOp .S (.transmit [] (ok && as.all id) k) (afterFrames s Fs left) := by
  intro Fs
  induction Fs with
  | nil =>
    intro as ok s _ hl ha
    obtain rfl := List.length_eq_zero_iff.1 hl
    have e : afterFrames s [] left = s := by simp only [List.nil_append] at ha; simp [afterFrames, ← ha, State.withEnv]
    simp [e]
  | cons F Fs ih =>
    intro as ok s hs hl ha
    cases as with
    | nil => cases hl
    | cons a as =>
      let s1 := s.handToTx F
      let s2 := s1.withEnv { s1.env with txAns := as ++ left }
      have e1 : micro .S (.transmit (F :: Fs) ok k) s = .more (.txWait Fs ok k) s1 := rfl
      have e2 : micro .S (.txWait Fs ok k) s1 = .more (.transmit Fs (ok && a) k) s2 := by
        simp only [micro, microTxWait]
        rw [takeTxAnswer_cons (show s1.env.txAns = a :: (as ++ left) from ha)]
      have r : taskRank (.transmit (F :: Fs) ok k) s = taskRank (.transmit Fs (ok && a) k) s2 + 2 := by
        have : afterTxRank k s2 = afterTxRank k s := by cases k <;> rfl
        simp only [taskRank, List.length_cons, this]; omega
      have e3 : runOp .S (.transmit (F :: Fs) ok k) s = runOp .S (.transmit Fs (ok && a) k) s2 := by
        unfold runOp
        rw [r, runTask_more e1 hs, runTask_more e2 hs]
      have e4 : afterFrames s2 Fs left = afterFrames s (F :: Fs) left := by
        simp [afterFrames, s2, s1, State.withEnv, State.handToTx]
      rw [e3, ih as (ok && a) s2 hs (by simpa using hl) rfl, e4]
      simp [Bool.and_assoc]

/-- An operation whose next micro-step ends it. -/
theorem runOp_done {p : Port} {t : Task} {s s1 : State} {st : Status} {r : Results} (h : micro p t s = .done st r s1) :
    runOp p t s = s1.answer p st r := by
  unfold runOp
  obtain ⟨n, hn⟩ : ∃ n, taskRank t s = n + 1 :=
    ⟨taskRank t s - 1, by cases t <;> simp only [taskRank] <;> omega⟩
  rw [hn, runTask_done h]

/-- An operation that cannot take its next micro-step stays where it is. -/
theorem runOp_wait {p : Port} {t : Task} {s : State} (h : micro p t s = .wait) : runOp p t s = s.suspend p t := by
  unfold runOp
  obtain ⟨n, hn⟩ : ∃ n, taskRank t s = n + 1 :=
    ⟨taskRank t s - 1, by cases t <;> simp only [taskRank] <;> omega⟩
  rw [hn, runTask_wait h]

/-- An operation goes on to its next micro-step if the schedule gives it that one too. -/
theorem runOp_more {p : Port} {t t1 : Task} {s s1 s2 : State} (h : micro p t s = .more t1 s1) (hg : s1.goesOn p = some s2) :
    runOp p t s = runOp p t1 s2 := by
  have hr := micro_rank h
  have hs : taskRank t1 s2 = taskRank t1 s1 := by
    rw [State.goesOn_some hg]; cases t1 <;> simp only [taskRank, afterTxRank]
  unfold runOp
  obtain ⟨n, hn⟩ : ∃ n, taskRank t s = n + 1 := ⟨taskRank t s - 1, by omega⟩
  rw [hn, ← runTask_bound n t1 s2 (by omega)]
  simp only [runTask, h, hg]

/-- An operation stops after a micro-step if the schedule gives the next one to the other port. -/
theorem runOp_cut {p : Port} {t t1 : Task} {s s1 : State} (h : micro p t s = .more t1 s1) (hg : s1.goesOn p = none) :
    runOp p t s = s1.suspend p t1 := by
  have hr := micro_rank h
  unfold runOp
  obtain ⟨n, hn⟩ : ∃ n, taskRank t s = n + 1 := ⟨taskRank t s - 1, by omega⟩
  rw [hn]
  simp only [runTask, h, hg]

end Sys2Proof.Laws
end

