-- ==== Sys2Proof/Tests/Slice0.lean ====
section
/-! SUPPORT. Tests: ill-formed terms that WellFormed refuses, a written-out word for every constructor, one or two steps
per operation with results from spec/95_test_vectors.md (the vector is named), and a state and operands that meet the
hypotheses of each statement for the provers. -/

/- The theorems one after another: each in a thread of its own, they ask for more threads than the memory limit allows. -/
set_option Elab.async false

namespace Sys2Proof.Tests

open Machine Reference

/-! ### Small states -/

/-- The engine after `ENUMERATE` found three chips, past start-up, with one WorkUnit submitted; answers of the transport. -/
def live (tx : List Bool) (rx : List RxAnswer) : State :=
  { State.reset with
    eng := { Engine.reset with
      nextId := 24
      slots := Engine.reset.slots.set 0 { valid := true, occupied := true, wu := 0xA, version := 0x20000000 }
      initState := .ready
      chipCount := 3 }
    env := { txAns := tx, rxAns := rx, txLog := [], released := [] } }

/-- `live` in another state of start-up and with another count of chips. -/
def inState (x : InitState) (n : BitVec 8) (tx : List Bool) (rx : List RxAnswer) : State :=
  { live tx rx with eng := { (live tx rx).eng with initState := x, chipCount := n } }

/-- `live` with one slot replaced. -/
def withSlot (j : BitVec 7) (x : Slot) : State := (live [] []).setSlot j x

/-- The state an operation leaves. -/
def run (i : Instr) (s : State) : Option State :=
  match exec i s with
  | .next t => some t
  | .fault _ => none
  | .refused _ => none

/-- The last status and results on the operation's port. -/
def response (i : Instr) (s : State) : Option Response := (run i s).bind fun t => (t.port i.port).rsp.getLast?

/-- The frames the operation handed to `Tx`. -/
def frames (i : Instr) (s : State) : Option (List Bytes) := (run i s).map fun t => t.env.txLog

def ok (r : Results) : Option Response := some ⟨.ok, r⟩

/-- A record of 11 bytes from the bytes that V111 to V118 vary. -/
def record (b2 b3 b4 b5 reply v1 v0 : Byte) : Vector Byte 11 := #v[0xAA, 0x55, b2, b3, b4, b5, 0x00, reply, v1, v0, 0x00]

def hash (n : Nat) : Vector Byte 32 := Vector.ofFn fun i => BitVec.ofNat 8 (n + i.val)

/-- The operands of V30. -/
def jobV30 : JobFields :=
  { jobId := 0x18, numMidstates := 1, startingNonce := 0, nbits := 0x1705AE3A, ntime := 0x647025B5
    merkleRoot := hash 0, prevBlockHash := hash 32, version := 0x20000000 }

def matching : RxAnswer := .bytes [0xAA, 0x55, 0x13, 0x66, 0, 0, 0, 0, 0, 0, 0]
def nonMatching : RxAnswer := .bytes [0xAA, 0x55, 0x13, 0x97, 0, 0, 0, 0, 0, 0, 0]

/-! ### WellFormed refuses an ill-formed term, check by check -/

theorem test_wf_length_byte : ¬ WellFormed Params.default (.frameCommand .S 0x51 0x06 [0x55, 0xAA, 0x1F]) := by decide
theorem test_wf_command_checksum : ¬ WellFormed Params.default (.frameCommand .S 0x51 0x05 [0x55, 0xAA, 0x1E]) := by decide +kernel
theorem test_wf_command_shape : ¬ WellFormed Params.default (.frameCommand .S 0x21 0x05 [0xAB, 0x86, 0x1E]) := by decide
theorem test_wf_job_shape : ¬ WellFormed Params.default (.frameJob .S 0x51 0x05 [0x55, 0xAA, 0x1F]) := by decide
theorem test_wf_job_checksum : ¬ WellFormed Params.default (.frameJob .S 0x21 0x05 [0xAB, 0x86, 0x1F]) := by decide +kernel
theorem test_wf_job_too_short : ¬ WellFormed Params.default (.frameJob .S 0x21 0x03 [0xFF]) := by decide +kernel
theorem test_wf_named_row : ¬ WellFormed Params.default (.frameCommand .S 0x52 0x05 [0x00, 0x00, 0x0A]) := by decide +kernel
theorem test_wf_readid_checksum : ¬ WellFormed Params.default (.readid .S 0x0B) := by decide +kernel
theorem test_wf_setaddr_checksum : ¬ WellFormed Params.default (.setaddr .S 0x80 0x1C) := by decide +kernel
theorem test_wf_pll_feedback : ¬ WellFormed Params.default (.pllwrite .S false 0x9F 2 6 6 0x1E) := by decide
theorem test_wf_pll_refdiv : ¬ WellFormed Params.default (.pllwrite .S true 0xE0 3 6 1 0x0A) := by decide
theorem test_wf_pll_order : ¬ WellFormed Params.default (.pllwrite .S true 0xE0 2 1 6 0x0A) := by decide
theorem test_wf_pll_hf : ¬ WellFormed Params.default (.pllwrite .S false 0xE0 2 6 1 0x0A) := by decide
theorem test_wf_id_record_length : ¬ WellFormed Params.default (.idRecord .S 0xAA55 0x1366 (List.replicate 252 0)) := by decide +kernel

/-! ### A written-out word for every constructor -/

theorem test_word_CRC5 : decodeCommandPort Params.default .R [0x00, 0x01, 0x52, 0x01, 0x05, 0x00] = .ok (.crc5 .R [0x52, 0x05], []) := by decide
theorem test_word_CRC16 : decodeCommandPort Params.default .S [0x01, 0x01, 0x31, 0x00, 0x07] = .ok (.crc16 .S [0x31], [0x07]) := by decide
theorem test_word_ENCODE : decodeCommandPort Params.default .S [0x02, 0x21, 0x01, 0xAB, 0x00] = .ok (.encode .S 0x21 [0xAB], []) := by decide
theorem test_word_DECODE : decodeCommandPort Params.default .S [0x03, 0x01, 0x55, 0x00] = .ok (.decode .S [0x55], []) := by decide
theorem test_word_JOBPAYLOAD :
    decodeCommandPort Params.default .S ([0x04, 0x18, 0x01, 0, 0, 0, 0, 0x17, 0x05, 0xAE, 0x3A, 0x64, 0x70, 0x25, 0xB5]
      ++ (hash 0).toList ++ (hash 32).toList ++ [0x20, 0, 0, 0]) = .ok (.jobpayload .S jobV30, []) := by decide +kernel
theorem test_word_SEND : decodeCommandPort Params.default .S [0x05, 0x00] = .ok (.send .S [], []) := by decide
theorem test_word_ENUMERATE : decodeCommandPort Params.default .S [0x06, 0x04, 0x13, 0x66, 0x0B] = .ok (.enumerate .S 4 0x1366 11, []) := by decide
theorem test_word_ASSIGN : decodeCommandPort Params.default .S [0x07, 0x10] = .ok (.assign .S, [0x10]) := by decide
theorem test_word_SOLVE : decodeCommandPort Params.default .S [0x08, 0x00, 0xC8, 0x00, 0x00] = .ok (.solve .S 0x00C80000, []) := by decide
theorem test_word_SETFREQ : decodeCommandPort Params.default .S [0x09, 0x01, 0x90, 0x00, 0x00] = .ok (.setfreq .S 0x01900000, []) := by decide
theorem test_word_SUBMIT :
    decodeCommandPort Params.default .S [0x0A, 0, 0, 0, 0x0B, 0x20, 0, 0, 0x04] = .ok (.submit .S 0xB 0x20000004, []) := by decide
theorem test_word_MARK_VALID : decodeCommandPort Params.default .S [0x0B, 0x7F] = .ok (.markValid .S 127, []) := by decide
theorem test_word_MARK_VALID_wide : decodeCommandPort Params.default .S [0x0B, 0x80] = .error (.wideOperand 0x80) := by decide
theorem test_word_IS_VALID : decodeCommandPort Params.default .R [0x0C, 0x18] = .ok (.isValid .R 24, []) := by decide
theorem test_word_TAKE : decodeCommandPort Params.default .R [0x0D, 0x18] = .ok (.take .R 24, []) := by decide
theorem test_word_PARSE :
    decodeCommandPort Params.default .R [0x0E, 0xAA, 0x55, 2, 0, 0, 0, 0, 0x31, 0, 4, 0] = .ok (.parse .R (record 2 0 0 0 0x31 0 4), []) := by
  decide
theorem test_word_RESULT : decodeCommandPort Params.default .R [0x0F] = .ok (.result .R, []) := by decide
theorem test_word_INIT_STEP : decodeCommandPort Params.default .S [0x10] = .ok (.initStep .S, []) := by decide
theorem test_word_RESERVED :
    [0x11, 0x12, 0x13, 0x14, 0x15, 0x16, 0x17, 0x18, 0x19, 0x1A, 0x1B, 0x1C, 0x1D, 0x1E, 0x1F].map
        (fun b : Byte => decodeCommandPort Params.default .S [b]) =
      [Instr.reserved11 .S, .reserved12 .S, .reserved13 .S, .reserved14 .S, .reserved15 .S, .reserved16 .S, .reserved17 .S,
        .reserved18 .S, .reserved19 .S, .reserved1A .S, .reserved1B .S, .reserved1C .S, .reserved1D .S, .reserved1E .S,
        .reserved1F .S].map fun i => .ok (i, []) := by decide
/-- V34's frame. -/
theorem test_word_FRAME_COMMAND :
    decodeCommandPort Params.default .S [0x55, 0xAA, 0x51, 0x05, 0x55, 0xAA, 0x1F] = .ok (.frameCommand .S 0x51 0x05 [0x55, 0xAA, 0x1F], []) := by
  decide
/-- V32's frame. -/
theorem test_word_FRAME_JOB :
    decodeCommandPort Params.default .S [0x55, 0xAA, 0x21, 0x05, 0xAB, 0x86, 0x1E, 0x07] =
      .ok (.frameJob .S 0x21 0x05 [0xAB, 0x86, 0x1E], [0x07]) := by decide
/-- R55's table: 0x52 is command flag, group, command 2. -/
theorem test_word_HEADER : decodeCommandPort Params.default .S [0x80, 0x52] = .ok (.header .S false true false true 2, []) := by decide
theorem test_word_READID : decodeCommandPort Params.default .S [0x55, 0xAA, 0x52, 0x05, 0x00, 0x00, 0x0A] = .ok (.readid .S 0x0A, []) := by decide
/-- V90's second frame. -/
theorem test_word_SETADDR : decodeCommandPort Params.default .S [0x55, 0xAA, 0x40, 0x05, 0x55, 0x00, 0x0A] = .ok (.setaddr .S 0x55 0x0A, []) := by
  decide
/-- V55's frame: `fb` 201, `refdiv` 1, post dividers 5 and 5, `hf` 1. -/
theorem test_word_PLLWRITE :
    decodeCommandPort Params.default .S [0x55, 0xAA, 0x51, 0x09, 0x00, 0x08, 0x50, 0xC9, 0x01, 0x44, 0x1A] =
      .ok (.pllwrite .S true 201 1 4 4 0x1A, []) := by decide
theorem test_word_JOBPAYLOAD_LAYOUT :
    decodeCommandPort Params.default .S ([0x81, 0x18, 0x01, 0, 0, 0, 0, 0x17, 0x05, 0xAE, 0x3A, 0x64, 0x70, 0x25, 0xB5]
      ++ (hash 0).toList ++ (hash 32).toList ++ [0x20, 0, 0, 0]) = .ok (.jobpayloadLayout .S jobV30, []) := by decide +kernel
/-- V113's record. -/
theorem test_word_RESULT_RECORD :
    decodeCommandPort Params.default .R [0x82, 0xAA, 0x55, 0xFE, 0xDC, 0xBA, 0x98, 0x01, 0xF7, 0xFF, 0xFF, 0x1F] =
      .ok (.resultRecord .R ⟨0xAA55, 0xFEDCBA98, 0x01, 0xF7, 0xFFFF, 0x1F⟩, []) := by decide
theorem test_word_ID_RECORD :
    decodeCommandPort Params.default .S [0x83, 0xAA, 0x55, 0x13, 0x66, 0x01, 0x09, 0x00] = .ok (.idRecord .S 0xAA55 0x1366 [0x09], []) := by decide
theorem test_word_not_an_operation : decodeCommandPort Params.default .S [0x20] = .error (.notAnOperation 0x20) := by decide
theorem test_table_words :
    decodeTableWord 8 0x0A = some (.submit .S 0 0) ∧ decodeTableWord 8 0x0C = some (.isValid .R 0) ∧
      decodeTableWord 56 0x55AA400555000A = some (.setaddr .S 0x55 0x0A) := by decide +kernel
theorem test_fetch_word :
    (match step (State.reset.withFetchWord 8 0x10) with | .next t => some t.portS.cur | _ => none) =
      some none := by decide +kernel

/-! ### One step -/

/-- V15, V139. -/
theorem test_CRC5 : response (.crc5 .R [0x52, 0x05, 0x00, 0x00]) (live [] []) = ok (.crc5 0x0A) := by decide +kernel
/-- V18. -/
theorem test_CRC5_eight_bytes :
    response (.crc5 .S [0x51, 0x09, 0x00, 0xA4, 0x90, 0x00, 0xFF, 0xFF]) (live [] []) = ok (.crc5 0x1C) := by decide +kernel
/-- V28. -/
theorem test_CRC16 : response (.crc16 .S [0x21, 0x05, 0xAB]) (live [] []) = ok (.crc16 0x861E) := by decide +kernel
/-- V29. -/
theorem test_CRC16_residue : response (.crc16 .S [0x21, 0x05, 0xAB, 0x86, 0x1E]) (live [] []) = ok (.crc16 0) := by decide +kernel
/-- V32. -/
theorem test_ENCODE :
    response (.encode .S 0x21 [0xAB]) (live [] []) = ok (.bytes [0x55, 0xAA, 0x21, 0x05, 0xAB, 0x86, 0x1E]) := by decide +kernel
/-- V36, V38. -/
theorem test_ENCODE_too_long :
    response (.encode .S 0x51 (List.replicate 253 0)) (live [] []) = some ⟨.refusedOperand, .empty⟩ ∧
      response (.encode .S 0x21 (List.replicate 252 0)) (live [] []) = some ⟨.refusedOperand, .empty⟩ := by decide +kernel
/-- V132, V135. -/
theorem test_DECODE :
    response (.decode .R [0x55, 0xAA, 0x21, 0x05, 0xAB, 0x86, 0x1E]) (live [] []) = ok (.decoded 0x21 [0xAB]) ∧
      response (.decode .S [0x55, 0xAA, 0x52, 0x03, 0x06]) (live [] []) = ok (.decoded 0x52 []) := by decide +kernel
/-- V75, V76, V77, V79, V130, V134. -/
theorem test_DECODE_failures :
    [[0x55, 0xAA, 0x52, 0x05, 0x00, 0x00, 0x2A], [0x55, 0xAA, 0x52, 0x06, 0x00, 0x00, 0x0A], [0xAA, 0x55, 0x52, 0x05, 0x00, 0x00, 0x0A],
        [0x55, 0xAA, 0x52, 0x05], [0x55, 0xAA, 0x21, 0x04, 0x68], [0xAA, 0x55, 0x52, 0x06, 0x00, 0x00, 0x0B]].map
      (fun B : Bytes => response (.decode .S B) (live [] [])) =
    [Status.frameChecksum, .frameLength, .framePreamble, .frameLength, .frameLength, .framePreamble].map fun x => some ⟨x, .empty⟩ := by
  decide +kernel
/-- The first and the last bytes of V30's payload. -/
theorem test_JOBPAYLOAD :
    (match response (.jobpayload .S jobV30) (live [] []) with
      | some ⟨.ok, .bytes P⟩ => some (P.take 16, P.drop 74) | _ => none) =
      some ([0x18, 0x01, 0x00, 0x00, 0x00, 0x00, 0x17, 0x05, 0xAE, 0x3A, 0x64, 0x70, 0x25, 0xB5, 0x00, 0x01],
        [0x3C, 0x3D, 0x3E, 0x3F, 0x20, 0x00, 0x00, 0x00]) := by decide +kernel
/-- The same payload from the layout row. -/
theorem test_JOBPAYLOAD_LAYOUT :
    response (.jobpayloadLayout .S jobV30) (live [] []) = response (.jobpayload .S jobV30) (live [] []) := by decide +kernel
theorem test_SETADDR : frames (.setaddr .S 0x55 0x0A) (live [true] []) = some [[0x55, 0xAA, 0x40, 0x05, 0x55, 0x00, 0x0A]] := by
  decide +kernel
theorem test_FRAMES :
    frames (.frameCommand .S 0x51 0x05 [0x55, 0xAA, 0x1F]) (live [true] []) = some [[0x55, 0xAA, 0x51, 0x05, 0x55, 0xAA, 0x1F]] ∧
      frames (.frameJob .S 0x21 0x05 [0xAB, 0x86, 0x1E]) (live [true] []) = some [[0x55, 0xAA, 0x21, 0x05, 0xAB, 0x86, 0x1E]] := by
  decide +kernel
theorem test_SEND : frames (.send .S [0x01, 0x02]) (live [true] []) = some [[0x01, 0x02]] ∧
    response (.send .S [0x01, 0x02]) (live [false] []) = ok (.sent false) := by decide +kernel
/-- V82. -/
theorem test_ENUMERATE :
    (run (.enumerate .S 4 0x1366 11)
        (inState .versionMaskSet 0 [true] [nonMatching, matching, nonMatching, matching, .failure, matching])).map
      (fun t => (t.eng.chipCount, t.eng.initState, t.env.rxAns.length, t.env.txLog)) =
    some (2, .identityVerified, 1, [[0x55, 0xAA, 0x52, 0x05, 0x00, 0x00, 0x0A]]) := by decide +kernel
/-- V85. -/
theorem test_ENUMERATE_none :
    (run (.enumerate .S 0 0x1366 11) (inState .versionMaskSet 0 [true] [matching])).map
      (fun t => (t.eng.chipCount, t.eng.initState, t.eng.failReason, t.env.rxAns.length, t.portS.rsp)) =
    some (0, .failed, .noChips, 1, [⟨.chainNotReady, .enumerated 0 true⟩]) := by decide +kernel
/-- V90. -/
theorem test_ASSIGN :
    frames (.assign .S) (inState .identityVerified 3 [true, true, true] []) =
      some [[0x55, 0xAA, 0x40, 0x05, 0x00, 0x00, 0x1C], [0x55, 0xAA, 0x40, 0x05, 0x55, 0x00, 0x0A],
        [0x55, 0xAA, 0x40, 0x05, 0xAA, 0x00, 0x15]] := by decide +kernel
/-- V98, V99. -/
theorem test_ASSIGN_states :
    response (.assign .S) (inState .failed 0 [] []) = some ⟨.refusedSequence, .initState .failed⟩ ∧
      (run (.assign .S) (inState .clockRamped 1 [true] [])).map (·.eng.initState) = some .clockRamped := by decide +kernel
/-- V55, V47. -/
theorem test_SOLVE :
    response (.solve .S 0x00C90000) (live [] []) = ok (.solved ⟨201, 1, 5, 5, true, 5025, 25⟩) ∧
      response (.solve .S 0x002BC000) (live [] []) = ok (.solved ⟨172, 2, 7, 7, false, 4300, 98⟩) := by decide +kernel
/-- V60, V61. -/
theorem test_SOLVE_ceiling :
    response (.solve .S 0x07D0FFFF) (live [] []) = ok (.solved ⟨160, 2, 1, 1, false, 4000, 2⟩) ∧
      response (.solve .S 0x07D10000) (live [] []) = some ⟨.notFound, .empty⟩ := by decide +kernel
/-- V40. -/
theorem test_SETFREQ :
    frames (.setfreq .S 0x00C80000) (live [true] []) =
      some [[0x55, 0xAA, 0x51, 0x09, 0x00, 0x08, 0x50, 0xE0, 0x02, 0x61, 0x0A]] := by decide +kernel
/-- V67. -/
theorem test_SETFREQ_not_found : frames (.setfreq .S 0x0000028F) (live [true] []) = some [] := by decide +kernel
/-- V101. -/
theorem test_SUBMIT :
    (run (.submit .S 0xB 0x20000004) (live [] [])).map (fun t => (t.eng.nextId, t.slot 24, t.slot 0 == (live [] []).slot 0, t.portS.rsp)) =
      some (48, ⟨true, true, 0xB, 0x20000004⟩, true, [⟨.ok, .submitted 24 none⟩]) := by decide +kernel
/-- V106: the handle of an occupied slot is released; V110: 104 is followed by 0. -/
theorem test_SUBMIT_release :
    (run (.submit .S 0x110 5) ((withSlot 104 ⟨true, true, 0x100, 7⟩).setNextId 104)).map
      (fun t => (t.eng.nextId, t.env.released, t.portS.rsp)) =
      some (0, [0x100], [⟨.ok, .submitted 104 (some 0x100)⟩]) := by decide +kernel
/-- V104. -/
theorem test_MARK_VALID :
    (run (.markValid .S 25) (live [] [])).map (fun t => ((t.slot 25).valid, (t.slot 25).occupied, (t.slot 24).valid)) =
      some (true, false, false) := by decide +kernel
/-- V102. -/
theorem test_IS_VALID :
    response (.isValid .R 0) (live [] []) = ok (.validity true) ∧ response (.isValid .R 25) (live [] []) = ok (.validity false) := by
  decide +kernel
/-- V103. -/
theorem test_TAKE :
    response (.take .R 0) (live [] []) = ok (.taken 0xA 0x20000000) ∧
      response (.take .R 48) (live [] []) = some ⟨.slotEmpty, .jobId 48⟩ := by decide +kernel
/-- V113, V116. -/
theorem test_PARSE :
    response (.parse .R (record 0xFE 0xDC 0xBA 0x98 0xF7 0xFF 0xFF)) (withSlot 120 ⟨true, true, 1, 0x20000000⟩) =
        ok (.parsed ⟨120, 127, 7, 0xFEDCBA98, [0xFE, 0xDC, 0xBA, 0x98], 0x3FFFE000⟩) ∧
      response (.parse .R (record 0 0 0 0 0x61 0 1)) (withSlot 48 ⟨true, true, 1, 0x2000⟩) =
        ok (.parsed ⟨48, 0, 1, 0, [0, 0, 0, 0], 0x2000⟩) := by decide +kernel
/-- V117, V105. -/
theorem test_PARSE_rejected :
    response (.parse .R (record 0 0 0 0 0x61 0 1)) (withSlot 48 ⟨false, true, 1, 0x2000⟩) = some ⟨.rejected, .jobId 48⟩ ∧
      response (.parse .R (record 2 0 0 0 0x31 0 4)) (withSlot 24 ⟨true, false, 0, 0⟩) = some ⟨.slotEmpty, .jobId 24⟩ := by
  decide +kernel
/-- V114 through the transport. -/
theorem test_RESULT :
    response (.result .R) { withSlot 0 ⟨true, true, 1, 0x20000004⟩ with
        env := { txAns := [], rxAns := [.bytes (record 0x9E 0 0 1 0x0F 0x12 0x34).toList], txLog := [], released := [] } } =
      ok (.parsed ⟨0, 79, 15, 0x9E000001, [0x9E, 0, 0, 1], 0x22468004⟩) := by decide +kernel
/-- V119. -/
theorem test_RESULT_failure : response (.result .R) (live [] [.failure]) = some ⟨.noResult, .empty⟩ := by decide +kernel
/-- V129. -/
theorem test_INIT_STEP :
    (run (.initStep .S) { inState .poweredOn 0 [false] [] with
        initSeq := [⟨.poweredOn, 0, [⟨0x51, [0x00, 0xA4, 0x90, 0x00, 0xFF, 0xFF]⟩]⟩] }).map
      (fun t => (t.eng.initState, t.env.txLog, t.portS.rsp)) =
    some (.versionMaskSet, [[0x55, 0xAA, 0x51, 0x09, 0x00, 0xA4, 0x90, 0x00, 0xFF, 0xFF, 0x1C]],
      [⟨.ok, .stepped .versionMaskSet false⟩]) := by decide +kernel
/-- V121 to V128. -/
theorem test_INIT_STEP_states :
    [InitState.versionMaskSet, .identityVerified, .chipsAddressed, .ready, .failed].map
      (fun x => response (.initStep .S) (inState x 3 [] [])) =
    [some ⟨.refusedSequence, .initState .versionMaskSet⟩, some ⟨.refusedSequence, .initState .identityVerified⟩,
      some ⟨.ok, .stepped .coreRegistersConfigured true⟩, some ⟨.refusedSequence, .initState .ready⟩,
      some ⟨.refusedSequence, .initState .failed⟩] := by decide +kernel
/-- V136 to V138. -/
theorem test_ports :
    response (.reserved11 .S) (live [] []) = some ⟨.refusedOpcode, .empty⟩ ∧
      response (.submit .R 0xA 1) (live [] []) = some ⟨.refusedOpcode, .empty⟩ ∧
      response (.parse .S (record 0 0 0 0 0 0 0)) (live [] []) = some ⟨.refusedOpcode, .empty⟩ := by decide +kernel
theorem test_HEADER : response (.header .S false false true false 1) (live [] []) = ok (.headerByte 0x21 true) := by decide +kernel
theorem test_READID : frames (.readid .S 0x0A) (live [true] []) = some [[0x55, 0xAA, 0x52, 0x05, 0x00, 0x00, 0x0A]] := by decide +kernel
theorem test_PLLWRITE :
    frames (.pllwrite .S true 201 1 4 4 0x1A) (live [true] []) =
      some [[0x55, 0xAA, 0x51, 0x09, 0x00, 0x08, 0x50, 0xC9, 0x01, 0x44, 0x1A]] := by decide +kernel
/-- V113. -/
theorem test_RESULT_RECORD :
    response (.resultRecord .R ⟨0xAA55, 0xFEDCBA98, 0x01, 0xF7, 0xFFFF, 0x1F⟩) (withSlot 120 ⟨true, true, 1, 0x20000000⟩) =
      ok (.parsed ⟨120, 127, 7, 0xFEDCBA98, [0xFE, 0xDC, 0xBA, 0x98], 0x3FFFE000⟩) := by decide +kernel
theorem test_ID_RECORD : response (.idRecord .S 0xAA55 0x1366 [0x09]) (live [] []) = ok (.chipId 0x1366) := by decide +kernel

/-! ### The two ports at once (P5) -/

/-- `SLOT[24]` holds a WorkUnit; port `R` has parsed a record for it up to p4. -/
def cut : State :=
  { withSlot 24 ⟨true, true, 0x100, 0x20000000⟩ with
    portR := { cmd := [], cur := some (.parse4 24 0 1 0 [0, 0, 0, 0] 1), rsp := [] } }

/-- The results of the rest of that `PARSE`, before and after a `SUBMIT` of another version to the same slot. -/
theorem test_P5 :
    (match step { cut with turn := .R } with | .next t => t.portR.rsp | _ => []) =
        [⟨.ok, .parsed ⟨24, 0, 1, 0, [0, 0, 0, 0], 0x20002000⟩⟩] ∧
      (((run (.submit .S 0x110 0x3FFFE000) cut).map fun t => match step { t with turn := .R } with
        | .next u => u.portR.rsp | _ => []) = some [⟨.ok, .parsed ⟨24, 0, 1, 0, [0, 0, 0, 0], 0x3FFFE000⟩⟩]) := by decide +kernel

/-! ### Hypotheses that are met: for each statement for the provers, a state and operands, clause by clause -/

/-- `live` with an operation presented on port `S`. -/
def asked (bs : Bytes) : State := { live [] [] with portS := { cmd := bs, cur := none, rsp := [] } }

/-- `live` with `SUBMIT` stopped after m1 on port `S`. -/
def stopped : State := { live [] [] with portS := { cmd := [], cur := some (.submit2 0 1 2), rsp := [] } }

theorem witness_StepRunsTheDecodedOperation :
    ({ live [] [] with resetReq := true } : State).resetsNow = true ∧
      (stopped.resetsNow = false ∧ (stopped.port stopped.nextTurn.turn).cur = some (.submit2 0 1 2)) ∧
      ((asked [0x10]).resetsNow = false ∧ ((asked [0x10]).port (asked [0x10]).nextTurn.turn).cur = none ∧
        decodeCommandPort Params.default .S [0x10] = .ok (.initStep .S, [])) ∧
      decodeCommandPort Params.default .S [] = .error .incomplete ∧
      decodeCommandPort Params.default .S [0x84] = .error (.notAnOperation 0x84) := by decide +kernel

theorem witness_ResetEventSetsTheRegisters :
    (({ live [] [] with resetReq := true } : State).resetReq = true ∧ (live [] []).portS.cur = none ∧
      (live [] []).portR.cur = none) ∧
    (stopped.portS.cur ≠ none ∧ ∃ t, step { stopped with resetReq := true } = .next t) :=
  ⟨by decide +kernel, by decide +kernel, _, rfl⟩

/-- Parameters other than R9's. -/
def other : Params :=
  { Params.default with
    lenOffCmd := 1, lenOffJob := 2, crc5Poly := 0x15, crc16Poly := 0x8005, crc16Init := 0, hdrJobFlag := 0x80, hdrReadid := 0x12
    readidPayload := [0x07], idOffset := 4, pllFrac := 10, wuW := 12 }

theorem witness_DecodeEncodeRoundTrip :
    WellFormed Params.default (.readid .S 0x0A) ∧ WellFormed Params.default (.setaddr .S 0x80 0x10) ∧ WellFormed Params.default (.pllwrite .S true 0xEF 2 0 0 0x05) ∧
      WellFormed Params.default (.pllwrite .S false 0xA0 2 6 6 0x1E) ∧ WellFormed Params.default (.frameCommand .S 0x52 0x03 [0x06]) ∧
      WellFormed Params.default (.frameJob .S 0x21 0x04 [0x68, 0x5C]) ∧ WellFormed Params.default (.idRecord .S 0 0 (List.replicate 251 0)) ∧
      WellFormed Params.default (.take .R 127) ∧ WellFormed Params.default (.submit .S 0xFFFFFFFF 0) ∧
      WellFormed other (.submit .S 0xFFF 0) ∧ WellFormed other (.readid .S 0x16) ∧
      WellFormed other (.frameJob .S 0x80 0x02 [0x00, 0x06]) := by decide +kernel

theorem witness_BitFlips :
    (Params.default.crc5Poly.getLsbD 0 = true ∧ Params.default.crc16Poly.getLsbD 0 = true ∧ other.crc5Poly.getLsbD 0 = true ∧
      other.crc16Poly.getLsbD 0 = true) ∧
    crc5 Params.default ([0x52, 0x05] ++ (0x00 ^^^ BitVec.twoPow 8 7) :: [0x00]) = 0x06 ∧
      crc5 Params.default ([0x52, 0x05, 0x00] ++ (0x00 ^^^ BitVec.twoPow 8 0) :: []) = 0x0F ∧
      crc16 Params.default ([0x21, 0x05] ++ (0xAB ^^^ BitVec.twoPow 8 0) :: []) = 0x963F := by decide +kernel

theorem witness_EncodeBuildsTheFrame :
    ((0x21 : Byte) &&& (live [] []).params.hdrJobFlag ≠ 0 ∧ (List.replicate 251 (0 : Byte)).length + (live [] []).params.lenOffJob ≤ 255) ∧
      ((0x52 : Byte) &&& (live [] []).params.hdrJobFlag = 0 ∧ (List.replicate 252 (0 : Byte)).length + (live [] []).params.lenOffCmd ≤ 255) ∧
      255 < (List.replicate 252 (0 : Byte)).length + (live [] []).params.lenOffJob ∧
      255 < (List.replicate 253 (0 : Byte)).length + (live [] []).params.lenOffCmd ∧ (live [] []).params = Params.default := by decide +kernel

theorem witness_DecodeReportsTheFirstFailure :
    ([0x55] : Bytes).take 2 ≠ [0x55, 0xAA] ∧
      (([0x55, 0xAA, 0x52] : Bytes).take 2 = [0x55, 0xAA] ∧ ([0x55, 0xAA, 0x52] : Bytes).length < 4) ∧
      ((0x21 : Byte) &&& (live [] []).params.hdrJobFlag ≠ 0 ∧ ([0x68] : Bytes).length < 2) ∧
      ((0x52 : Byte) &&& (live [] []).params.hdrJobFlag = 0 ∧ ([] : Bytes).length < 1) ∧
      (0x06 : Byte).toNat ≠ ([0x00, 0x00, 0x0A] : Bytes).length - 1 + (live [] []).params.lenOffCmd ∧
      (0x06 : Byte).toNat ≠ ([0xAB, 0x86, 0x1E] : Bytes).length - 2 + (live [] []).params.lenOffJob ∧
      ((0x05 : Byte).toNat = ([0xAB] : Bytes).length + (live [] []).params.lenOffJob ∧
        (0x86 : Byte) ++ (0x1E : Byte) = crc16 (live [] []).params ([0x21, 0x05] ++ [0xAB]) ∧
        (0x86 : Byte) ++ (0x1F : Byte) ≠ crc16 (live [] []).params ([0x21, 0x05] ++ [0xAB])) ∧
      ((0x03 : Byte).toNat = ([] : Bytes).length + (live [] []).params.lenOffCmd ∧
        (0x06 : Byte) = (crc5 (live [] []).params ([0x52, 0x03] ++ [])).setWidth 8 ∧
        (0x26 : Byte) ≠ (crc5 (live [] []).params ([0x52, 0x03] ++ [])).setWidth 8) ∧
      ((live [] []).params = Params.default ∧ (0x06 : Byte).toNat ≠ ([0x55, 0xAA, 0x52, 0x06, 0x00, 0x00, 0x0A] : Bytes).length - 2) := by
  decide +kernel

theorem witness_FramingRoundTrip :
    (List.replicate 251 (0 : Byte)).length +
        (if (0x21 : Byte) &&& (live [] []).params.hdrJobFlag ≠ 0 then (live [] []).params.lenOffJob else (live [] []).params.lenOffCmd) ≤ 255 ∧
      (List.replicate 252 (0 : Byte)).length +
        (if (0x52 : Byte) &&& (live [] []).params.hdrJobFlag ≠ 0 then (live [] []).params.lenOffJob else (live [] []).params.lenOffCmd) ≤ 255 ∧
      (live [true] []).params = (live [] []).params := by decide +kernel

theorem witness_JobPayloadLayoutRowIsAssembled :
    (0x21 : Byte) &&& (live [] []).params.hdrJobFlag ≠ 0 ∧ 82 + (live [] []).params.lenOffJob ≤ 255 := by decide +kernel

theorem witness_DecodeAcceptsOnlyEncodedFrames :
    exec (.decode .R [0x55, 0xAA, 0x52, 0x03, 0x06]) (live [] []) = .next ((live [] []).answer .R .ok (.decoded 0x52 [])) := by
  simp only [exec, execDecode, answerDecode, show decodeFrame (live [] []).params [0x55, 0xAA, 0x52, 0x03, 0x06] = .accepted 0x52 [] by decide +kernel]

/-- The hypotheses of the statements about operations that send one frame. -/
theorem witness_sending : (live [true, false] []).sched = [] ∧ (live [true, false] []).env.txAns = true :: [false] := by decide +kernel

/-- An operation that has handed a frame over, with one more to hand over. -/
def waiting (l : List Port) : State := { (live [] []).suspend .S (.txWait [[0x01]] false .send) with sched := l }

/-- A frame handed over and not yet answered, with no switch of port ordered and with one ordered after this turn. -/
theorem witness_SendWaitsForTheTransport :
    ((live [] []).sched = [] ∧ (live [] []).env.txAns = []) ∧
      (waiting []).nextTurn.turn = .S ∧ (waiting [.S, .R]).nextTurn.turn = .S ∧ (waiting [.S, .R]).env.txAns = [] ∧
      (waiting [.S, .R]).portS.cur = some (.txWait [[0x01]] false .send) := by decide +kernel

theorem witness_WellFormedFrameRowsAreEncoded :
    WellFormed Params.default (.frameCommand .S 0x51 0x05 [0x55, 0xAA, 0x1F]) ∧ WellFormed Params.default (.frameJob .S 0x21 0x05 [0xAB, 0x86, 0x1E]) ∧
      WellFormed Params.default (.readid .R 0x0A) ∧ WellFormed Params.default (.setaddr .S 0xCC 0x12) ∧ WellFormed Params.default (.pllwrite .S true 201 1 4 4 0x1A) := by
  decide +kernel

def response11 (a b : Byte) : Vector Byte (11 : BitVec 8).toNat := #v[0xAA, 0x55, a, b, 0, 0, 0, 0, 0, 0, 0]

/-- Both ends of the count: a failure while it is short (also at once), and the count reached (also `exp_count` = 0). -/
theorem witness_EnumerateCountsMatchingResponses :
    ((inState .versionMaskSet 0 [true] []).sched = [] ∧ (inState .versionMaskSet 0 [true] []).eng.initState = .versionMaskSet ∧
      4 ≤ (11 : BitVec 8).toNat ∧ 4 ≤ (4 : BitVec 8).toNat) ∧
    (inState .versionMaskSet 0 [true] [matching, .failure]).env.rxAns =
      [response11 0x13 0x66].map (fun B => RxAnswer.bytes B.toList) ++ [.failure] ∧
    ([response11 0x13 0x66].countP (matchesId Params.default 0x1366) < (2 : BitVec 8).toNat) ∧
    (([] : List (Vector Byte 11)).countP (matchesId Params.default 0x1366) < (1 : BitVec 8).toNat) ∧
    ([response11 0x13 0x97, response11 0x13 0x66].countP (matchesId Params.default 0x1366) = (1 : BitVec 8).toNat) ∧
    (([] : List (Vector Byte 11)).countP (matchesId Params.default 0x1366) = (0 : BitVec 8).toNat) ∧
    (∀ (l : List (Vector Byte (11 : BitVec 8).toNat)) B, [response11 0x13 0x97, response11 0x13 0x66] = l ++ [B] →
      matchesId Params.default 0x1366 B = true) := by
  refine ⟨by decide +kernel, by decide +kernel, by decide +kernel, by decide +kernel, by decide +kernel, by decide +kernel, ?_⟩
  intro l B h
  have : B = response11 0x13 0x66 := by
    have h2 := congrArg List.getLast? h
    simpa using h2.symm
  subst this
  decide +kernel

/-- Parameters with which `encode` refuses every payload of two bytes or more. -/
def tooLong : Params := { Params.default with lenOffCmd := 254 }

theorem witness_EnumerateCountsMatchingResponses_refused :
    (live [] []).eng.initState ≠ .versionMaskSet ∧ (inState .versionMaskSet 0 [] []).eng.initState = .versionMaskSet ∧
      (3 : BitVec 8).toNat < (inState .versionMaskSet 0 [] []).params.idOffset + 2 ∧
      (inState .versionMaskSet 0 [] []).params.idOffset + 2 ≤ (4 : BitVec 8).toNat ∧
      encodeFrame Params.default Params.default.hdrReadid Params.default.readidPayload = some [0x55, 0xAA, 0x52, 0x05, 0x00, 0x00, 0x0A] ∧
      encodeFrame tooLong tooLong.hdrReadid tooLong.readidPayload = none := by decide +kernel

theorem witness_AssignSendsOneFramePerChip :
    (∃ s : State, s.sched = [] ∧ s.eng.initState ≠ .poweredOn ∧ s.eng.initState ≠ .versionMaskSet ∧ s.eng.initState ≠ .failed ∧
      ((List.range s.eng.chipCount.toNat).map fun i =>
        encodeFrame s.params s.params.hdrSetaddr [BitVec.ofNat 8 (i * (256 / s.eng.chipCount.toNat)), 0x00]) =
        [[0x55, 0xAA, 0x40, 0x05, 0x00, 0x00, 0x1C], [0x55, 0xAA, 0x40, 0x05, 0x80, 0x00, 0x10]].map some ∧
      s.env.txAns = [true, false] ++ [true]) ∧
    (inState .poweredOn 0 [] []).eng.initState = .poweredOn ∧ (inState .versionMaskSet 0 [] []).eng.initState = .versionMaskSet ∧
      (inState .failed 0 [] []).eng.initState = .failed :=
  ⟨⟨inState .identityVerified 2 [true, false, true] [], by decide +kernel⟩, by decide +kernel⟩

theorem witness_AssignSendsOneFramePerChip_refused :
    (live [] []).eng.chipCount ≠ 0 ∧ ∀ x : Byte, encodeFrame tooLong tooLong.hdrSetaddr [x, 0x00] = none :=
  ⟨by decide +kernel, fun _ => rfl⟩

/-- The identifier of an `ID_RECORD` in R9's place; at the end of the record; and beyond it. -/
theorem witness_HeaderAndIdRecordRowsAnswer :
    (live [] []).params = Params.default ∧ (live [] []).params.idOffset = 2 ∧ other.idOffset + 2 ≤ ([0x01, 0x02] : Bytes).length + 4 ∧
      ([0x01] : Bytes).length + 4 < other.idOffset + 2 := by decide +kernel

theorem witness_ChipAddressesAscend :
    (1 ≤ 1 ∧ 1 ≤ 255) ∧ (1 ≤ 255 ∧ 255 ≤ 255 ∧ 253 < 254 ∧ 254 < 255) ∧ (chipAddress 254 255).toNat = 254 := by decide +kernel

/-- For the target 0 no combination is acceptable. -/
theorem witness_Solve_none : ∀ r a b, ¬ acceptable Params.default 0 r a b := by
  rintro r a b ⟨-, h, -⟩
  have : roundedFeedback Params.default 0 (r * a * b) = 0 := by
    simp only [roundedFeedback, target]
    norm_num
  omega

/-- At 5975 MHz only `refdiv` = `post1` = `post2` = 1 keeps the feedback divider in range. -/
theorem feedback_5975 (m : Nat) : roundedFeedback Params.default 0x17570000 m = 239 * m := by
  have : (m : ℚ) * target Params.default 0x17570000 / 25 + 1 / 2 = ((239 * m : Nat) : ℚ) + 1 / 2 := by
    rw [target, show (0x17570000 : BitVec 32).toNat = 391577600 from rfl, show Params.default.pllFrac = 16 from rfl]
    push_cast; ring
  rw [roundedFeedback, this, Nat.floor_eq_iff (by positivity)]
  constructor <;> linarith

/-- V64: the one acceptable combination is the closest and the first. -/
theorem witness_Solve_some : acceptable Params.default 0x17570000 1 1 1 ∧ ∀ r' a' b', acceptable Params.default 0x17570000 r' a' b' →
    difference Params.default 0x17570000 (1 * 1 * 1) < difference Params.default 0x17570000 (r' * a' * b') ∨
      (difference Params.default 0x17570000 (1 * 1 * 1) = difference Params.default 0x17570000 (r' * a' * b') ∧ notAfter 1 1 1 r' a' b') := by
  constructor
  · refine ⟨⟨.inl rfl, by decide, by decide, by decide⟩, by rw [feedback_5975]; decide, by rw [feedback_5975], ?_⟩
    rw [difference, feedback_5975, target, achieved, show (0x17570000 : BitVec 32).toNat = 391577600 from rfl,
      show Params.default.pllFrac = 16 from rfl]
    norm_num
  · rintro r a b ⟨⟨-, hb, hab, -⟩, h1, h2, -⟩
    rw [feedback_5975] at h1 h2
    have hm : r * a * b = 1 := by omega
    have hra : r * a = 1 := Nat.dvd_one.1 ⟨b, hm.symm⟩
    obtain rfl : b = 1 := by simpa [hra] using hm
    obtain rfl : r = 1 := Nat.dvd_one.1 ⟨a, hra.symm⟩
    obtain rfl : a = 1 := by simpa using hra
    exact .inr ⟨rfl, .inr ⟨rfl, .inr ⟨rfl, le_refl _⟩⟩⟩

theorem witness_TargetsOutOfReachAreNotFound :
    target Params.default 0x27D0D1 ≤ 3902 / 98 ∧ 5976 ≤ target Params.default 0x17580000 := by
  constructor <;> rw [target, show Params.default.pllFrac = 16 from rfl]
  · rw [show (0x27D0D1 : BitVec 32).toNat = 2609361 from rfl]; norm_num
  · rw [show (0x17580000 : BitVec 32).toNat = 391643136 from rfl]; norm_num

theorem witness_SetfreqSendsTheSolution (r : PllResult) :
    (encodeFrame Params.default Params.default.hdrWriteAll (solutionPayload Params.default r)).isSome = true ∧
      encodeFrame tooLong tooLong.hdrWriteAll (solutionPayload tooLong r) = none := ⟨rfl, rfl⟩

/-- The hypotheses of the statements about `SUBMIT`, `PARSE` and the flags; and `NEXT_ID` = 0 with an empty table. -/
theorem witness_slot_operations :
    ((live [] []).sched = [] ∧ (live [] []).eng.lock = .free) ∧
      ({ State.reset with turn := .R } : State).sched = [] ∧ ({ State.reset with turn := .R } : State).eng.lock = .free ∧
      ({ State.reset with turn := .R } : State).eng.nextId = 0 ∧
      (∀ j, (({ State.reset with turn := .R } : State).slot j).occupied = false) := by decide +kernel

theorem witness_TakeReadsTheSlot : ((live [] []).slot 0).occupied = true ∧ ((live [] []).slot 127).occupied = false := by
  decide +kernel

theorem witness_ResultReadsOneRecord :
    (live [] [.bytes (record 0 0 0 0 0 0 0).toList, .failure]).env.rxAns = .bytes (record 0 0 0 0 0 0 0).toList :: [.failure] ∧
      (live [] [.failure]).env.rxAns = .failure :: [] := by decide +kernel

theorem witness_UnexaminedRecordBytesDoNotMatter :
    let A : Vector Byte 11 := #v[0xAA, 0x55, 2, 0, 0, 0, 0, 0x31, 0, 4, 0]
    let B : Vector Byte 11 := #v[0, 0, 2, 0, 0, 0, 0xFF, 0x31, 0, 4, 0xFF]
    A ≠ B ∧ A[2] = B[2] ∧ A[3] = B[3] ∧ A[4] = B[4] ∧ A[5] = B[5] ∧ A[7] = B[7] ∧ A[8] = B[8] ∧ A[9] = B[9] := by decide +kernel

/-- The ends of the ranges of bits. -/
theorem witness_RolledVersionIsAnOr :
    (12 < 13 ∧ 29 ≤ 29 ∧ 15 < 16) ∧ (rolledVersion 0x10001000 0xFFFF).getLsbD 12 = true ∧
      (rolledVersion 0x20000000 0x0000).getLsbD 29 = true ∧ (rolledVersion 0 0x8000).getLsbD 28 = true := by decide +kernel

def sequenced : State :=
  { inState .clockRamped 3 [true, false] [] with initSeq := [⟨.clockRamped, 3, [⟨0x51, [0x00]⟩, ⟨0x21, []⟩]⟩] }

theorem witness_InitStepSendsItsFramesAndMoves :
    sequenced.sched = [] ∧
      (sequenced.eng.initState, InitState.ready) ∈ [(InitState.poweredOn, InitState.versionMaskSet),
        (.chipsAddressed, .coreRegistersConfigured), (.coreRegistersConfigured, .difficultyConfigured),
        (.difficultyConfigured, .clockRamped), (.clockRamped, .ready)] ∧
      (initFrames sequenced.initSeq sequenced.eng.initState sequenced.eng.chipCount).map (fun x => encodeFrame Params.default x.header x.payload) =
        [commandFrame Params.default 0x51 [0x00], jobFrame Params.default 0x21 []].map some ∧
      [true, false].length = [commandFrame Params.default 0x51 [0x00], jobFrame Params.default 0x21 []].length ∧ sequenced.env.txAns = [true, false] ++ [] := by
  decide +kernel

/-- A frame that `encode` refuses after one that it does not. -/
def refused : State :=
  { inState .poweredOn 0 [true] [] with initSeq := [⟨.poweredOn, 0, [⟨0x51, [0x00]⟩, ⟨0x51, List.replicate 253 0⟩]⟩] }

theorem witness_InitStepSendsItsFramesAndMoves_refused :
    ((inState .versionMaskSet 0 [] []).eng.initState = .versionMaskSet ∧ (inState .identityVerified 1 [] []).eng.initState = .identityVerified ∧
      (live [] []).eng.initState = .ready ∧ (inState .failed 0 [] []).eng.initState = .failed) ∧
    (refused.sched = [] ∧ refused.eng.initState = .poweredOn ∧
      initFrames refused.initSeq refused.eng.initState refused.eng.chipCount = [⟨0x51, [0x00]⟩] ++ ⟨0x51, List.replicate 253 0⟩ :: [] ∧
      [FrameSpec.mk 0x51 [0x00]].map (fun x => encodeFrame Params.default x.header x.payload) = [commandFrame Params.default 0x51 [0x00]].map some ∧
      encodeFrame Params.default 0x51 (List.replicate 253 0) = none ∧ [true].length = [commandFrame Params.default 0x51 [0x00]].length ∧
      refused.env.txAns = [true] ++ []) := by decide +kernel

theorem witness_ports :
    Instr.reserved1F .R ∈ [Instr.reserved11 .R, .reserved1F .R] ∧
      (sendOnly (.assign .R) = true ∧ (Instr.assign .R).port = .R) ∧ (receiveOnly (.result .S) = true ∧ (Instr.result .S).port = .S) := by
  decide +kernel

/-- The invariant holds of `live`, with `SUBMIT` stopped after m1 or not. -/
theorem witness_Inv (x : PortState) (h : x.cur = none ∨ x.cur = some (.submit2 0 1 2)) (y : PortState) (hy : y.cur = none) :
    Inv { live [] [] with portS := x, portR := y } where
  lockFree := rfl
  nextIdSpaced := by show (24 : BitVec 7).toNat % 8 = 0; decide
  occupiedSpaced := by
    show ∀ j, ((live [] []).slot j).occupied = true → j.toNat % 8 = 0
    decide +kernel
  occupiedValid := by
    have : ∀ j, ((live [] []).slot j).occupied = true → ((live [] []).slot j).valid = true := by decide +kernel
    exact fun j hj => .inl (this j hj)
  handlesFit := by
    show ∀ j, ((live [] []).slot j).wu < 2 ^ 32
    decide +kernel
  failedReason := by show FailReason.none = .noChips ↔ InitState.ready = .failed; decide
  countEnumerated := by show (3 : BitVec 8) ≠ 0 ↔ pastEnumeration .ready = true; decide
  portSOk := by
    intro t ht
    rcases h with h | h
    · rw [show x.cur = some t from ht] at h; cases h
    · rw [show x.cur = some t from ht] at h; cases h; exact ⟨by decide, by show 1 < 2 ^ 32; decide⟩
  portROk := by intro t ht; rw [show y.cur = some t from ht] at hy; cases hy

/-- A step of port `S` from a state in which the invariant holds and a flag is set; also what the statements about every step
ask. -/
theorem witness_step_S : Inv stopped ∧ stopped.resetsNow = false ∧ (∃ t, step stopped = .next t) ∧ (stopped.slot 0).valid = true ∧
    (stopped.slot 0).occupied = true :=
  ⟨witness_Inv _ (.inr rfl) _ rfl, by decide +kernel, ⟨_, rfl⟩, by decide +kernel⟩

/-- The same on port `R`, with `IS_VALID` presented. -/
def received : State := { live [] [] with portR := { cmd := [0x0C, 0x00], cur := none, rsp := [] }, turn := .R }

theorem witness_step_R : Inv received ∧ received.resetsNow = false ∧ received.nextTurn.turn = .R ∧ ∃ t, step received = .next t := by
  have h := witness_Inv (live [] []).portS (.inl rfl) received.portR rfl
  refine ⟨⟨h.1, h.2, h.3, h.4, h.5, h.6, h.7, h.8, h.9⟩, by decide +kernel, by decide +kernel, ?_⟩
  cases e : step received with
  | next t => exact ⟨t, rfl⟩
  | fault f => cases f
  | refused r =>
    have : (match step received with | .next _ => true | _ => false) = true := by decide +kernel
    rw [e] at this; cases this

theorem witness_ScheduleCutsSubmitBetweenMicroSteps :
    ({ live [] [] with sched := [.R] } : State).sched = .R :: [] ∧ ({ live [] [] with sched := [.S, .R] } : State).sched = .S :: .R :: [] ∧
      ({ live [] [] with sched := [.S, .S, .R] } : State).sched = .S :: .S :: .R :: [] := by decide +kernel

theorem witness_ParseCutBySubmitSeesTheNewVersion :
    cut.sched = [] ∧ cut.eng.lock = .free ∧ cut.resetReq = false ∧
      cut.portR.cur = some (.parse4 cut.eng.nextId 0 1 0 [0, 0, 0, 0] 1) ∧ (cut.slot cut.eng.nextId).occupied = true ∧
      ({ cut with turn := .R } : State).turn = .R := by decide +kernel

/-- Both ends of a payload that `SEND` takes: the empty string too is handed over as given. -/
theorem witness_send_empty : frames (.send .S []) (live [true] []) = some [[]] := by decide +kernel

/-- An operation that waits, and one cut before its next frame, with an answer for every frame. -/
theorem witness_AnsweredOperationsGoOn :
    (∃ s : State, s.turn = .S ∧ s.sched = [] ∧ s.portS.cur = some (.txWait [[0x01]] true (.assign 2)) ∧
      s.env.txAns = true :: ([false] ++ [true]) ∧ [false].length = [([0x01] : Bytes)].length) ∧
    ∃ s : State, s.turn = .S ∧ s.sched = [] ∧ s.portS.cur = some (.transmit [] false (.initStep .ready)) ∧ s.env.txAns = [] ++ [true] :=
  ⟨⟨(live [true, false, true] []).suspend .S (.txWait [[0x01]] true (.assign 2)), by decide +kernel⟩,
    ⟨(live [true] []).suspend .S (.transmit [] false (.initStep .ready)), by decide +kernel⟩⟩

theorem witness_OperationsWaitForRx :
    (∃ s : State, s.nextTurn.turn = .S ∧ s.portS.cur = some (.enumRead 1 0x1366 11 0 true) ∧ (0 : BitVec 8) < 1 ∧
      s.env.rxAns = .bytes [0x00] :: [] ∧ ([0x00] : Bytes).length ≠ (11 : BitVec 8).toNat) ∧
    ∃ s : State, s.nextTurn.turn = .R ∧ s.portR.cur = some .resultRead ∧ s.env.rxAns = [] :=
  ⟨⟨(live [] [.bytes [0x00]]).suspend .S (.enumRead 1 0x1366 11 0 true), by decide +kernel⟩,
    ⟨{ (live [] []).suspend .R .resultRead with turn := .R }, by decide +kernel⟩⟩

/-- `SUBMIT` stopped after m1 on port `S` while port `R` has `IS_VALID` presented, and the next turns are `R`'s, then `S`'s. -/
def interleaved : State :=
  { live [] [] with
    portS := { cmd := [], cur := some (.submit2 0 1 2), rsp := [] }
    portR := { cmd := [0x0C, 0x00], cur := none, rsp := [] }
    sched := [.R, .S] }

/-- The state a run reaches. -/
def reach (m : Nat) (s : State) : Option State :=
  match Host.Core.run core m s with
  | .next t => some t
  | .fault _ => none
  | .refused _ => none

theorem reach_isSome {m : Nat} {s : State} (h : (reach m s).isSome = true) : ∃ u, Host.Core.run core m s = .next u := by
  unfold reach at h
  split at h
  · next t e => exact ⟨t, e⟩
  all_goals cases h

theorem witness_SendOperationsEndAlikeUnderEveryInterleaving :
    Inv interleaved ∧ interleaved.resetReq = false ∧ oneSendOperation interleaved ∧
      (∃ u, Host.Core.run core 2 interleaved = .next u) ∧ ∃ r, uncutSendTurn interleaved = .next r := by
  have h := witness_Inv interleaved.portS (.inr rfl) interleaved.portR rfl
  exact ⟨⟨h.1, h.2, h.3, h.4, h.5, h.6, h.7, h.8, h.9⟩, rfl, .inl ⟨_, rfl, rfl, rfl⟩, reach_isSome (by decide +kernel), _, rfl⟩

theorem witness_oneSendOperation_presented : oneSendOperation (asked [0x10]) :=
  .inr ⟨rfl, .initStep .S, rfl, by intros; simp⟩

theorem witness_ReceiveAnswersAreWhatTheReadsSaw :
    interleaved.resetReq = false ∧ interleaved.portR.cur = none ∧
      decodeCommandPort interleaved.params .R interleaved.portR.cmd = .ok (.isValid .R 0, []) ∧ receiveOnly (.isValid .R 0) = true ∧
      ∃ u, Host.Core.run core 2 interleaved = .next u :=
  ⟨rfl, rfl, by decide +kernel, rfl, reach_isSome (by decide +kernel)⟩

theorem witness_EnumerateTurnCountsUnderEverySchedule :
    ∃ s t : State, s.sched = [.S, .S, .R] ∧ s.nextTurn.turn = .S ∧ s.portS.cur = some (.enumRead 3 0x1366 11 1 true) ∧
      step s = .next t :=
  ⟨{ (live [] [matching, nonMatching, .failure]).suspend .S (.enumRead 3 0x1366 11 1 true) with sched := [.S, .S, .R] }, _,
    rfl, rfl, rfl, rfl⟩

/-- A count of 1 of 2 so far: two records, of which the second brings it to 2; one record, then a failure; and one record, then no
answer. -/
theorem witness_RxOperationsGoOn :
    (∃ (s : State) (bs : List (Vector Byte (11 : BitVec 8).toNat)), s.turn = .S ∧ s.sched = [] ∧
      s.portS.cur = some (.enumRead 2 0x1366 11 1 true) ∧ s.env.rxAns = bs.map (fun B => .bytes B.toList) ++ [.failure] ∧
      readWhileShort s.params 0x1366 2 1 bs ∧ 1 + bs.countP (matchesId s.params 0x1366) = 2) ∧
    (∃ (s : State) (bs : List (Vector Byte (11 : BitVec 8).toNat)), s.env.rxAns = bs.map (fun B => .bytes B.toList) ++ .failure :: [] ∧
      readWhileShort s.params 0x1366 2 1 bs ∧ 1 + bs.countP (matchesId s.params 0x1366) < 2) ∧
    noRxAnswer 11 [] ∧ noRxAnswer 11 [.bytes [0x00]] ∧
    ∃ s : State, s.turn = .R ∧ s.sched = [] ∧ s.eng.lock = .free ∧ s.portR.cur = some .resultRead ∧
      s.env.rxAns = .bytes (Vector.replicate 11 (0 : Byte)).toList :: [] := by
  refine ⟨⟨(live [] [nonMatching, matching, .failure]).suspend .S (.enumRead 2 0x1366 11 1 true),
      [#v[0xAA, 0x55, 0x13, 0x97, 0, 0, 0, 0, 0, 0, 0], #v[0xAA, 0x55, 0x13, 0x66, 0, 0, 0, 0, 0, 0, 0]], ?_⟩,
    ⟨live [] [nonMatching, .failure], [#v[0xAA, 0x55, 0x13, 0x97, 0, 0, 0, 0, 0, 0, 0]], ?_⟩,
    .inl rfl, .inr ⟨[0x00], [], rfl, by decide⟩,
    ⟨{ (live [] [.bytes (List.replicate 11 0)]).suspend .R .resultRead with turn := .R }, by decide +kernel⟩⟩
  · refine ⟨by decide +kernel, by decide +kernel, by decide +kernel, by decide +kernel, ?_, by decide +kernel⟩
    intro l B l' h
    rcases l with _ | ⟨x, _ | ⟨y, l⟩⟩
    · decide
    · rw [← (List.cons.inj h).1]; decide +kernel
    · have := congrArg List.length h
      simp at this
  · refine ⟨by decide +kernel, ?_, by decide +kernel⟩
    intro l B l' h
    rcases l with _ | ⟨x, l⟩
    · decide
    · have := congrArg List.length h
      simp at this

theorem witness_PseudoOperationsRun :
    (live [true] []).sched = [] ∧ (live [true] []).env.txAns = true :: [] ∧ (live [true] []).eng.lock = .free ∧
    encodeFrame (live [true] []).params (live [true] []).params.hdrWriteAll [0x55, 0xAA] =
      some [0x55, 0xAA, 0x51, 0x05, 0x55, 0xAA, 0x1F] ∧
    encodeFrame (live [true] []).params (live [true] []).params.hdrWriteAll (List.replicate 253 0) = none ∧
    (encodeFrame (live [true] []).params (live [true] []).params.hdrJob (jobPayload jobV30)).isSome = true ∧
    encodeFrame { Params.default with lenOffJob := 174 } 0x21 (jobPayload jobV30) = none :=
  ⟨rfl, rfl, rfl, by decide +kernel, by decide +kernel, rfl, by decide +kernel⟩

/-- R67: `WRITEALL` of a payload that `ENCODE` refuses sends nothing. -/
theorem test_WRITEALL_refused :
    pseudoWriteall Params.default (List.replicate 253 0) = [.encode .S 0x51 (List.replicate 253 0)] := by decide +kernel

/-- Other parameters than R9's are used: length offset, CRC-16 and job flag; and a handle keeps its `WU_W` bits. -/
theorem test_parameters :
    response (.encode .S 0x80 [0x01]) { live [] [] with params := other } =
        ok (.bytes [0x55, 0xAA, 0x80, 0x03, 0x01, 0x00, 0x06]) ∧
      (run (.submit .S 0x1FFF 7) { live [] [] with params := other }).map (fun t => (t.slot 24).wu) = some 0xFFF := by
  decide +kernel

end Sys2Proof.Tests
end

/-! ### R9's values of the parameters, and what the rules make of them (O53) -/

section

namespace Sys2Proof.Laws

open Machine Reference

/-- R55 with R9's `HDR_JOB_FLAG`: the flag is header bit 5. -/
theorem isJobHeader_default (h : Byte) : isJobHeader Params.default h = h.getLsbD 5 := by
  have mask : Params.default.hdrJobFlag = BitVec.twoPow 8 5 := by decide
  rw [isJobHeader, mask, BitVec.and_twoPow]
  cases h.getLsbD 5 <;> decide

/-- R92, R93 for a header of the job shape. -/
theorem encodeFrame_job {c : Params} {h : Byte} (hj : isJobHeader c h = true) (P : Bytes) :
    encodeFrame c h P = if P.length + c.lenOffJob ≤ 255 then some (jobFrame c h P) else none := by
  simp only [encodeFrame, lenOff, hj, if_true]

/-- R92, R93 for a header of the command shape. -/
theorem encodeFrame_command {c : Params} {h : Byte} (hj : isJobHeader c h = false) (P : Bytes) :
    encodeFrame c h P = if P.length + c.lenOffCmd ≤ 255 then some (commandFrame c h P) else none := by
  simp only [encodeFrame, lenOff, hj, Bool.false_eq_true, if_false]

/-- A refusal of what is too long is an acceptance of what fits: R92 writes the first, the model the second. -/
theorem ite_fits_eq_ite_exceeds {α : Type} {n off limit : Nat} (hl : limit + off = 255) (x : Option α) :
    (if n + off ≤ 255 then x else none) = if n > limit then none else x := by
  by_cases hn : n > limit
  · rw [if_pos hn, if_neg (by omega)]
  · rw [if_neg hn, if_pos (by omega)]

/-- With R9's values `encode` is R92's pseudocode. -/
theorem encodeFrame_default (h : Byte) (P : Bytes) : encodeFrame Params.default h P = encodeR92 h P := by
  unfold encodeR92
  cases hj : h.getLsbD 5 with
  | true =>
    rw [encodeFrame_job ((isJobHeader_default h).trans hj), if_pos rfl]
    exact ite_fits_eq_ite_exceeds (limit := 251) rfl _
  | false =>
    rw [encodeFrame_command ((isJobHeader_default h).trans hj), if_neg Bool.false_ne_true]
    exact ite_fits_eq_ite_exceeds (limit := 252) rfl _

/-- R112: in the state `ENUMERATE` starts from, a record length in which the chip identifier has no place is refused. -/
theorem exec_enumerate_short {n : BitVec 8} {x : BitVec 16} {l : BitVec 8} {s : State}
    (hi : s.eng.initState = .versionMaskSet) (hl : l.toNat < minExpLen s.params) :
    exec (.enumerate .S n x l) s = .next (s.answer .S .refusedOperand .empty) := by
  have run : runEnumerate .S n x l s = s.answer .S .refusedOperand .empty := by
    rw [runEnumerate, if_neg (not_not_intro hi), if_pos hl]
  show Host.Outcome.next (onPort .S .S s (runEnumerate .S n x l s)) = _
  rw [onPort_same, run]

/-- R131 with R9's `PLL_FRAC`: 65536 units of a target are one MHz. -/
theorem target_default (t : BitVec 32) : target Params.default t = (t.toNat : ℚ) / 65536 := by
  have units : (2 : ℚ) ^ Params.default.pllFrac = 65536 := by norm_num [Params.default]
  rw [target, units]

/-- The reset state with `INIT_STATE` at `VersionMaskSet`, the state `ENUMERATE` starts from (R111). -/
def readyToEnumerate : State := { State.reset with eng := { Engine.reset with initState := .versionMaskSet } }

/-- That state and 3 bytes meet the hypotheses of `exec_enumerate_short`. -/
theorem witness_exec_enumerate_short :
    exec (.enumerate .S 3 0x1366 3) readyToEnumerate =
      .next (readyToEnumerate.answer .S .refusedOperand .empty) :=
  exec_enumerate_short rfl (by decide)

/-- Settles O53: the reset state holds R9's values, and each number follows from them. -/
theorem defaultParametersAreR9s : Obligations.DefaultParametersAreR9s := by
  refine ⟨rfl, ?encode, ?flag, ?expLen, ?mhz⟩
  case encode => exact encodeFrame_default
  case flag => exact isJobHeader_default
  case expLen =>
    intro n x l s hp hi hl
    have least : minExpLen s.params = 4 := by rw [hp]; rfl
    exact exec_enumerate_short hi (least ▸ hl)
  case mhz => exact target_default

end Sys2Proof.Laws

end

/-! ### Every step keeps the invariant (O44) -/

section

namespace Sys2Proof.Laws

open Machine

/-- The slot that a `SUBMIT` stopped between m3 and m4 has filled and not yet marked valid (R151). -/
def fillingSlot (t : Task) : Option (BitVec 7) :=
  match t with
  | .submit4 j _ => some j
  | _ => none

theorem bind_fillingSlot_eq_some {cur : Option Task} {j : BitVec 7} :
    cur.bind fillingSlot = some j ↔ ∃ r, cur = some (.submit4 j r) := by
  cases cur with
  | none => simp
  | some t => cases t <;> simp [fillingSlot]

/-- What the invariant says of slot `j`, `filling` being the slot between m3 and m4. -/
structure SlotInv (c : Params) (filling : Option (BitVec 7)) (j : BitVec 7) (x : Slot) : Prop where
  spaced : x.occupied = true → j.toNat % 8 = 0
  valid : x.occupied = true → x.valid = true ∨ filling = some j
  handleFits : x.wu < 2 ^ c.wuW

/-- What the invariant says of the engine's registers and slots. -/
structure EngineInv (c : Params) (e : Engine) (filling : Option (BitVec 7)) : Prop where
  lockFree : e.lock = .free
  nextIdSpaced : e.nextId.toNat % 8 = 0
  failedReason : e.failReason = .noChips ↔ e.initState = .failed
  countEnumerated : e.chipCount ≠ 0 ↔ pastEnumeration e.initState = true
  slotsOk : ∀ j, SlotInv c filling j (slotAt e.slots j)

/-- The invariant is one of the engine and one of each port's operation in progress. -/
theorem inv_iff {s : State} :
    Inv s ↔ EngineInv s.params s.eng (s.portS.cur.bind fillingSlot) ∧
      (∀ t, s.portS.cur = some t → sendTaskOk s.params s.eng t) ∧ ∀ t, s.portR.cur = some t → receiveTask t := by
  constructor
  · rintro ⟨lockFree, nextId, spaced, valid, fits, failed, count, onS, onR⟩
    refine ⟨⟨lockFree, nextId, failed, count, fun j => ⟨spaced j, fun occ => ?_, fits j⟩⟩, onS, onR⟩
    rw [bind_fillingSlot_eq_some]
    exact valid j occ
  · rintro ⟨⟨lockFree, nextId, failed, count, slots⟩, onS, onR⟩
    refine ⟨lockFree, nextId, fun j => (slots j).spaced, fun j occ => ?_, fun j => (slots j).handleFits, failed, count,
      onS, onR⟩
    rw [← bind_fillingSlot_eq_some]
    exact (slots j).valid occ

/-- The invariant reads the registers, the parameters and the operations in progress, and nothing else. -/
theorem inv_congr {s t : State} (h : Inv s) (he : t.eng = s.eng) (hc : t.params = s.params)
    (hS : t.portS.cur = s.portS.cur) (hR : t.portR.cur = s.portR.cur) : Inv t := by
  rw [inv_iff] at h ⊢
  rwa [he, hc, hS, hR]

/-! #### Writes of the registers -/

/-- R230: the reset values meet the invariant of the engine. -/
theorem engineInv_reset (c : Params) : EngineInv c Engine.reset none where
  lockFree := rfl
  nextIdSpaced := rfl
  failedReason := by decide
  countEnumerated := by decide
  slotsOk j := by
    rw [slotAt_reset]
    exact ⟨nofun, nofun, Nat.two_pow_pos _⟩

section

variable {c : Params} {e : Engine} {filling : Option (BitVec 7)}

/-- What holds with no slot between m3 and m4 holds whichever slot may be. -/
theorem EngineInv.of_none (h : EngineInv c e none) : EngineInv c e filling :=
  { h with
    slotsOk := fun j => by
      obtain ⟨spaced, valid, fits⟩ := h.slotsOk j
      exact ⟨spaced, fun occ => (valid occ).imp_right nofun, fits⟩ }

/-- R12, R151: `NEXT_ID` stays a multiple of 8 when 24 is added modulo 128. -/
theorem EngineInv.advanceNextId (h : EngineInv c e filling) :
    EngineInv c { e with nextId := e.nextId + Config.jobStride } filling := by
  have spaced : (e.nextId + Config.jobStride).toNat % 8 = 0 := by
    have old := h.nextIdSpaced
    have stride : Config.jobStride.toNat = 24 := rfl
    rw [BitVec.toNat_add, stride]
    omega
  exact { h with nextIdSpaced := spaced }

/-- `INIT_STATE` may move between two states that agree on having failed and on being past enumeration. -/
theorem EngineInv.moveInitState (h : EngineInv c e filling) {x : InitState}
    (hf : x = .failed ↔ e.initState = .failed) (hp : pastEnumeration x = pastEnumeration e.initState) :
    EngineInv c { e with initState := x } filling :=
  { h with
    failedReason := h.failedReason.trans hf.symm
    countEnumerated := by rw [hp]; exact h.countEnumerated }

/-- Slot `j` may become `x` if `x` meets the invariant and no other slot is left between m3 and m4. -/
theorem EngineInv.setSlot (h : EngineInv c e filling) {j : BitVec 7} {x : Slot} {filling' : Option (BitVec 7)}
    (hx : SlotInv c filling' j x) (others : ∀ k, k ≠ j → filling = some k → filling' = some k) :
    EngineInv c { e with slots := e.slots.set j.toNat x j.isLt } filling' :=
  { h with
    slotsOk := fun k => by
      by_cases hk : k = j
      · subst hk
        simpa using hx
      · obtain ⟨spaced, valid, fits⟩ := h.slotsOk k
        rw [slotAt_set_other _ _ _ _ hk]
        exact ⟨spaced, fun occ => (valid occ).imp_right (others k hk), fits⟩ }

/-- Marking slot `j` valid ends the moment between m3 and m4, if it was that of slot `j` (R158). -/
theorem EngineInv.markValid (h : EngineInv c e filling) {j : BitVec 7} (hj : filling = none ∨ filling = some j) :
    EngineInv c { e with slots := e.slots.set j.toNat { slotAt e.slots j with valid := true } j.isLt } none := by
  obtain ⟨spaced, -, fits⟩ := h.slotsOk j
  refine h.setSlot ⟨spaced, fun _ => .inl rfl, fits⟩ fun k hk hf => ?_
  obtain rfl | rfl := hj
  · exact hf
  · exact absurd (Option.some.inj hf).symm hk

end

/-- R180, R181: `INIT_STEP` neither fails the chain nor enumerates it. -/
theorem initNext_some {x y : InitState} (h : initNext x = some y) :
    (y = .failed ↔ x = .failed) ∧ pastEnumeration y = pastEnumeration x := by
  cases x <;> cases h <;> decide

/-! #### Micro-steps of port `S` -/

/-- The operation at `t` runs on port `S`, and the invariant would hold if it were stopped here. -/
def SendRunning (t : Task) (s : State) : Prop :=
  EngineInv s.params s.eng (fillingSlot t) ∧ sendTaskOk s.params s.eng t

/-- A micro-step of port `S` keeps the invariant, whether the operation goes on or ends. -/
def KeepsInv (m : MicroOut) : Prop :=
  match m with
  | .more t s => SendRunning t s
  | .done _ _ s => EngineInv s.params s.eng none
  | .wait => True

section

variable {s : State} (h : EngineInv s.params s.eng none)
include h

theorem afterTx_keepsInv {k : AfterTx} (ok : Bool) (hk : afterTxOk s.eng k) : KeepsInv (afterTx k ok s) := by
  cases k with
  | send | setfreq | refuseOperand => exact h
  | enumerate => exact ⟨h, hk⟩
  | assign n =>
    show EngineInv _ _ none
    split
    · next hi => exact h.moveInitState (by rw [hi]; decide) (by rw [hi]; rfl)
    · exact h
  | initStep next =>
    obtain ⟨failed, past⟩ := initNext_some hk
    exact h.moveInitState failed past

theorem microTransmit_keepsInv {k : AfterTx} (left : List Bytes) (ok : Bool) (hk : afterTxOk s.eng k) :
    KeepsInv (microTransmit left ok k s) := by
  cases left with
  | nil => exact afterTx_keepsInv h ok hk
  | cons F rest => exact ⟨h, hk⟩

theorem microTxWait_keepsInv {k : AfterTx} (left : List Bytes) (ok : Bool) (hk : afterTxOk s.eng k) :
    KeepsInv (microTxWait left ok k s) := by
  unfold microTxWait
  split
  · trivial
  · next e =>
    obtain ⟨as, -, rfl⟩ := takeTxAnswer_some e
    exact ⟨h, hk⟩

/-- R111, R118, R185: the writes that end an enumeration, from the only state it runs in. -/
theorem enumFinish_keepsInv (count : BitVec 8) (ok : Bool) (hi : s.eng.initState = .versionMaskSet) :
    KeepsInv (enumFinish count ok s) := by
  unfold enumFinish
  split
  · next hz =>
    exact { h with
      failedReason := iff_of_true rfl rfl
      countEnumerated := iff_of_false (not_not_intro hz) Bool.false_ne_true }
  · next hz =>
    have noFailure : s.eng.failReason ≠ .noChips := by
      rw [Ne, h.failedReason, hi]
      decide
    exact { h with
      failedReason := iff_of_false noFailure nofun
      countEnumerated := iff_of_true hz rfl }

theorem microEnumRead_keepsInv (expCount : BitVec 8) (expId : BitVec 16) (expLen count : BitVec 8) (ok : Bool)
    (hi : s.eng.initState = .versionMaskSet) : KeepsInv (microEnumRead expCount expId expLen count ok s) := by
  unfold microEnumRead
  split
  · split
    · trivial
    · next e =>
      obtain ⟨as, rfl, -⟩ := callRx_some e
      exact enumFinish_keepsInv (s := s.withEnv { s.env with rxAns := as }) h count ok hi
    · next e =>
      obtain ⟨as, rfl, -⟩ := callRx_some e
      exact ⟨h, hi⟩
  · exact enumFinish_keepsInv h count ok hi

theorem microSubmit1_keepsInv {wu : Handle} (version : BitVec 32) (hw : wu < 2 ^ s.params.wuW) :
    KeepsInv (microSubmit1 wu version s) :=
  ⟨h.advanceNextId, h.nextIdSpaced, hw⟩

theorem microSubmit2_keepsInv {j : BitVec 7} {wu : Handle} (version : BitVec 32) (hj : j.toNat % 8 = 0)
    (hw : wu < 2 ^ s.params.wuW) : KeepsInv (microSubmit2 j wu version s) := by
  unfold microSubmit2
  split <;> exact ⟨h, hj, hw⟩

theorem microSubmit3_keepsInv {j : BitVec 7} {wu : Handle} (version : BitVec 32) (released : Option Handle)
    (hj : j.toNat % 8 = 0) (hw : wu < 2 ^ s.params.wuW) : KeepsInv (microSubmit3 j wu version released s) :=
  ⟨h.setSlot ⟨fun _ => hj, fun _ => .inr rfl, hw⟩ (fun _ _ => nofun), hj⟩

theorem microMarkValid_keepsInv (j : BitVec 7) : KeepsInv (microMarkValid .S j s) := by
  unfold microMarkValid
  split
  · trivial
  · next e =>
    obtain ⟨-, rfl⟩ := setValid_some e
    exact h.markValid (.inl rfl)

end

theorem microSubmit4_keepsInv {s : State} {j : BitVec 7} (released : Option Handle)
    (h : EngineInv s.params s.eng (some j)) : KeepsInv (microSubmit4 .S j released s) := by
  unfold microSubmit4
  split
  · trivial
  · next e =>
    obtain ⟨-, rfl⟩ := setValid_some e
    exact h.markValid (.inr rfl)

/-- Every micro-step of port `S` keeps the invariant; the tasks of port `R` have no place on it. -/
theorem micro_keepsInv {t : Task} {s : State} (h : SendRunning t s) : KeepsInv (micro .S t s) := by
  obtain ⟨eng, task⟩ := h
  cases t with
  | transmit left ok k => exact microTransmit_keepsInv eng left ok task
  | txWait left ok k => exact microTxWait_keepsInv eng left ok task
  | enumRead c i l n ok => exact microEnumRead_keepsInv eng c i l n ok task
  | submit1 wu v => exact microSubmit1_keepsInv eng v task
  | submit2 j wu v => exact microSubmit2_keepsInv eng v task.1 task.2
  | submit3 j wu v r => exact microSubmit3_keepsInv eng v r task.1 task.2
  | submit4 j r => exact microSubmit4_keepsInv r eng
  | markValid j => exact microMarkValid_keepsInv eng j
  | isValid | take1 | take2 | take3 | resultRead | parse1 | parse2 | parse3 | parse4 | parse5 => exact task.elim

/-! #### Operations and steps -/

/-- However far it runs, an operation of port `S` leaves the invariant. -/
theorem runOp_send_inv {t : Task} {s : State} (h : SendRunning t s) (hR : ∀ k, s.portR.cur = some k → receiveTask k) :
    Inv (runOp .S t s) := by
  refine runTask_induct (Q := fun t s => SendRunning t s ∧ ∀ k, s.portR.cur = some k → receiveTask k) (G := Inv)
    ?stop ?ends ?goes ?sched _ _ _ ⟨h, hR⟩
  case stop =>
    rintro t s ⟨⟨eng, task⟩, onR⟩
    exact inv_iff.2 ⟨eng, fun k hk => by cases hk; exact task, onR⟩
  case ends =>
    rintro t s st r s1 ⟨run, onR⟩ e
    have eng : EngineInv s1.params s1.eng none := by
      have keeps := micro_keepsInv run
      rwa [e] at keeps
    obtain ⟨-, portR, -⟩ := micro_frame (s1 := s1) (congrArg after e)
    exact inv_iff.2 ⟨eng, nofun, portR ▸ onR⟩
  case goes =>
    rintro t s t1 s1 ⟨run, onR⟩ e
    have run1 : SendRunning t1 s1 := by
      have keeps := micro_keepsInv run
      rwa [e] at keeps
    obtain ⟨-, portR, -⟩ := micro_frame (s1 := s1) (congrArg after e)
    exact ⟨run1, portR ▸ onR⟩
  case sched => exact fun _ _ _ run => run

/-- A `SUBMIT` just started after reset meets the hypotheses of `runOp_send_inv`. -/
theorem witness_runOp_send_inv : Inv (runOp .S (.submit1 5 0x20000000) State.reset) :=
  runOp_send_inv ⟨engineInv_reset _, show 5 < 2 ^ 32 by decide⟩ nofun

/-- An operation of port `R` writes no register, so it leaves the invariant as it found it (R38). -/
theorem runOp_receive_inv {t : Task} {s : State} (h : Inv s) (ht : receiveTask t) : Inv (runOp .R t s) := by
  obtain ⟨l, sc, x, -, onR, -, e⟩ := run_receive ht
  obtain ⟨eng, onS, -⟩ := inv_iff.1 h
  rw [e]
  exact inv_iff.2 ⟨eng, onS, onR⟩

/-- An operation in progress goes on. -/
theorem runOp_resumed_inv {p : Port} {t : Task} {s : State} (h : Inv s) (ht : (s.port p).cur = some t) :
    Inv (runOp p t s) := by
  obtain ⟨eng, onS, onR⟩ := inv_iff.1 h
  cases p with
  | S =>
    have cur : s.portS.cur = some t := ht
    rw [cur] at eng
    exact runOp_send_inv ⟨eng, onS t cur⟩ onR
  | R => exact runOp_receive_inv h (onR t ht)

/-- An operation starts on a port that has none in progress. -/
theorem runOp_started_inv {p : Port} {t : Task} {s : State} (h : Inv s) (hc : (s.port p).cur = none)
    (ht : (p = .S ∧ sendTaskOk s.params s.eng t) ∨ (p = .R ∧ receiveTask t)) : Inv (runOp p t s) := by
  obtain ⟨rfl, task⟩ | ⟨rfl, task⟩ := ht
  · obtain ⟨eng, -, onR⟩ := inv_iff.1 h
    have cur : s.portS.cur = none := hc
    rw [cur] at eng
    exact runOp_send_inv ⟨eng.of_none, task⟩ onR
  · exact runOp_receive_inv h task

/-- An operation answered at once on a port that has none in progress changes nothing the invariant reads. -/
theorem answer_idle_inv {p : Port} {s : State} (h : Inv s) (hc : (s.port p).cur = none) (st : Status) (r : Results) :
    Inv (s.answer p st r) := by
  cases p with
  | S => exact inv_congr h rfl rfl hc.symm rfl
  | R => exact inv_congr h rfl rfl rfl hc.symm

theorem nextTurn_inv {s : State} (h : Inv s) : Inv s.nextTurn :=
  inv_congr h (by simp) (by simp) (by simp) (by simp)

theorem withCmd_inv {s : State} (h : Inv s) (p : Port) (bs : Bytes) : Inv (s.withCmd p bs) := by
  cases p <;> exact inv_congr h rfl rfl rfl rfl

/-- R230: the reset event occurs between operations and gives the registers values that meet the invariant. -/
theorem resetEvent_inv {s : State} (h : s.resetsNow = true) : Inv s.resetEvent := by
  simp only [State.resetsNow, State.betweenOperations, Bool.and_eq_true, Option.isNone_iff_eq_none] at h
  obtain ⟨-, idleS, idleR⟩ := h
  refine inv_iff.2 ⟨?_, fun t ht => ?_, fun t ht => ?_⟩
  · rw [State.resetEvent_portS, idleS]
    exact engineInv_reset _
  · exact nomatch idleS.symm.trans ht
  · exact nomatch idleR.symm.trans ht

/-- Settles O44: each thing a step can do keeps the invariant. -/
theorem invariantKeptByEveryStep : Obligations.InvariantKeptByEveryStep := by
  intro s t h hstep
  have turn := nextTurn_inv h
  obtain ⟨hr, rfl⟩ | ⟨-, p, -, hturn⟩ := step_cases hstep
  · exact resetEvent_inv hr
  obtain ⟨-, -, rfl⟩ | ⟨_, rest, st, r, idle, -, -, rfl⟩ | ⟨_, cur, rfl⟩ | ⟨_, rest, _, idle, -, -, rfl, hk⟩ := hturn
  · exact turn
  · exact answer_idle_inv (withCmd_inv turn p rest) (by simpa using idle) st r
  · exact runOp_resumed_inv turn (by simpa using cur)
  · exact runOp_started_inv (withCmd_inv turn p rest) (by simpa using idle) (by simpa using hk)

end Sys2Proof.Laws

end

/-! ### Histories only grow (O48) -/

section

namespace Sys2Proof.Laws

open Machine

/-! #### The boundary and the state, ordered by what the histories hold -/

/-- `e'` is `e` later on: the histories have grown and the transport's answers were taken from the front. -/
structure BoundaryGrows (e e' : Boundary) : Prop where
  txLog : e.txLog <+: e'.txLog
  released : e.released <+: e'.released
  txAns : e'.txAns <:+ e.txAns
  rxAns : e'.rxAns <:+ e.rxAns

theorem BoundaryGrows.refl (e : Boundary) : BoundaryGrows e e :=
  ⟨List.prefix_rfl, List.prefix_rfl, List.suffix_rfl, List.suffix_rfl⟩

theorem BoundaryGrows.trans {a b c : Boundary} (h : BoundaryGrows a b) (h' : BoundaryGrows b c) : BoundaryGrows a c :=
  ⟨h.txLog.trans h'.txLog, h.released.trans h'.released, h'.txAns.trans h.txAns, h'.rxAns.trans h.rxAns⟩

/-- `t` is `s` later on: the boundary and the responses have grown and the configuration is the same. -/
structure StateGrows (s t : State) : Prop where
  boundary : BoundaryGrows s.env t.env
  rsp : ∀ p, (s.port p).rsp <+: (t.port p).rsp
  initSeq : t.initSeq = s.initSeq
  params : t.params = s.params

theorem StateGrows.refl (s : State) : StateGrows s s := ⟨.refl _, fun _ => List.prefix_rfl, rfl, rfl⟩

theorem StateGrows.trans {a b c : State} (h : StateGrows a b) (h' : StateGrows b c) : StateGrows a c :=
  ⟨h.boundary.trans h'.boundary, fun p => (h.rsp p).trans (h'.rsp p), h'.initSeq.trans h.initSeq,
    h'.params.trans h.params⟩

/-- Replacing a port's state by one whose responses begin with the old ones. -/
theorem withPort_grows {s : State} {p : Port} {x : PortState} (h : (s.port p).rsp <+: x.rsp) :
    StateGrows s (s.withPort p x) where
  boundary := by rw [State.withPort_env]; exact .refl _
  rsp q := by
    by_cases hq : q = p
    · subst hq
      rwa [State.withPort_port]
    · rw [State.withPort_port_other _ _ _ _ hq]
  initSeq := State.withPort_initSeq _ _ _
  params := State.withPort_params _ _ _

theorem withCmd_grows (s : State) (p : Port) (bs : Bytes) : StateGrows s (s.withCmd p bs) :=
  withPort_grows List.prefix_rfl

theorem suspend_grows (s : State) (p : Port) (t : Task) : StateGrows s (s.suspend p t) :=
  withPort_grows List.prefix_rfl

theorem answer_grows (s : State) (p : Port) (st : Status) (r : Results) : StateGrows s (s.answer p st r) :=
  withPort_grows (List.prefix_append _ _)

theorem nextTurn_grows (s : State) : StateGrows s s.nextTurn := by
  refine ⟨?_, fun p => ?_, State.nextTurn_initSeq s, State.nextTurn_params s⟩
  · rw [State.nextTurn_env]
    exact .refl _
  · rw [State.nextTurn_port]

theorem resetEvent_grows (s : State) : StateGrows s s.resetEvent :=
  ⟨.refl _, fun p => by rw [State.resetEvent_port], rfl, rfl⟩

/-! #### Micro-steps -/

theorem takeTxAnswer_grows {s s1 : State} {a : Bool} (h : takeTxAnswer s = some (a, s1)) :
    BoundaryGrows s.env s1.env := by
  obtain ⟨as, e, rfl⟩ := takeTxAnswer_some h
  exact { BoundaryGrows.refl s.env with txAns := e ▸ List.suffix_cons a as }

theorem callRx_grows {n : Nat} {s s1 : State} {a : Option (Vector Byte n)} (h : callRx n s = some (a, s1)) :
    BoundaryGrows s.env s1.env := by
  obtain ⟨as, rfl, e⟩ := callRx_some h
  exact { BoundaryGrows.refl s.env with rxAns := e ▸ List.suffix_cons _ as }

theorem handToTx_grows (s : State) (F : Bytes) : BoundaryGrows s.env (s.handToTx F).env :=
  { BoundaryGrows.refl s.env with txLog := List.prefix_append _ _ }

theorem release_grows (s : State) (w : Handle) : BoundaryGrows s.env (s.release w).env :=
  { BoundaryGrows.refl s.env with released := List.prefix_append _ _ }

/-- What comes after the last frame calls neither `Tx` nor `Rx` nor `Release`. -/
theorem afterTx_env {k : AfterTx} {ok : Bool} {s s1 : State} (h : after (afterTx k ok s) = some s1) : s1.env = s.env := by
  cases k with
  | assign n =>
    simp only [afterTx, after, Option.some.injEq] at h
    subst h
    split <;> rfl
  | send | enumerate | setfreq | initStep | refuseOperand => cases h; rfl

theorem enumFinish_env {n : BitVec 8} {ok : Bool} {s s1 : State} (h : after (enumFinish n ok s) = some s1) :
    s1.env = s.env := by
  unfold enumFinish at h
  split at h <;> cases h <;> rfl

theorem setValid_env {p : Port} {j : BitVec 7} {s s1 : State} (h : setValid p j s = some s1) : s1.env = s.env := by
  obtain ⟨-, rfl⟩ := setValid_some h
  rfl

theorem microEnumRead_grows {c : BitVec 8} {i : BitVec 16} {l n : BitVec 8} {ok : Bool} {s s1 : State}
    (h : after (microEnumRead c i l n ok s) = some s1) : BoundaryGrows s.env s1.env := by
  unfold microEnumRead at h
  split at h
  · split at h
    · cases h
    · next e => rw [enumFinish_env h]; exact callRx_grows e
    · next e => cases h; exact callRx_grows e
  · rw [enumFinish_env h]
    exact .refl _

/-- A micro-step of an operation of port `R` only takes answers of `Rx`. -/
theorem micro_receive_grows {p : Port} {t : Task} {s s1 : State} (h : after (micro p t s) = some s1)
    (ht : receiveTask t) : BoundaryGrows s.env s1.env := by
  have took : ∃ l, l <:+ s.env.rxAns ∧ s1 = s.withEnv { s.env with rxAns := l } := by
    obtain ⟨more, done⟩ := micro_receive (p := p) (s := s) ht
    cases e : micro p t s with
    | more t1 s2 => rw [e] at h; cases h; exact (more _ _ e).2
    | done st r s2 => rw [e] at h; cases h; exact done _ _ _ e
    | wait => rw [e] at h; cases h
  obtain ⟨l, hl, rfl⟩ := took
  exact { BoundaryGrows.refl s.env with rxAns := hl }

/-- No micro-step takes back what was sent or released, or puts an answer back (R11). -/
theorem micro_boundary {p : Port} {t : Task} {s s1 : State} (h : after (micro p t s) = some s1) :
    BoundaryGrows s.env s1.env := by
  cases t with
  | transmit left ok k =>
    cases left with
    | nil => rw [afterTx_env (s := s) h]; exact .refl _
    | cons F rest => cases h; exact handToTx_grows s F
  | txWait left ok k =>
    simp only [micro, microTxWait] at h
    split at h
    · cases h
    · next e => cases h; exact takeTxAnswer_grows e
  | enumRead c i l n ok => exact microEnumRead_grows h
  | submit1 | submit3 => cases h; exact .refl _
  | submit2 j wu v =>
    simp only [micro, microSubmit2] at h
    split at h <;> cases h
    · exact release_grows s _
    · exact .refl _
  | submit4 j r =>
    simp only [micro, microSubmit4] at h
    split at h
    · cases h
    · next e => cases h; rw [setValid_env e]; exact .refl _
  | markValid j =>
    simp only [micro, microMarkValid] at h
    split at h
    · cases h
    · next e => cases h; rw [setValid_env e]; exact .refl _
  | isValid | take1 | take2 | take3 | resultRead | parse1 | parse2 | parse3 | parse4 | parse5 =>
    exact micro_receive_grows h trivial

theorem micro_grows {p : Port} {t : Task} {s s1 : State} (h : after (micro p t s) = some s1) : StateGrows s s1 := by
  obtain ⟨portS, portR, -, -, -, initSeq, params⟩ := micro_frame h
  refine ⟨micro_boundary h, fun q => ?_, initSeq, params⟩
  cases q with
  | S => rw [State.port_S, State.port_S, portS]
  | R => rw [State.port_R, State.port_R, portR]

/-! #### Operations and steps -/

/-- Histories grow along an operation, however far it runs. -/
theorem runOp_grows (p : Port) (t : Task) (s : State) : StateGrows s (runOp p t s) :=
  runTask_induct (Q := fun _ s' => StateGrows s s') (G := StateGrows s)
    (stop := fun t s1 h => h.trans (suspend_grows s1 p t))
    (ends := fun _ _ st r s1 h e => (h.trans (micro_grows (s1 := s1) (congrArg after e))).trans (answer_grows s1 p st r))
    (goes := fun _ _ _ s1 h e => h.trans (micro_grows (s1 := s1) (congrArg after e)))
    (sched := fun _ _ _ h => ⟨h.boundary, fun | .S => h.rsp .S | .R => h.rsp .R, h.initSeq, h.params⟩)
    (taskRank t s) t s (.refl s)

theorem step_grows {s t : State} (h : step s = .next t) : StateGrows s t := by
  have turn := nextTurn_grows s
  obtain ⟨-, rfl⟩ | ⟨-, p, -, hturn⟩ := step_cases h
  · exact resetEvent_grows s
  obtain ⟨-, -, rfl⟩ | ⟨i, rest, st, r, -, -, -, rfl⟩ | ⟨k, -, rfl⟩ | ⟨i, rest, k, -, -, -, rfl, -⟩ := hturn
  · exact turn
  · exact (turn.trans (withCmd_grows _ p rest)).trans (answer_grows _ p st r)
  · exact turn.trans (runOp_grows p k _)
  · exact (turn.trans (withCmd_grows _ p rest)).trans (runOp_grows p k _)

/-- Settles O48: the order `StateGrows`, which every step follows, read field by field. -/
theorem historiesOnlyGrow : Obligations.HistoriesOnlyGrow := by
  intro s t h
  obtain ⟨⟨txLog, released, txAns, rxAns⟩, rsp, initSeq, params⟩ := step_grows h
  exact ⟨txLog, released, rsp .S, rsp .R, txAns, rxAns, initSeq, params⟩

end Sys2Proof.Laws

end

/-! ### What a turn leaves as it is (O47) -/

section

namespace Sys2Proof.Laws

open Machine Reference

/-- The part of the state that a turn of port `p` leaves as it is: the other port, the request of the reset event and the
configuration. -/
structure OthersKept (p : Port) (s t : State) : Prop where
  port : ∀ q, q ≠ p → t.port q = s.port q
  resetReq : t.resetReq = s.resetReq
  initSeq : t.initSeq = s.initSeq
  params : t.params = s.params

namespace OthersKept

variable {p : Port} {a b c : State}

theorem refl (p : Port) (s : State) : OthersKept p s s := ⟨fun _ _ => rfl, rfl, rfl, rfl⟩

theorem trans (h : OthersKept p a b) (h' : OthersKept p b c) : OthersKept p a c :=
  ⟨fun q hq => (h'.port q hq).trans (h.port q hq), h'.resetReq.trans h.resetReq, h'.initSeq.trans h.initSeq,
    h'.params.trans h.params⟩

theorem of_withPort (p : Port) (s : State) (x : PortState) : OthersKept p s (s.withPort p x) :=
  ⟨fun q hq => State.withPort_port_other s p x q hq, State.withPort_resetReq s p x, State.withPort_initSeq s p x,
    State.withPort_params s p x⟩

theorem of_nextTurn (p : Port) (s : State) : OthersKept p s s.nextTurn :=
  ⟨fun q _ => State.nextTurn_port s q, State.nextTurn_resetReq s, State.nextTurn_initSeq s, State.nextTurn_params s⟩

theorem of_micro {t : Task} {s s1 : State} (h : after (micro p t s) = some s1) : OthersKept p s s1 := by
  obtain ⟨portS, portR, -, -, resetReq, initSeq, params⟩ := micro_frame h
  exact ⟨fun | .S, _ => portS | .R, _ => portR, resetReq, initSeq, params⟩

/-- However far it runs, an operation leaves the other port as it is. -/
theorem of_runOp (p : Port) (t : Task) (s : State) : OthersKept p s (runOp p t s) :=
  runTask_induct (Q := fun _ => OthersKept p s) (G := OthersKept p s)
    (stop := fun _ _ h => h.trans (of_withPort p _ _))
    (ends := fun _ _ _ _ s1 h e => (h.trans (of_micro (s1 := s1) (congrArg after e))).trans (of_withPort p _ _))
    (goes := fun _ _ _ s1 h e => h.trans (of_micro (s1 := s1) (congrArg after e)))
    (sched := fun _ _ _ h => ⟨fun | .S, hq => h.port .S hq | .R, hq => h.port .R hq, h.resetReq, h.initSeq, h.params⟩)
    (taskRank t s) t s (refl p s)

/-- A step that is no reset event is the turn of one port. -/
theorem of_step {s t : State} (hr : s.resetsNow = false) (h : step s = .next t) : OthersKept s.nextTurn.turn s t := by
  obtain ⟨hreset, -⟩ | ⟨-, p, rfl, hturn⟩ := step_cases h
  · exact absurd (hr.symm.trans hreset) Bool.false_ne_true
  have turn := of_nextTurn s.nextTurn.turn s
  obtain ⟨-, -, rfl⟩ | ⟨i, rest, st, r, -, -, -, rfl⟩ | ⟨k, -, rfl⟩ | ⟨i, rest, k, -, -, -, rfl, -⟩ := hturn
  · exact turn
  · exact (turn.trans (of_withPort _ _ _)).trans (of_withPort _ _ _)
  · exact turn.trans (of_runOp _ k _)
  · exact (turn.trans (of_withPort _ _ _)).trans (of_runOp _ k _)

end OthersKept

theorem resetsNow_of_not_requested {s : State} (h : s.resetReq = false) : s.resetsNow = false := by
  rw [State.resetsNow, h, Bool.false_and]

/-- What a turn of port `R` can change: that port, the answers of `Rx`, whose turn it is and the schedule (R38, R44). -/
def receiveTurn (s : State) (x : PortState) (l : List RxAnswer) (sc : List Port) : State :=
  { s with portR := x, env := { s.env with rxAns := l }, turn := .R, sched := sc }

theorem nextTurn_receive {s : State} (h : s.nextTurn.turn = .R) :
    s.nextTurn = receiveTurn s s.portR s.env.rxAns s.nextTurn.sched := by
  unfold State.nextTurn at h ⊢
  split at h
  · next e => rw [receiveTurn, ← h]
  · next e => cases h; rfl

theorem runOp_receiveTurn {t : Task} {s : State} (x : PortState) (l : List RxAnswer) (sc : List Port) (ht : receiveTask t) :
    ∃ x' l' sc', runOp .R t (receiveTurn s x l sc) = receiveTurn s x' l' sc' := by
  obtain ⟨l', sc', x', -, -, -, e⟩ := run_receive (s := receiveTurn s x l sc) ht
  exact ⟨x', l', sc', e⟩

/-- In a state of the invariant a step of port `R` is a turn of port `R`. -/
theorem step_receive {s t : State} (hi : Inv s) (hr : s.resetsNow = false) (hp : s.nextTurn.turn = .R)
    (h : step s = .next t) : ∃ x l sc, t = receiveTurn s x l sc := by
  have turn := nextTurn_receive hp
  obtain ⟨hreset, -⟩ | ⟨-, p, hq, hturn⟩ := step_cases h
  · exact absurd (hr.symm.trans hreset) Bool.false_ne_true
  obtain rfl : p = .R := hq.trans hp
  rw [turn] at hturn
  obtain ⟨-, -, rfl⟩ | ⟨i, rest, st, r, -, -, -, rfl⟩ | ⟨k, cur, rfl⟩ | ⟨i, rest, k, -, -, -, rfl, hk⟩ := hturn
  · exact ⟨_, _, _, rfl⟩
  · exact ⟨_, _, _, rfl⟩
  · exact runOp_receiveTurn _ _ _ (hi.portROk k cur)
  · obtain ⟨hp, -⟩ | ⟨-, task⟩ := hk
    · cases hp
    · exact runOp_receiveTurn { s.portR with cmd := rest } _ _ task

/-- Settles O47: what a turn of port `R` can change is in none of these fields. -/
theorem receivePortWritesNoRegister : Obligations.ReceivePortWritesNoRegister := by
  intro s t hi hr hp h
  obtain ⟨x, l, sc, rfl⟩ := step_receive hi hr hp h
  exact ⟨rfl, rfl, rfl, rfl, rfl, rfl, rfl⟩

end Sys2Proof.Laws

end

/-! ### Where a schedule cuts `SUBMIT` (O51) -/

section

namespace Sys2Proof.Machine

/-- An operation goes on where the schedule gives its port the next micro-step. -/
theorem State.goesOn_same {s : State} {p : Port} {l : List Port} (h : s.sched = p :: l) :
    s.goesOn p = some { s with sched := l } := by
  simp [State.goesOn, h]

/-- An operation stops where the schedule gives the other port the next micro-step. -/
theorem State.goesOn_other {s : State} {p q : Port} {l : List Port} (h : s.sched = q :: l) (hq : q ≠ p) :
    s.goesOn p = none := by
  simp [State.goesOn, h, hq]

end Sys2Proof.Machine

namespace Sys2Proof.Laws

open Machine

/-- `SUBMIT` on port `S` starts at m1 with its handle cut to `WU_W` bits. -/
theorem exec_submit (wu : Handle) (version : BitVec 32) (s : State) :
    exec (.submit .S wu version) s = .next (runOp .S (.submit1 (fitHandle s.params wu) version) s) :=
  congrArg Host.Outcome.next (onPort_same _ _ _)

/-- m1 takes the identifier and advances `NEXT_ID` (R151). -/
theorem micro_submit1 (p : Port) (wu : Handle) (version : BitVec 32) (s : State) :
    micro p (.submit1 wu version) s =
      .more (.submit2 s.eng.nextId wu version) (s.setNextId (s.eng.nextId + Config.jobStride)) := rfl

/-- The handle that a `SUBMIT` of slot `j` releases: that of its occupant, if it has one (R152). -/
def occupant (s : State) (j : BitVec 7) : Option Handle :=
  if (s.slot j).occupied then some (s.slot j).wu else none

/-- m2 appends what it releases to the `Release` history and carries it on (R151, R152). -/
theorem micro_submit2 (p : Port) (j : BitVec 7) (wu : Handle) (version : BitVec 32) (s : State) :
    micro p (.submit2 j wu version) s = .more (.submit3 j wu version (occupant s j))
      (s.withEnv { s.env with released := s.env.released ++ (occupant s j).toList }) := by
  simp only [micro, microSubmit2, occupant]
  split
  · rfl
  · simp [State.withEnv]

/-- m3 installs handle and version in an occupied slot, the flag untouched (R151). -/
theorem micro_submit3 (p : Port) (j : BitVec 7) (wu : Handle) (version : BitVec 32) (released : Option Handle) (s : State) :
    micro p (.submit3 j wu version released) s =
      .more (.submit4 j released) (s.setSlot j { s.slot j with wu := wu, version := version, occupied := true }) := rfl

/-- Settles O51: m1, m2 and m3 in turn, each with the schedule's cut after it. -/
theorem scheduleCutsSubmitBetweenMicroSteps : Obligations.ScheduleCutsSubmitBetweenMicroSteps := by
  rintro wu version s l w r rfl rfl
  have other : Port.R ≠ .S := nofun
  rw [exec_submit]
  refine ⟨fun hs => ?m1, fun hs => ?m2, fun hs => ?m3⟩
  case m1 =>
    rw [runOp_cut (micro_submit1 ..) (State.goesOn_other hs other)]
    rfl
  case m2 =>
    rw [runOp_more (micro_submit1 ..) (State.goesOn_same hs),
      runOp_cut (micro_submit2 ..) (State.goesOn_other rfl other)]
    rfl
  case m3 =>
    rw [runOp_more (micro_submit1 ..) (State.goesOn_same hs),
      runOp_more (micro_submit2 ..) (State.goesOn_same rfl),
      runOp_cut (micro_submit3 ..) (State.goesOn_other rfl other)]
    rfl

end Sys2Proof.Laws

end

/-! ### Port `S` on its own, under every interleaving (O56) -/

section

namespace Sys2Proof.Laws

open Machine Reference

/-! #### What the operations of port `S` that call no `Rx` see -/

/-- The state as the operation of port `S` sees it that calls no `Rx`: port `R`, the answers of `Rx` and the schedule are not
there, and nothing is in progress yet. -/
def alone (s : State) : State :=
  { s with
    portS := { s.portS with cur := none }
    portR := PortState.idle
    env := { s.env with rxAns := [] }
    turn := .S
    sched := []
    resetReq := false }

/-- The same outcome of a micro-step in another state. -/
def mapState (f : State → State) (m : MicroOut) : MicroOut :=
  match m with
  | .more t s => .more t (f s)
  | .done st r s => .done st r (f s)
  | .wait => .wait

theorem takeTxAnswer_alone (s : State) : takeTxAnswer (alone s) = (takeTxAnswer s).map fun x => (x.1, alone x.2) := by
  cases h : s.env.txAns with
  | nil => simp [takeTxAnswer, alone, h]
  | cons a as => rw [takeTxAnswer_cons h, takeTxAnswer_cons (s := alone s) h]; rfl

theorem setValid_alone (p : Port) (j : BitVec 7) (s : State) : setValid p j (alone s) = (setValid p j s).map alone := by
  by_cases h : s.eng.lock = .free
  · rw [setValid_free h, setValid_free (s := alone s) h]; rfl
  · rw [setValid_none h, setValid_none (s := alone s) h]; rfl

theorem readValid_alone (p : Port) (j : BitVec 7) (s : State) :
    readValid p j (alone s) = (readValid p j s).map fun x => (x.1, alone x.2) := by
  by_cases h : s.eng.lock = .free
  · rw [readValid_free h, readValid_free (s := alone s) h]; rfl
  · rw [readValid_none h, readValid_none (s := alone s) h]; rfl

/-- A micro-step that calls no `Rx` does in the state on its own what it does in the whole state. -/
theorem micro_alone {t : Task} (p : Port) (s : State) (h : callsNoRx t = true) :
    micro p t (alone s) = mapState alone (micro p t s) := by
  have slot : ∀ j, (alone s).slot j = s.slot j := fun _ => rfl
  cases t with
  | transmit left ok k =>
    cases left with
    | nil =>
      cases k with
      | assign n =>
        by_cases hi : s.eng.initState = .identityVerified <;>
          simp [micro, microTransmit, afterTx, mapState, alone, hi, State.setInitState, State.withEng]
      | enumerate => cases h
      | send | setfreq | initStep | refuseOperand => rfl
    | cons F rest => rfl
  | txWait left ok k =>
    simp only [micro, microTxWait, takeTxAnswer_alone]
    cases takeTxAnswer s <;> rfl
  | submit1 | submit3 | take2 | take3 | parse1 | parse3 | parse5 => rfl
  | submit2 =>
    simp only [micro, microSubmit2, slot]
    split <;> rfl
  | submit4 =>
    simp only [micro, microSubmit4, setValid_alone]
    cases setValid p _ s <;> rfl
  | markValid =>
    simp only [micro, microMarkValid, setValid_alone]
    cases setValid p _ s <;> rfl
  | isValid =>
    simp only [micro, microIsValid, readValid_alone]
    cases readValid p _ s <;> rfl
  | take1 =>
    simp only [micro, microTake1, slot]
    split <;> rfl
  | parse2 =>
    simp only [micro, microParse2, readValid_alone]
    cases readValid p _ s with
    | none => rfl
    | some x => cases hx : x.1 <;> simp [hx, mapState]
  | parse4 =>
    simp only [micro, microParse4, slot]
    split <;> rfl
  | enumRead | resultRead => cases h

/-- Whether an operation calls `Rx` after its frames is not a matter of the frames. -/
theorem callsNoRx_txWait (left left' : List Bytes) (ok ok' : Bool) (k : AfterTx) :
    callsNoRx (.txWait left ok k) = callsNoRx (.transmit left' ok' k) := by
  cases k <;> rfl

/-- An operation that calls no `Rx` goes on to a micro-step of such an operation. -/
theorem callsNoRx_more {p : Port} {t t1 : Task} {s s1 : State} (h : callsNoRx t = true)
    (hm : micro p t s = .more t1 s1) : callsNoRx t1 = true := by
  cases t with
  | transmit left ok k =>
    cases left with
    | nil => cases k <;> cases hm; cases h
    | cons F rest => cases hm; exact (callsNoRx_txWait ..).trans h
  | txWait left ok k =>
    simp only [micro, microTxWait] at hm
    split at hm <;> cases hm
    exact (callsNoRx_txWait ..).symm.trans h
  | submit1 | submit3 | take2 | parse1 | parse3 => cases hm; rfl
  | take3 | parse5 => cases hm
  | submit2 => simp only [micro, microSubmit2] at hm; split at hm <;> cases hm <;> rfl
  | submit4 => simp only [micro, microSubmit4] at hm; split at hm <;> cases hm
  | markValid => simp only [micro, microMarkValid] at hm; split at hm <;> cases hm
  | isValid => simp only [micro, microIsValid] at hm; split at hm <;> cases hm
  | take1 => simp only [micro, microTake1] at hm; split at hm <;> cases hm; rfl
  | parse2 =>
    simp only [micro, microParse2] at hm
    split at hm
    · cases hm
    · split at hm <;> cases hm; rfl
  | parse4 => simp only [micro, microParse4] at hm; split at hm <;> cases hm; rfl
  | enumRead | resultRead => cases h

/-! #### Running such an operation, cut or not -/

/-- With no switch of port ordered, the operation ends or waits as it does on its own. -/
theorem runTask_alone {t : Task} {s : State} (n : Nat) (h : callsNoRx t = true) (hs : s.sched = []) :
    sameForSend (runTask n .S t s) (runTask n .S t (alone s)) := by
  induction n generalizing t s with
  | zero => exact ⟨rfl, rfl, rfl, rfl, rfl⟩
  | succ n ih =>
    have view := micro_alone .S s h
    cases hm : micro .S t s with
    | wait =>
      rw [hm] at view
      rw [runTask_wait hm, runTask_wait view]
      exact ⟨rfl, rfl, rfl, rfl, rfl⟩
    | done st r s1 =>
      rw [hm] at view
      rw [runTask_done hm, runTask_done view]
      exact ⟨rfl, rfl, rfl, rfl, rfl⟩
    | more t1 s1 =>
      rw [hm] at view
      obtain ⟨-, -, -, sched, -⟩ := micro_frame (s1 := s1) (congrArg after hm)
      rw [runTask_more hm (sched.trans hs), runTask_more view rfl]
      exact ih (callsNoRx_more h hm) (sched.trans hs)

/-- The rank of an operation that calls no `Rx` is a matter of the operation alone. -/
theorem taskRank_alone {t : Task} (s : State) (h : callsNoRx t = true) : taskRank t (alone s) = taskRank t s := by
  cases t with
  | transmit left ok k | txWait left ok k =>
    cases k with
    | enumerate => cases h
    | send | assign | setfreq | initStep | refuseOperand => rfl
  | enumRead | resultRead => cases h
  | submit1 | submit2 | submit3 | submit4 | markValid | isValid | take1 | take2 | take3 | parse1 | parse2 | parse3 | parse4
  | parse5 => rfl

theorem runOp_alone {t : Task} {s : State} (h : callsNoRx t = true) (hs : s.sched = []) :
    sameForSend (runOp .S t s) (runOp .S t (alone s)) := by
  rw [runOp, runOp, taskRank_alone s h]
  exact runTask_alone _ h hs

/-! #### What an operation is to end with -/

/-- Port `S` has one operation to do that calls no `Rx`, and running on its own it ends or waits with `e`; or port `S` has done
it, and `e` is where it ended. -/
inductive SendEnds (e : State) : State → Prop
  | resumed {s : State} (t : Task) (cur : s.portS.cur = some t) (noRx : callsNoRx t = true) (cmd : s.portS.cmd = [])
      (ends : e = runOp .S t (alone s)) : SendEnds e s
  | presented {s : State} (i : Instr) (cur : s.portS.cur = none)
      (decoded : decodeCommandPort s.params .S s.portS.cmd = .ok (i, [])) (noRx : ∀ n x l, i ≠ .enumerate .S n x l)
      (ends : exec i ((alone s).withCmd .S []) = .next e) : SendEnds e s
  | ended {s : State} (cur : s.portS.cur = none) (cmd : s.portS.cmd = []) (ends : e = alone s) : SendEnds e s

/-- However the operation is cut, it is to end with what it would have ended with uncut. -/
theorem runOp_sendEnds {t : Task} {s : State} (h : callsNoRx t = true) (hc : s.portS.cmd = []) :
    SendEnds (runOp .S t (alone s)) (runOp .S t s) := by
  refine runTask_induct (p := .S)
    (Q := fun t' s' => callsNoRx t' = true ∧ s'.portS.cmd = [] ∧ runOp .S t (alone s) = runOp .S t' (alone s'))
    (G := SendEnds (runOp .S t (alone s))) ?stop ?ends ?goes ?sched _ t s ⟨h, hc, rfl⟩
  case stop =>
    rintro t' s' ⟨noRx, cmd, ends⟩
    exact .resumed t' rfl noRx cmd ends
  case ends =>
    rintro t' s' st r s1 ⟨noRx, cmd, ends⟩ hm
    obtain ⟨portS, -⟩ := micro_frame (s1 := s1) (congrArg after hm)
    have view := micro_alone .S s' noRx
    rw [hm] at view
    exact .ended rfl ((congrArg PortState.cmd portS).trans cmd) (ends.trans (runOp_done view))
  case goes =>
    rintro t' s' t1 s1 ⟨noRx, cmd, ends⟩ hm
    obtain ⟨portS, -⟩ := micro_frame (s1 := s1) (congrArg after hm)
    have view := micro_alone .S s' noRx
    rw [hm] at view
    exact ⟨callsNoRx_more noRx hm, portS ▸ cmd, ends.trans (runOp_more view (State.goesOn_nil .S rfl))⟩
  case sched => exact fun _ _ _ h => h

/-- A `SUBMIT` that the schedule cuts after m1 meets the hypotheses of `runOp_sendEnds`. -/
theorem witness_runOp_sendEnds :
    SendEnds (runOp .S (.submit1 5 0x20000000) (alone State.reset))
      (runOp .S (.submit1 5 0x20000000) { State.reset with sched := [.R] }) :=
  runOp_sendEnds (s := { State.reset with sched := [.R] }) rfl rfl

/-! #### How an operation begins -/

/-- How an operation begins: it is answered at once or starts a task. -/
inductive Opening where
  | answered (st : Status) (r : Results)
  | started (t : Task)

/-- What an opening does on port `S`. -/
def Opening.run (o : Opening) (s : State) : State :=
  match o with
  | .answered st r => s.answer .S st r
  | .started t => runOp .S t s

/-- The registers and the configuration are the same. -/
structure SameRegisters (s' s : State) : Prop where
  eng : s'.eng = s.eng
  params : s'.params = s.params
  initSeq : s'.initSeq = s.initSeq

/-- `o` opens `i` on port `S` in every state with the registers and the configuration of `s`, and calls no `Rx`. -/
structure Opens (i : Instr) (s : State) (o : Opening) : Prop where
  noRx : ∀ t, o = .started t → callsNoRx t = true
  exec : ∀ s', SameRegisters s' s → exec i s' = .next (o.run s')

section

variable {i : Instr} {s : State}

theorem opens_answered (st : Status) (r : Results)
    (h : ∀ s', SameRegisters s' s → exec i s' = .next (s'.answer .S st r)) : ∃ o, Opens i s o :=
  ⟨.answered st r, nofun, h⟩

theorem opens_started (t : Task) (ht : callsNoRx t = true)
    (h : ∀ s', SameRegisters s' s → exec i s' = .next (runOp .S t s')) : ∃ o, Opens i s o :=
  ⟨.started t, fun _ e => by cases e; exact ht, h⟩

theorem opens_frames (l : List FrameSpec) (k : AfterTx) (hk : ∀ left, callsNoRx (.transmit left true k) = true)
    (h : ∀ s', SameRegisters s' s → exec i s' = .next (runFrames .S l k s')) : ∃ o, Opens i s o := by
  refine opens_started (.transmit (encodeList s.params l).1 true (if (encodeList s.params l).2 then k else .refuseOperand))
    ?_ fun s' same => ?_
  · split
    · exact hk _
    · rfl
  · rw [h s' same, runFrames, same.params]

theorem opens_send (F : Params → Bytes) (h : ∀ s', exec i s' = .next (sendBytes .S (F s'.params) s')) : ∃ o, Opens i s o :=
  opens_started (.transmit [F s.params] true .send) rfl fun s' same => by rw [h, sendBytes, same.params]

end

theorem encode_opens (h : Byte) (P : Bytes) (s : State) : ∃ o, Opens (.encode .S h P) s o := by
  have run : ∀ s', exec (.encode .S h P) s' = .next (answerEncode .S h P s') := fun _ => rfl
  cases hF : encodeFrame s.params h P with
  | some F => exact opens_answered .ok (.bytes F) fun s' same => by rw [run, answerEncode, same.params, hF]
  | none => exact opens_answered .refusedOperand .empty fun s' same => by rw [run, answerEncode, same.params, hF]

theorem decode_opens (B : Bytes) (s : State) : ∃ o, Opens (.decode .S B) s o := by
  have run : ∀ s', exec (.decode .S B) s' = .next (answerDecode .S B s') := fun _ => rfl
  cases hF : decodeFrame s.params B with
  | accepted h P => exact opens_answered .ok (.decoded h P) fun s' same => by rw [run, answerDecode, same.params, hF]
  | badPreamble => exact opens_answered .framePreamble .empty fun s' same => by rw [run, answerDecode, same.params, hF]
  | badLength => exact opens_answered .frameLength .empty fun s' same => by rw [run, answerDecode, same.params, hF]
  | badChecksum => exact opens_answered .frameChecksum .empty fun s' same => by rw [run, answerDecode, same.params, hF]

theorem solve_opens (t : BitVec 32) (s : State) : ∃ o, Opens (.solve .S t) s o := by
  have run : ∀ s', exec (.solve .S t) s' = .next (answerFound .S (solve s'.params t) s') := fun _ => rfl
  cases hF : solve s.params t with
  | none => exact opens_answered .notFound .empty fun s' same => by rw [run, same.params, hF]; rfl
  | some c => exact opens_answered .ok (.solved (pllResult c)) fun s' same => by rw [run, same.params, hF]; rfl

theorem setfreq_opens (t : BitVec 32) (s : State) : ∃ o, Opens (.setfreq .S t) s o := by
  have run : ∀ s', exec (.setfreq .S t) s' = .next (sendFound .S (solve s'.params t) s') := fun _ => rfl
  cases hF : solve s.params t with
  | none => exact opens_answered .notFound .empty fun s' same => by rw [run, same.params, hF]; rfl
  | some c =>
    exact opens_frames [pllSpec s.params (pllResult c)] (.setfreq (pllResult c)) (fun _ => rfl) fun s' same => by
      rw [run, same.params, hF, sendFound, same.params]

theorem assign_opens (s : State) : ∃ o, Opens (.assign .S) s o := by
  have run : ∀ s', exec (.assign .S) s' = .next (runAssign .S s') := fun _ => rfl
  by_cases h : refusesAssign s.eng.initState = true
  · exact opens_answered .refusedSequence (.initState s.eng.initState) fun s' same => by
      rw [run, runAssign, same.eng, if_pos h]
  · exact opens_frames (assignFrames s.params s.eng.chipCount.toNat) (.assign s.eng.chipCount) (fun _ => rfl)
      fun s' same => by rw [run, runAssign, same.eng, same.params, if_neg h]

theorem initStep_opens (s : State) : ∃ o, Opens (.initStep .S) s o := by
  have run : ∀ s', exec (.initStep .S) s' = .next (runInitStep .S s') := fun _ => rfl
  cases h : initNext s.eng.initState with
  | none =>
    exact opens_answered .refusedSequence (.initState s.eng.initState) fun s' same => by
      rw [run, runInitStep, same.eng, h]
  | some next =>
    exact opens_frames (initFrames s.initSeq s.eng.initState s.eng.chipCount) (.initStep next) (fun _ => rfl)
      fun s' same => by rw [run, runInitStep, same.eng, same.initSeq, h]

theorem idRecord_opens (a c : BitVec 16) (rest : Bytes) (s : State) : ∃ o, Opens (.idRecord .S a c rest) s o := by
  have run : ∀ s', exec (.idRecord .S a c rest) s' = .next (answerIdRecord .S (idRecordBytes a c rest) s') := fun _ => rfl
  by_cases h : (idRecordBytes a c rest).length < minExpLen s.params
  · exact opens_answered .refusedOperand .empty fun s' same => by rw [run, answerIdRecord, same.params, if_pos h]
  · exact opens_answered .ok (.chipId (chipIdOf s.params (idRecordBytes a c rest))) fun s' same => by
      rw [run, answerIdRecord, same.params, if_neg h]

/-- An operation of port `S` other than `ENUMERATE` begins in a way that the registers and the configuration decide. -/
theorem exec_opens {i : Instr} (s : State) (hp : i.port = .S) (hi : ∀ n x l, i ≠ .enumerate .S n x l) :
    ∃ o, Opens i s o := by
  cases i <;> cases hp
  case encode h P => exact encode_opens h P s
  case decode B => exact decode_opens B s
  case solve t => exact solve_opens t s
  case setfreq t => exact setfreq_opens t s
  case assign => exact assign_opens s
  case initStep => exact initStep_opens s
  case idRecord a c rest => exact idRecord_opens a c rest s
  case enumerate n x l => exact absurd rfl (hi n x l)
  case submit wu v =>
    exact opens_started (.submit1 (fitHandle s.params wu) v) rfl fun s' same => by rw [exec_submit, same.params]
  case markValid j => exact opens_started (.markValid j) rfl fun _ _ => rfl
  case send F => exact opens_send (fun _ => F) fun _ => rfl
  case frameCommand h len rest | frameJob h len rest => exact opens_send (fun _ => rawFrame h len rest) fun _ => rfl
  case readid crc => exact opens_send (fun c => rawCommand c c.hdrReadid c.readidPayload crc) fun _ => rfl
  case setaddr a crc => exact opens_send (fun c => rawCommand c c.hdrSetaddr [a, 0x00] crc) fun _ => rfl
  case pllwrite hf fb refdiv post1m post2m crc =>
    exact opens_send (fun c => rawCommand c c.hdrWriteAll (pllPayloadRaw c hf fb refdiv post1m post2m) crc) fun _ => rfl
  case crc5 B => exact opens_answered .ok (.crc5 (crc5 s.params B)) fun s' same => by rw [← same.params]; rfl
  case crc16 B => exact opens_answered .ok (.crc16 (crc16 s.params B)) fun s' same => by rw [← same.params]; rfl
  case header t c j g k =>
    exact opens_answered .ok (.headerByte (headerByte s.params t c j g k) (isJobHeader s.params (headerByte s.params t c j g k)))
      fun s' same => by rw [← same.params]; rfl
  all_goals exact opens_answered _ _ fun _ _ => rfl

/-! #### Turns and runs -/

/-- A run of one step more goes on from the state after the first. -/
theorem run_succ {M : Host.Core} {n : Nat} {s t : M.State} (h : M.step s = .next t) : M.run (n + 1) s = M.run n t := by
  rw [Host.Core.run, h]

/-- A run of one step more that stops nowhere has a first step. -/
theorem run_first {M : Host.Core} {n : Nat} {s u : M.State} (h : M.run (n + 1) s = .next u) : ∃ t, M.step s = .next t := by
  rw [Host.Core.run] at h
  split at h
  · next t e => exact ⟨t, e⟩
  all_goals cases h

/-- What holds at the start of a run, and is kept by each of its steps, holds at its end. -/
theorem run_induct {P : State → Prop} {m : Nat} {s u : State} (hrun : Host.Core.run core m s = .next u) (h : P s)
    (keeps : ∀ w t, seenBefore m s w → P w → step w = .next t → P t) : P u := by
  induction m generalizing s with
  | zero => cases hrun; exact h
  | succ m ih =>
    obtain ⟨t, hs⟩ := run_first hrun
    refine ih (run_succ hs ▸ hrun) (keeps s t ⟨0, m.succ_pos, rfl⟩ h hs) fun w t' => ?_
    rintro ⟨n, hn, hw⟩
    exact keeps w t' ⟨n + 1, Nat.succ_lt_succ hn, (run_succ hs).trans hw⟩

section

variable {p : Port} {s : State}

theorem stepPort_resumed {t : Task} (cur : (s.port p).cur = some t) : stepPort p s = .next (runOp p t s) := by
  rw [stepPort, cur]

theorem stepPort_presented {i : Instr} {rest : Bytes} (cur : (s.port p).cur = none)
    (decoded : decodeCommandPort s.params p (s.port p).cmd = .ok (i, rest)) :
    stepPort p s = exec i (s.withCmd p rest) := by
  rw [stepPort, cur]
  simp only [fetch, decoded]

theorem stepPort_idle (cur : (s.port p).cur = none) (cmd : (s.port p).cmd = []) : stepPort p s = .next s := by
  rw [stepPort, cur]
  simp only [fetch, cmd]
  rfl

theorem step_eq_stepPort (h : s.resetReq = false) : step s = stepPort s.nextTurn.turn s.nextTurn := by
  simp [step, h]

end

/-- What an operation is to end with is read off port `S` and the state on its own. -/
theorem SendEnds.congr {e s s' : State} (h : SendEnds e s) (hv : alone s' = alone s) (hp : s'.portS = s.portS) :
    SendEnds e s' := by
  have params : s'.params = s.params := by
    show (alone s').params = (alone s).params
    rw [hv]
  cases h with
  | resumed t cur noRx cmd ends => exact .resumed t (hp ▸ cur) noRx (hp ▸ cmd) (hv ▸ ends)
  | presented i cur decoded noRx ends => exact .presented i (hp ▸ cur) (by rw [hp, params]; exact decoded) noRx (hv ▸ ends)
  | ended cur cmd ends => exact .ended (hp ▸ cur) (hp ▸ cmd) (hv ▸ ends)

theorem alone_nextTurn (s : State) : alone s.nextTurn = alone s := by
  unfold State.nextTurn
  split <;> rfl

/-- A turn of port `S` leaves what its operation is to end with; and if nothing cuts the turn, the operation ends or waits with
it. -/
theorem SendEnds.of_turn {e s t : State} (h : SendEnds e s) (ht : stepPort .S s = .next t) :
    SendEnds e t ∧ (s.sched = [] → sameForSend t e) := by
  cases h with
  | resumed k cur noRx cmd ends =>
    rw [stepPort_resumed (p := .S) cur] at ht
    cases ht
    subst ends
    exact ⟨runOp_sendEnds noRx cmd, runOp_alone noRx⟩
  | presented i cur decoded noRx ends =>
    obtain ⟨o, opens⟩ := exec_opens s (decodeCommandPort_port decoded) noRx
    rw [stepPort_presented (p := .S) cur decoded, opens.exec (s.withCmd .S []) ⟨rfl, rfl, rfl⟩] at ht
    rw [opens.exec ((alone s).withCmd .S []) ⟨rfl, rfl, rfl⟩] at ends
    cases ht
    cases ends
    cases o with
    | answered st r => exact ⟨.ended rfl rfl rfl, fun _ => ⟨rfl, rfl, rfl, rfl, rfl⟩⟩
    | started k =>
      have noRx := opens.noRx k rfl
      exact ⟨runOp_sendEnds (s := s.withCmd .S []) noRx rfl, runOp_alone (s := s.withCmd .S []) noRx⟩
  | ended cur cmd ends =>
    rw [stepPort_idle (p := .S) cur cmd] at ht
    cases ht
    have portS : s.portS = { s.portS with cur := none } := by rw [← cur]
    exact ⟨.ended cur cmd ends, fun _ => ends ▸ ⟨rfl, portS, rfl, rfl, rfl⟩⟩

theorem uncutSendTurn_ends {e s t : State} (h : SendEnds e s) (hr : s.resetReq = false) (ht : uncutSendTurn s = .next t) :
    sameForSend t e := by
  have turn : uncutSendTurn s = stepPort .S { s with turn := .S, sched := [] } := step_eq_stepPort hr
  rw [turn] at ht
  exact (SendEnds.of_turn (h.congr (s' := { s with turn := .S, sched := [] }) rfl rfl) ht).2 rfl

/-- A step, whichever port's turn it is, leaves what the operation of port `S` is to end with. -/
theorem SendEnds.of_step {e s t : State} (h : SendEnds e s) (hi : Inv s) (hr : s.resetReq = false)
    (ht : step s = .next t) : SendEnds e t := by
  cases hp : s.nextTurn.turn with
  | S =>
    rw [step_eq_stepPort hr, hp] at ht
    exact (h.congr (alone_nextTurn s) (State.nextTurn_portS s)).of_turn ht |>.1
  | R =>
    obtain ⟨x, l, sc, rfl⟩ := step_receive hi (resetsNow_of_not_requested hr) hp ht
    exact h.congr rfl rfl

/-- An operation that calls no `Rx` is to end with something. -/
theorem sendEnds_of_oneSendOperation {s : State} (h : oneSendOperation s) : ∃ e, SendEnds e s := by
  obtain ⟨t, cur, noRx, cmd⟩ | ⟨cur, i, decoded, noRx⟩ := h
  · exact ⟨_, .resumed t cur noRx cmd rfl⟩
  · obtain ⟨o, opens⟩ := exec_opens s (decodeCommandPort_port decoded) noRx
    exact ⟨_, .presented i cur decoded noRx (opens.exec _ ⟨rfl, rfl, rfl⟩)⟩

theorem sameForSend_of_both {a b e : State} (h : sameForSend a e) (h' : sameForSend b e) : sameForSend a b := by
  obtain ⟨eng, portS, txLog, released, txAns⟩ := h
  obtain ⟨eng', portS', txLog', released', txAns'⟩ := h'
  exact ⟨eng.trans eng'.symm, portS.trans portS'.symm, txLog.trans txLog'.symm, released.trans released'.symm,
    txAns.trans txAns'.symm⟩

/-- Settles O56: what the operation of port `S` is to end with is the same in every state of the run, and the uncut turn ends
with it. -/
theorem sendOperationsEndAlikeUnderEveryInterleaving : Obligations.SendOperationsEndAlikeUnderEveryInterleaving := by
  intro s u u' r m hi hr one hrun hs hu
  obtain ⟨e, ends⟩ := sendEnds_of_oneSendOperation one
  have kept : Inv u ∧ u.resetReq = false ∧ SendEnds e u := by
    refine run_induct hrun (P := fun w => Inv w ∧ w.resetReq = false ∧ SendEnds e w) ⟨hi, hr, ends⟩ ?_
    rintro w t - ⟨hi, hr, ends⟩ ht
    have others := OthersKept.of_step (resetsNow_of_not_requested hr) ht
    exact ⟨invariantKeptByEveryStep w t hi ht, others.resetReq.trans hr, ends.of_step hi hr ht⟩
  obtain ⟨-, hru, endsU⟩ := kept
  exact sameForSend_of_both (uncutSendTurn_ends endsU hru hu) (uncutSendTurn_ends ends hr hs)

end Sys2Proof.Laws

end

/-! ### What the operations of port `R` answer, under every interleaving (O57) -/

section

namespace Sys2Proof.Laws

open Machine Reference

/-! #### The fields of a record, by arithmetic (R63) -/

theorem toNat_append_byte {n : Nat} (x : BitVec n) (b : Byte) : (x ++ b).toNat = x.toNat * 256 + b.toNat := by
  rw [BitVec.toNat_append, ← Nat.shiftLeft_add_eq_or_of_lt b.isLt, Nat.shiftLeft_eq]

theorem toNat_beWord16 (a b : Byte) : (beWord16 a b).toNat = a.toNat * 256 + b.toNat :=
  toNat_append_byte a b

theorem toNat_beWord32 (a b c d : Byte) :
    (beWord32 a b c d).toNat = a.toNat * 2 ^ 24 + b.toNat * 2 ^ 16 + c.toNat * 2 ^ 8 + d.toNat := by
  rw [beWord32, toNat_append_byte, toNat_append_byte, toNat_append_byte]
  omega

theorem jobIdOf_eq : ∀ b : Byte, jobIdOf b = BitVec.ofNat 7 (b.toNat / 16 * 8) := by decide +kernel

theorem smallCoreIdOf_eq : ∀ b : Byte, smallCoreIdOf b = BitVec.ofNat 4 (b.toNat % 16) := by decide +kernel

/-- R63: `nonce[31:25]` is the first byte of the nonce without its lowest bit. -/
theorem coreIdOf_beWord32 (a b c d : Byte) : coreIdOf (beWord32 a b c d) = BitVec.ofNat 7 (a.toNat / 2) := by
  refine BitVec.eq_of_toNat_eq ?_
  rw [coreIdOf, BitVec.extractLsb'_toNat, toNat_beWord32, BitVec.toNat_ofNat, Nat.shiftRight_eq_div_pow]
  omega

theorem rolledVersion_eq (stored : BitVec 32) (v : BitVec 16) :
    rolledVersion stored v = stored ||| BitVec.ofNat 32 (v.toNat * 2 ^ 13) := by
  have shifted : v.setWidth 32 <<< Config.versionShift = BitVec.ofNat 32 (v.toNat * 2 ^ 13) := by
    refine BitVec.eq_of_toNat_eq ?_
    rw [BitVec.toNat_shiftLeft, BitVec.toNat_setWidth_of_le (by decide), BitVec.toNat_ofNat, Nat.shiftLeft_eq]
    rfl
  rw [rolledVersion, shifted]

/-- p1 extracts R63's job identifier. -/
theorem jobIdOf_replyIdOf (B : Vector Byte Config.respLen) : jobIdOf (replyIdOf B) = recordJob B := jobIdOf_eq _

/-- p3 and p5 extract R63's other fields. -/
theorem parsed_fields (B : Vector Byte Config.respLen) (j : BitVec 7) (stored : BitVec 32) :
    ({ jobId := j, coreId := coreIdOf (nonceOf B), smallCoreId := smallCoreIdOf (replyIdOf B), nonce := nonceOf B,
        nonceBytes := nonceBytesOf B, rolledVersion := rolledVersion stored (version16Of B) } : ChipResult) =
      { chipResult B stored with jobId := j } := by
  have nonce : nonceOf B = (chipResult B stored).nonce := by
    refine BitVec.eq_of_toNat_eq ?_
    rw [nonceOf, toNat_beWord32, chipResult, BitVec.toNat_ofNat]
    omega
  have core : coreIdOf (nonceOf B) = (chipResult B stored).coreId := coreIdOf_beWord32 _ _ _ _
  have version : rolledVersion stored (version16Of B) = (chipResult B stored).rolledVersion := by
    rw [rolledVersion_eq, version16Of, toNat_beWord16]
    rfl
  rw [core, nonce, version, smallCoreIdOf_eq]
  rfl

/-! #### What an operation may still answer -/

/-- What a `PARSE` may answer to the read of slot `j` at p4, `f` being its result for a stored version (R168). -/
def versionSaw (seen : State → Prop) (j : BitVec 7) (f : BitVec 32 → ChipResult) (x : Response) : Prop :=
  ∃ v, seen v ∧ (((v.slot j).occupied = false ∧ x = ⟨.slotEmpty, .jobId j⟩) ∨
    ((v.slot j).occupied = true ∧ x = ⟨.ok, .parsed (f (v.slot j).version)⟩))

/-- What an operation of port `R` in progress may answer when the reads it has still to do are of states in `seen`. -/
def mayAnswer (seen : State → Prop) (t : Task) (x : Response) : Prop :=
  match t with
  | .isValid j => ∃ w, seen w ∧ x = ⟨.ok, .validity (w.slot j).valid⟩
  | .take1 j =>
    (∃ w, seen w ∧ (w.slot j).occupied = false ∧ x = ⟨.slotEmpty, .jobId j⟩) ∨
    ∃ w v u, seen w ∧ seen v ∧ seen u ∧ (w.slot j).occupied = true ∧ x = ⟨.ok, .taken (v.slot j).wu (u.slot j).version⟩
  | .take2 j => ∃ v u, seen v ∧ seen u ∧ x = ⟨.ok, .taken (v.slot j).wu (u.slot j).version⟩
  | .take3 j wu => ∃ u, seen u ∧ x = ⟨.ok, .taken wu (u.slot j).version⟩
  | .resultRead =>
    (∃ w l, seen w ∧ w.env.rxAns = .failure :: l ∧ x = ⟨.noResult, .empty⟩) ∨
    ∃ w l, ∃ B : Vector Byte Config.respLen, seen w ∧ w.env.rxAns = .bytes B.toList :: l ∧ parseSaw seen B x
  | .parse1 B => parseSaw seen B x
  | .parse2 B j =>
    (∃ w, seen w ∧ (w.slot j).valid = false ∧ x = ⟨.rejected, .jobId j⟩) ∨
    ∃ w, seen w ∧ (w.slot j).valid = true ∧ versionSaw seen j (fun st => { chipResult B st with jobId := j }) x
  | .parse3 B j => versionSaw seen j (fun st => { chipResult B st with jobId := j }) x
  | .parse4 j c sc n nb v =>
    versionSaw seen j (fun st => { jobId := j, coreId := c, smallCoreId := sc, nonce := n, nonceBytes := nb,
                                   rolledVersion := rolledVersion st v }) x
  | .parse5 j c sc n nb v st =>
    x = ⟨.ok, .parsed { jobId := j, coreId := c, smallCoreId := sc, nonce := n, nonceBytes := nb,
                        rolledVersion := rolledVersion st v }⟩
  | .transmit _ _ _ | .txWait _ _ _ | .enumRead _ _ _ _ _ | .submit1 _ _ | .submit2 _ _ _ | .submit3 _ _ _ _
  | .submit4 _ _ | .markValid _ => False

/-- A micro-step of the operation at `t` answers what it may, or goes on to where it may answer no more than before. -/
def AnswersFrom (seen : State → Prop) (t : Task) (m : MicroOut) : Prop :=
  match m with
  | .more t1 _ => t1 ≠ .resultRead ∧ ∀ x, mayAnswer seen t1 x → mayAnswer seen t x
  | .done st r _ => mayAnswer seen t ⟨st, r⟩
  | .wait => True

section

variable {seen : State → Prop} {s : State} (h : ∃ w, seen w ∧ s.eng = w.eng)
include h

/-- A seen state with the registers of `s` has the slots of `s`. -/
theorem seen_slot : ∃ w, seen w ∧ ∀ j, s.slot j = w.slot j := by
  obtain ⟨w, hw, eng⟩ := h
  exact ⟨w, hw, fun j => by rw [State.slot, eng]; rfl⟩

theorem microIsValid_answersFrom (p : Port) (j : BitVec 7) : AnswersFrom seen (.isValid j) (microIsValid p j s) := by
  obtain ⟨w, hw, slot⟩ := seen_slot h
  unfold microIsValid
  split
  · trivial
  · next e =>
    obtain ⟨-, rfl, -⟩ := readValid_some e
    exact ⟨w, hw, by rw [slot]⟩

theorem microTake1_answersFrom (j : BitVec 7) : AnswersFrom seen (.take1 j) (microTake1 j s) := by
  obtain ⟨w, hw, slot⟩ := seen_slot h
  unfold microTake1
  rw [slot]
  split
  · next occ =>
    refine ⟨nofun, ?_⟩
    rintro x ⟨v, u, hv, hu, rfl⟩
    exact .inr ⟨w, v, u, hw, hv, hu, occ, rfl⟩
  · next occ => exact .inl ⟨w, hw, Bool.not_eq_true _ ▸ occ, rfl⟩

theorem microTake2_answersFrom (j : BitVec 7) : AnswersFrom seen (.take2 j) (microTake2 j s) := by
  obtain ⟨w, hw, slot⟩ := seen_slot h
  refine ⟨nofun, ?_⟩
  rintro x ⟨u, hu, rfl⟩
  exact ⟨w, u, hw, hu, by rw [slot]⟩

theorem microTake3_answersFrom (j : BitVec 7) (wu : Handle) : AnswersFrom seen (.take3 j wu) (microTake3 j wu s) := by
  obtain ⟨w, hw, slot⟩ := seen_slot h
  exact ⟨w, hw, by rw [slot]⟩

omit h in
theorem microResultRead_answersFrom (h : ∃ w, seen w ∧ s.env.rxAns = w.env.rxAns) :
    AnswersFrom seen .resultRead (microResultRead s) := by
  obtain ⟨w, hw, rx⟩ := h
  unfold microResultRead
  split
  · trivial
  · next e =>
    obtain ⟨l, -, e⟩ := callRx_some e
    exact .inl ⟨w, l, hw, rx.symm.trans e, rfl⟩
  · next B s1 e =>
    obtain ⟨l, -, e⟩ := callRx_some e
    exact ⟨nofun, fun x hx => .inr ⟨w, l, B, hw, rx.symm.trans e, hx⟩⟩

omit h in
theorem microParse1_answersFrom (B : Vector Byte Config.respLen) : AnswersFrom seen (.parse1 B) (microParse1 B s) := by
  refine ⟨nofun, fun x hx => ?_⟩
  rw [jobIdOf_replyIdOf] at hx
  obtain rejected | ⟨w, hw, valid, v, hv, read⟩ := hx
  · exact .inl rejected
  · exact .inr ⟨w, v, hw, hv, valid, read⟩

theorem microParse2_answersFrom (p : Port) (B : Vector Byte Config.respLen) (j : BitVec 7) :
    AnswersFrom seen (.parse2 B j) (microParse2 p B j s) := by
  obtain ⟨w, hw, slot⟩ := seen_slot h
  unfold microParse2
  split
  · trivial
  · next v s1 e =>
    obtain ⟨-, rfl, -⟩ := readValid_some e
    rw [slot]
    split
    · next valid => exact ⟨nofun, fun x hx => .inr ⟨w, hw, valid, hx⟩⟩
    · next valid => exact .inl ⟨w, hw, Bool.not_eq_true _ ▸ valid, rfl⟩

omit h in
theorem microParse3_answersFrom (B : Vector Byte Config.respLen) (j : BitVec 7) :
    AnswersFrom seen (.parse3 B j) (microParse3 B j s) := by
  refine ⟨nofun, fun x hx => ?_⟩
  simp only [mayAnswer, parsed_fields] at hx
  exact hx

theorem microParse4_answersFrom (j c : BitVec 7) (sc : BitVec 4) (n : BitVec 32) (nb : Bytes) (v : BitVec 16) :
    AnswersFrom seen (.parse4 j c sc n nb v) (microParse4 j c sc n nb v s) := by
  obtain ⟨w, hw, slot⟩ := seen_slot h
  unfold microParse4
  rw [slot]
  split
  · next occ =>
    refine ⟨nofun, ?_⟩
    rintro x rfl
    exact ⟨w, hw, .inr ⟨occ, rfl⟩⟩
  · next occ => exact ⟨w, hw, .inl ⟨Bool.not_eq_true _ ▸ occ, rfl⟩⟩

/-- Every micro-step of an operation of port `R`, in a state whose registers and answers of `Rx` have been seen. -/
theorem micro_answersFrom {t : Task} (ht : receiveTask t)
    (hrx : t = .resultRead → ∃ w, seen w ∧ s.env.rxAns = w.env.rxAns) : AnswersFrom seen t (micro .R t s) := by
  cases t with
  | isValid j => exact microIsValid_answersFrom h .R j
  | take1 j => exact microTake1_answersFrom h j
  | take2 j => exact microTake2_answersFrom h j
  | take3 j wu => exact microTake3_answersFrom h j wu
  | resultRead => exact microResultRead_answersFrom (hrx rfl)
  | parse1 B => exact microParse1_answersFrom B
  | parse2 B j => exact microParse2_answersFrom h .R B j
  | parse3 B j => exact microParse3_answersFrom B j
  | parse4 j c sc n nb v => exact microParse4_answersFrom h j c sc n nb v
  | parse5 => exact rfl
  | transmit | txWait | enumRead | submit1 | submit2 | submit3 | submit4 | markValid => exact ht.elim

end

/-! #### Turns and runs -/

/-- A turn of an operation of port `R`, its registers and its answers of `Rx` those of a state seen: it ends with what it may
answer, or stops where it may answer no more than before. -/
theorem runOp_answersFrom {seen : State → Prop} {w s : State} {t : Task} (hw : seen w) (eng : s.eng = w.eng)
    (rx : s.env.rxAns = w.env.rxAns) (ht : receiveTask t) :
    (∃ k, receiveTask k ∧ (∀ x, mayAnswer seen k x → mayAnswer seen t x) ∧
      (runOp .R t s).portR = { s.portR with cur := some k }) ∨
    ∃ x, mayAnswer seen t x ∧ (runOp .R t s).portR = { s.portR with cur := none, rsp := s.portR.rsp ++ [x] } := by
  refine runTask_induct (p := .R)
    (Q := fun t' s' => receiveTask t' ∧ (∀ x, mayAnswer seen t' x → mayAnswer seen t x) ∧ s'.eng = w.eng ∧
      (t' = .resultRead → s'.env.rxAns = w.env.rxAns) ∧ s'.portR = s.portR)
    (G := fun s' => (∃ k, receiveTask k ∧ (∀ x, mayAnswer seen k x → mayAnswer seen t x) ∧
        s'.portR = { s.portR with cur := some k }) ∨
      ∃ x, mayAnswer seen t x ∧ s'.portR = { s.portR with cur := none, rsp := s.portR.rsp ++ [x] })
    ?stop ?ends ?goes ?sched _ t s ⟨ht, fun _ hx => hx, eng, fun _ => rx, rfl⟩
  case stop =>
    rintro k s' ⟨task, may, -, -, portR⟩
    exact .inl ⟨k, task, may, by rw [State.suspend_R_portR, portR]⟩
  case ends =>
    rintro k s' st r s1 ⟨task, may, eng, rx, portR⟩ e
    have answers := micro_answersFrom ⟨w, hw, eng⟩ task fun hk => ⟨w, hw, rx hk⟩
    rw [e] at answers
    obtain ⟨l, -, rfl⟩ := (micro_receive task).2 _ _ _ e
    exact .inr ⟨⟨st, r⟩, may _ answers, by rw [State.answer_R_portR, State.withEnv_portR, portR]⟩
  case goes =>
    rintro k s' k1 s1 ⟨task, may, eng, rx, portR⟩ e
    have answers := micro_answersFrom ⟨w, hw, eng⟩ task fun hk => ⟨w, hw, rx hk⟩
    rw [e] at answers
    obtain ⟨noRead, fewer⟩ := answers
    obtain ⟨task1, l, -, rfl⟩ := (micro_receive task).1 _ _ e
    exact ⟨task1, fun x hx => may x (fewer x hx), eng, fun hk => absurd hk noRead, portR⟩
  case sched => exact fun _ _ _ h => h

/-- An operation that port `R` alone accepts starts a task there, which may answer what the operation may. -/
theorem exec_receiveOnly {i : Instr} (hi : receiveOnly i = true) (hp : i.port = .R) :
    ∃ t, receiveTask t ∧ (∀ s, exec i s = .next (runOp .R t s)) ∧ ∀ seen x, mayAnswer seen t x → receiveSaw seen i x := by
  cases i <;> cases hi <;> cases hp
  case isValid j => exact ⟨.isValid j, trivial, fun _ => rfl, fun _ _ h => h⟩
  case take j => exact ⟨.take1 j, trivial, fun _ => rfl, fun _ _ h => h⟩
  case parse B => exact ⟨.parse1 B, trivial, fun _ => rfl, fun _ _ h => h⟩
  case result => exact ⟨.resultRead, trivial, fun _ => rfl, fun _ _ h => h⟩
  case resultRecord r => exact ⟨.parse1 (recordBytes r), trivial, fun _ => rfl, fun _ _ h => h⟩

/-- How far the operation `i`, presented on a port that was `x0`, has come when the port is `x`: still presented; in progress,
where it may answer no more than `i` may; or answered once. -/
inductive Received (seen : State → Prop) (i : Instr) (x0 : PortState) : PortState → Prop
  | presented : Received seen i x0 x0
  | running (k : Task) (task : receiveTask k) (saw : ∀ x, mayAnswer seen k x → receiveSaw seen i x) :
      Received seen i x0 { cmd := [], cur := some k, rsp := x0.rsp }
  | answered (x : Response) (saw : receiveSaw seen i x) :
      Received seen i x0 { cmd := [], cur := none, rsp := x0.rsp ++ [x] }

/-- A turn of port `R` takes the operation further. -/
theorem runOp_received {seen : State → Prop} {i : Instr} {x0 : PortState} {w s : State} {t : Task} {c : Option Task}
    (hw : seen w) (eng : s.eng = w.eng) (rx : s.env.rxAns = w.env.rxAns) (ht : receiveTask t)
    (saw : ∀ x, mayAnswer seen t x → receiveSaw seen i x) (hp : s.portR = { cmd := [], cur := c, rsp := x0.rsp }) :
    Received seen i x0 (runOp .R t s).portR := by
  obtain ⟨k, task, fewer, portR⟩ | ⟨x, may, portR⟩ := runOp_answersFrom hw eng rx ht
  · rw [portR, hp]
    exact .running k task fun x hx => saw x (fewer x hx)
  · rw [portR, hp]
    exact .answered x (saw x may)

section

variable {seen : State → Prop} {i : Instr} {x0 : PortState} {w t : State}
  (cur : x0.cur = none) (decoded : decodeCommandPort w.params .R x0.cmd = .ok (i, [])) (hi : receiveOnly i = true)
include cur decoded hi

/-- A turn of port `R` from a state that is seen. -/
theorem stepPort_received (hw : seen w) (h : Received seen i x0 w.portR) (ht : stepPort .R w.nextTurn = .next t) :
    Received seen i x0 t.portR := by
  have eng : w.nextTurn.eng = w.eng := State.nextTurn_eng w
  have rx : w.nextTurn.env.rxAns = w.env.rxAns := by rw [State.nextTurn_env]
  have portR : w.nextTurn.portR = w.portR := State.nextTurn_portR w
  generalize w.portR = x at h portR
  cases h with
  | presented =>
    obtain ⟨k, task, run, saw⟩ := exec_receiveOnly hi (decodeCommandPort_port decoded)
    rw [stepPort_presented (p := .R) (i := i) (rest := []) (by rw [State.port_R, portR, cur])
      (by rw [State.port_R, portR, State.nextTurn_params, decoded]), run] at ht
    cases ht
    refine runOp_received (c := none) hw ?_ ?_ task (saw seen) ?_
    · rw [State.withCmd_eng, eng]
    · rw [State.withCmd_env, rx]
    · rw [State.withCmd_R_portR, portR]
      simp only [cur]
  | running k task saw =>
    rw [stepPort_resumed (p := .R) (t := k) (by rw [State.port_R, portR])] at ht
    cases ht
    exact runOp_received hw eng rx task saw portR
  | answered x saw =>
    rw [stepPort_idle (p := .R) (by rw [State.port_R, portR]) (by rw [State.port_R, portR])] at ht
    cases ht
    rw [portR]
    exact .answered x saw

/-- A step, whichever port's turn it is, from a state that is seen. -/
theorem step_received (hr : w.resetReq = false) (hw : seen w) (h : Received seen i x0 w.portR) (ht : step w = .next t) :
    Received seen i x0 t.portR := by
  cases hp : w.nextTurn.turn with
  | S =>
    have others := OthersKept.of_step (resetsNow_of_not_requested hr) ht
    rw [hp] at others
    have same : t.portR = w.portR := others.port .R nofun
    exact same ▸ h
  | R =>
    rw [step_eq_stepPort hr, hp] at ht
    exact stepPort_received cur decoded hi hw h ht

end

/-- Settles O57: the states seen are those of the run, and each step takes the operation further. -/
theorem receiveAnswersAreWhatTheReadsSaw : Obligations.ReceiveAnswersAreWhatTheReadsSaw := by
  intro s u m i hr cur decoded hi hrun
  have run : u.resetReq = false ∧ u.params = s.params ∧ Received (seenBefore m s) i s.portR u.portR := by
    refine run_induct hrun
      (P := fun w => w.resetReq = false ∧ w.params = s.params ∧ Received (seenBefore m s) i s.portR w.portR)
      ⟨hr, rfl, .presented⟩ ?_
    rintro w t hw ⟨hr, params, received⟩ ht
    have others := OthersKept.of_step (resetsNow_of_not_requested hr) ht
    exact ⟨others.resetReq.trans hr, others.params.trans params,
      step_received cur (params ▸ decoded) hi hr hw received ht⟩
  obtain ⟨-, -, received⟩ := run
  generalize u.portR = x at received
  cases received with
  | presented => exact .inl rfl
  | running => exact .inl rfl
  | answered x saw => exact .inr ⟨x, rfl, saw⟩

end Sys2Proof.Laws

end

/-! ### Decoding what was encoded (O3) -/

section

namespace Sys2Proof.Laws

open Machine

/-! #### Taking back what was put, whatever follows it -/

@[simp] theorem ok_andThen {α β : Type} (a : α) (r : Bytes) (f : α → Bytes → Decoded β) :
    Decoded.andThen (.ok (a, r)) f = f a r := rfl

theorem andThen_of_ok {α β : Type} {x : Decoded α} {a : α} {r : Bytes} (h : x = .ok (a, r)) (f : α → Bytes → Decoded β) :
    x.andThen f = f a r := by
  rw [h, ok_andThen]

theorem into_of_ok {α β : Type} {x : Decoded α} {a : α} {r : Bytes} (h : x = .ok (a, r)) (f : α → β) :
    x.into f = .ok (f a, r) :=
  andThen_of_ok h _

/-- R34: the two bytes of a 16-bit value make it up again. -/
theorem beWord16_bytes (v : BitVec 16) : beWord16 (v.extractLsb' 8 8) (v.extractLsb' 0 8) = v := by
  refine BitVec.eq_of_toNat_eq ?_
  simp only [toNat_beWord16, BitVec.extractLsb'_toNat, Nat.shiftRight_eq_div_pow]
  omega

/-- R34: the four bytes of a 32-bit value make it up again. -/
theorem beWord32_bytes (v : BitVec 32) :
    beWord32 (v.extractLsb' 24 8) (v.extractLsb' 16 8) (v.extractLsb' 8 8) (v.extractLsb' 0 8) = v := by
  refine BitVec.eq_of_toNat_eq ?_
  simp only [toNat_beWord32, BitVec.extractLsb'_toNat, Nat.shiftRight_eq_div_pow]
  omega

@[simp] theorem takeByte_cons (b : Byte) (rest : Bytes) : takeByte (b :: rest) = .ok (b, rest) := rfl

@[simp] theorem take16_bytesBe16 (v : BitVec 16) (rest : Bytes) : take16 (bytesBe16 v ++ rest) = .ok (v, rest) := by
  show Except.ok (beWord16 _ _, rest) = _
  rw [beWord16_bytes]

@[simp] theorem take32_bytesBe32 (v : BitVec 32) (rest : Bytes) : take32 (bytesBe32 v ++ rest) = .ok (v, rest) := by
  show Except.ok (beWord32 _ _ _ _, rest) = _
  rw [beWord32_bytes]

/-- A 7-bit operand leaves bit 7 of its byte clear. -/
@[simp] theorem take7_setWidth (j : BitVec 7) (rest : Bytes) : take7 (j.setWidth 8 :: rest) = .ok (j, rest) := by
  simp [take7]

/-- `n` big-endian bytes carry a number modulo `256 ^ n`. -/
theorem takeNat_bytesOfNat (n w acc : Nat) (rest : Bytes) :
    takeNat n acc (bytesOfNat n w ++ rest) = .ok (acc * 256 ^ n + w % 256 ^ n, rest) := by
  induction n generalizing acc with
  | zero => simp [takeNat, bytesOfNat, Nat.mod_one]
  | succ n ih =>
    have digit : w % 256 ^ (n + 1) = w % 256 ^ n + 256 ^ n * (w / 256 ^ n % 256) := Nat.mod_pow_succ
    simp only [bytesOfNat, List.cons_append, takeNat, ih, BitVec.toNat_ofNat, digit]
    congr 2
    ring

/-- The bytes of a handle hold its `WU_W` bits (log 8). -/
theorem two_pow_wuW_le (c : Params) : 2 ^ c.wuW ≤ 256 ^ handleBytes c := by
  rw [show (256 : Nat) = 2 ^ 8 from rfl, ← Nat.pow_mul]
  exact Nat.pow_le_pow_right (by decide) (by unfold handleBytes; omega)

theorem takeHandle_bytesOfNat {c : Params} {w : Handle} (h : w < 2 ^ c.wuW) (rest : Bytes) :
    takeHandle c (bytesOfNat (handleBytes c) w ++ rest) = .ok (w, rest) := by
  have small : w % 256 ^ handleBytes c = w := Nat.mod_eq_of_lt (h.trans_le (two_pow_wuW_le c))
  rw [takeHandle, andThen_of_ok (takeNat_bytesOfNat ..), Nat.zero_mul, Nat.zero_add, small, if_pos h]

@[simp] theorem takeVec_toList {n : Nat} (v : Vector Byte n) (rest : Bytes) : takeVec n (v.toList ++ rest) = .ok (v, rest) := by
  have len : v.toList.length = n := by simp
  have fits : n ≤ (v.toList ++ rest).length := by simp
  rw [takeVec, dif_pos fits]
  congr 2
  · apply Vector.toList_inj.1
    simp [List.take_left' len]
  · exact List.drop_left' len

@[simp] theorem takeString_putString (B rest : Bytes) : takeString (putString B ++ rest) = .ok (B, rest) := by
  induction B with
  | nil => cases rest <;> rfl
  | cons b B ih =>
    show Decoded.into (takeString (putString B ++ rest)) (b :: ·) = _
    exact into_of_ok ih _

@[simp] theorem takeJobFields_putJobFields (f : JobFields) (rest : Bytes) :
    takeJobFields (putJobFields f ++ rest) = .ok (f, rest) := by
  simp [takeJobFields, putJobFields, jobPayload]

theorem recordBytes_toList (r : RecordFields) :
    (recordBytes r).toList = bytesBe16 r.preamble ++ bytesBe32 r.nonce ++ [r.midstateNum, r.replyId] ++ bytesBe16 r.version ++
      [r.crc] := rfl

@[simp] theorem takeRecord_recordBytes (r : RecordFields) (rest : Bytes) :
    takeRecord ((recordBytes r).toList ++ rest) = .ok (r, rest) := by
  simp [takeRecord, recordBytes_toList]

/-! #### Well-formed frames -/

/-- A length byte that counts the payload of a frame is the one `encode` writes (R54). -/
theorem lengthByte_of_toNat {len : Byte} {off : Nat} {P : Bytes} (h : len.toNat = P.length + off) :
    len = lengthByte off P :=
  BitVec.eq_of_toNat_eq (by rw [lengthByte, BitVec.toNat_ofNat, ← h, Nat.mod_eq_of_lt len.isLt])

/-- What follows the length byte of a well-formed command frame: a payload that the length byte counts, and the checksum over
header, length byte and payload (R53, R54, R57). -/
theorem commandFrameOk_iff {c : Params} {h len : Byte} {rest : Bytes} :
    commandFrameOk c h len rest = true ↔ isJobHeader c h = false ∧
      ∃ P, len.toNat = P.length + c.lenOffCmd ∧ rest = P ++ [crc5TrailByte c (h :: len :: P)] := by
  simp only [commandFrameOk, Bool.and_eq_true, Bool.not_eq_true', decide_eq_true_eq, beq_iff_eq]
  constructor
  · rintro ⟨⟨⟨shape, long⟩, count⟩, sum⟩
    refine ⟨shape, rest.take (rest.length - 1), by rw [List.length_take]; omega, ?_⟩
    rw [← sum, List.take_append_drop]
  · rintro ⟨shape, P, count, rfl⟩
    simp [shape, count]

@[simp] theorem crc16TrailBytes_length (c : Params) (B : Bytes) : (crc16TrailBytes c B).length = 2 := rfl

/-- The same of a well-formed job frame, with two bytes of checksum (R53, R54). -/
theorem jobFrameOk_iff {c : Params} {h len : Byte} {rest : Bytes} :
    jobFrameOk c h len rest = true ↔ isJobHeader c h = true ∧
      ∃ P, len.toNat = P.length + c.lenOffJob ∧ rest = P ++ crc16TrailBytes c (h :: len :: P) := by
  simp only [jobFrameOk, Bool.and_eq_true, decide_eq_true_eq, beq_iff_eq]
  constructor
  · rintro ⟨⟨⟨shape, long⟩, count⟩, sum⟩
    refine ⟨shape, rest.take (rest.length - 2), by rw [List.length_take]; omega, ?_⟩
    rw [← sum, List.take_append_drop]
  · rintro ⟨shape, P, count, rfl⟩
    simp [shape, count]

/-- A well-formed command frame is what `encode` builds from its header and what stands before its checksum (R92). -/
theorem encodeFrame_of_commandFrameOk {c : Params} {h len : Byte} {rest : Bytes} (ok : commandFrameOk c h len rest = true) :
    encodeFrame c h rest.dropLast = some (rawFrame h len rest) := by
  obtain ⟨shape, P, count, rfl⟩ := commandFrameOk_iff.1 ok
  have fits : P.length + c.lenOffCmd ≤ 255 := by omega
  rw [List.dropLast_concat, encodeFrame_command shape, if_pos fits, lengthByte_of_toNat count]
  rfl

/-- A well-formed job frame is what `encode` builds from its header and what stands before its checksum (R92). -/
theorem encodeFrame_of_jobFrameOk {c : Params} {h len : Byte} {rest : Bytes} (ok : jobFrameOk c h len rest = true) :
    ∃ P, encodeFrame c h P = some (rawFrame h len rest) := by
  obtain ⟨shape, P, count, rfl⟩ := jobFrameOk_iff.1 ok
  have fits : P.length + c.lenOffJob ≤ 255 := by omega
  refine ⟨P, ?_⟩
  rw [encodeFrame_job shape, if_pos fits, lengthByte_of_toNat count]
  rfl

/-- R56: the length byte of a well-formed command frame says where the frame ends. -/
theorem bytesAfterLength_of_commandFrameOk {c : Params} {h len : Byte} {rest : Bytes}
    (ok : commandFrameOk c h len rest = true) : bytesAfterLength c h len = rest.length := by
  obtain ⟨shape, P, count, rfl⟩ := commandFrameOk_iff.1 ok
  simp only [bytesAfterLength, shape, Bool.false_eq_true, if_false, List.length_append, List.length_singleton]
  omega

/-- R56: the length byte of a well-formed job frame says where the frame ends. -/
theorem bytesAfterLength_of_jobFrameOk {c : Params} {h len : Byte} {rest : Bytes}
    (ok : jobFrameOk c h len rest = true) : bytesAfterLength c h len = rest.length := by
  obtain ⟨shape, P, count, rfl⟩ := jobFrameOk_iff.1 ok
  simp only [bytesAfterLength, shape, if_true, List.length_append, crc16TrailBytes_length]
  omega

/-- A raw frame whose length byte says where it ends decodes to its row, whatever follows it. -/
theorem decode_rawFrame {c : Params} {p : Port} {i : Instr} {h len : Byte} {rest : Bytes}
    (ends : bytesAfterLength c h len = rest.length) (row : classifyFrame c p h len rest = i) (tail : Bytes) :
    decodeCommandPort c p (rawFrame h len rest ++ tail) = .ok (i, tail) := by
  show decodeWireFrame c p (Config.preamble1 :: h :: len :: (rest ++ tail)) = _
  simp [decodeWireFrame, ends, row]

theorem commandRowOk_iff {c : Params} {i : Instr} {h len : Byte} {rest : Bytes} :
    commandRowOk c i h len rest = true ↔ commandFrameOk c h len rest = true ∧ classifyFrame c i.port h len rest = i := by
  rw [commandRowOk, Bool.and_eq_true, beq_iff_eq]

/-- A raw command frame that is well-formed and of row `i` decodes to `i`. -/
theorem decode_of_commandRowOk {c : Params} {i : Instr} {h len : Byte} {rest : Bytes} (ok : commandRowOk c i h len rest = true)
    (tail : Bytes) : decodeCommandPort c i.port (rawFrame h len rest ++ tail) = .ok (i, tail) := by
  obtain ⟨frame, row⟩ := commandRowOk_iff.1 ok
  exact decode_rawFrame (bytesAfterLength_of_commandFrameOk frame) row tail

/-- The fields of a header stand in their own bits of its byte (R55). -/
theorem decodeHeaderRow_headerRowByte (p : Port) (t m j g : Bool) (k : BitVec 4) (rest : Bytes) :
    decodeHeaderRow p (headerRowByte t m j g k :: rest) = .ok (.header p t m j g k, rest) := by
  have flags : (headerRowByte t m j g k).getLsbD 7 = t ∧ (headerRowByte t m j g k).getLsbD 6 = m ∧
      (headerRowByte t m j g k).getLsbD 5 = j ∧ (headerRowByte t m j g k).getLsbD 4 = g ∧
      (headerRowByte t m j g k).setWidth 4 = k := by
    revert t m j g k; decide +kernel
  obtain ⟨e7, e6, e5, e4, ek⟩ := flags
  simp only [decodeHeaderRow, takeByte_cons, ok_andThen, e7, e6, e5, e4, ek]

/-- Settles O3: each operand is taken back as it was put, and a well-formed frame says where it ends and is of one row only. -/
theorem decodeEncodeRoundTrip : Obligations.DecodeEncodeRoundTrip := by
  intro c i rest wf
  cases i with
  | crc5 p B | crc16 p B | decode p B | send p B => exact into_of_ok (takeString_putString B rest) _
  | encode p h P =>
    show decodeEncode p (h :: (putString P ++ rest)) = _
    simp [decodeEncode]
  | jobpayload p f | jobpayloadLayout p f => exact into_of_ok (takeJobFields_putJobFields f rest) _
  | enumerate p n x l =>
    show decodeEnumerate p (n :: (bytesBe16 x ++ [l] ++ rest)) = _
    simp [decodeEnumerate]
  | solve p t | setfreq p t => exact into_of_ok (take32_bytesBe32 t rest) _
  | submit p wu v =>
    show decodeSubmit c p (bytesOfNat (handleBytes c) wu ++ bytesBe32 v ++ rest) = _
    have fits : wu < 2 ^ c.wuW := of_decide_eq_true wf
    simp [decodeSubmit, takeHandle_bytesOfNat fits]
  | markValid p j | isValid p j | take p j => exact into_of_ok (take7_setWidth j rest) _
  | parse p B => exact into_of_ok (takeVec_toList B rest) _
  | frameCommand | readid | setaddr => exact decode_of_commandRowOk wf rest
  | frameJob p h len r =>
    obtain ⟨frame, row⟩ := (Bool.and_eq_true ..).mp wf
    exact decode_rawFrame (bytesAfterLength_of_jobFrameOk frame) (eq_of_beq row) rest
  | pllwrite =>
    obtain ⟨-, row⟩ := (Bool.and_eq_true ..).mp wf
    exact decode_of_commandRowOk row rest
  | header p t m j g k => exact decodeHeaderRow_headerRowByte p t m j g k rest
  | resultRecord p r => exact into_of_ok (takeRecord_recordBytes r rest) _
  | idRecord p a x r =>
    show decodeIdRecord p (bytesBe16 a ++ (bytesBe16 x ++ putString r) ++ rest) = _
    simp [decodeIdRecord]
  | assign | result | initStep | reserved11 | reserved12 | reserved13 | reserved14 | reserved15 | reserved16 | reserved17
  | reserved18 | reserved19 | reserved1A | reserved1B | reserved1C | reserved1D | reserved1E | reserved1F => rfl

end Sys2Proof.Laws

end

/-! ### Well-formed frame rows are what `ENCODE` builds (O20) -/

section

namespace Sys2Proof.Laws

open Machine Reference

/-- A well-formed row with a header and payload of its own is what `encode` builds from them (R53, R92). -/
theorem encodeFrame_of_payloadRowOk {c : Params} {i : Instr} {h : Byte} {P : Bytes} {crc : Byte}
    (ok : payloadRowOk c i h P crc = true) : encodeFrame c h P = some (rawCommand c h P crc) := by
  obtain ⟨frame, -⟩ := commandRowOk_iff.1 ok
  have built := encodeFrame_of_commandFrameOk frame
  rwa [List.dropLast_concat] at built

/-- R65 with R9's values: the identification read is `55 AA 52 05 00 00 0A`. -/
theorem encodeFrame_readid_default :
    encodeFrame Params.default Params.default.hdrReadid Params.default.readidPayload =
      some [0x55, 0xAA, 0x52, 0x05, 0x00, 0x00, 0x0A] := by decide +kernel

/-- R136: the mode bit says whether the feedback divider reaches the limit. -/
theorem hfBit_iff (fb refdiv : Nat) : hfBit fb refdiv = true ↔ 25 * fb ≥ 2400 * refdiv := decide_eq_true_iff

/-- Settles O20: a checksum that is right and a length byte that counts the payload leave `encode` no other frame. -/
theorem wellFormedFrameRowsAreEncoded : Obligations.WellFormedFrameRowsAreEncoded := by
  refine fun c => ⟨?command, ?job, ?readid, ?setaddr, ?pllwrite⟩
  case command =>
    intro p h len rest wf
    obtain ⟨frame, -⟩ := commandRowOk_iff.1 wf
    exact ⟨_, encodeFrame_of_commandFrameOk frame⟩
  case job =>
    intro p h len rest wf
    obtain ⟨frame, -⟩ := (Bool.and_eq_true ..).mp wf
    exact encodeFrame_of_jobFrameOk frame
  case readid =>
    intro p k wf
    have built := encodeFrame_of_payloadRowOk wf
    refine ⟨built, ?_⟩
    rintro rfl
    exact Option.some.inj (built.symm.trans encodeFrame_readid_default)
  case setaddr => exact fun p x k wf => encodeFrame_of_payloadRowOk wf
  case pllwrite =>
    intro p hf fb rd p1 p2 k wf
    obtain ⟨fields, row⟩ := (Bool.and_eq_true ..).mp wf
    obtain ⟨-, mode⟩ := (Bool.and_eq_true ..).mp fields
    exact ⟨encodeFrame_of_payloadRowOk row, by rw [eq_of_beq mode, hfBit_iff]⟩

end Sys2Proof.Laws

end

/-! ### A record presented as a row (O36) -/

section

namespace Sys2Proof.Laws

open Machine Reference

/-- With no switch of port ordered an operation goes on to its next micro-step. -/
theorem runOp_uncut {p : Port} {t t1 : Task} {s s1 : State} (h : micro p t s = .more t1 s1) (hs : s1.sched = []) :
    runOp p t s = runOp p t1 s1 :=
  runOp_more h (State.goesOn_nil p hs)

/-- p2 under a free lock (R168, R169). -/
theorem micro_parse2 (p : Port) (B : Vector Byte Config.respLen) (j : BitVec 7) {s : State} (hl : s.eng.lock = .free) :
    micro p (.parse2 B j) s =
      if (s.slot j).valid then .more (.parse3 B j) s else .done .rejected (.jobId j) s := by
  simp only [micro, microParse2, readValid_free hl]

/-- p4 (R168). -/
theorem micro_parse4 (p : Port) (j c : BitVec 7) (sc : BitVec 4) (n : BitVec 32) (nb : Bytes) (v : BitVec 16) (s : State) :
    micro p (.parse4 j c sc n nb v) s =
      if (s.slot j).occupied then .more (.parse5 j c sc n nb v (s.slot j).version) s
      else .done .slotEmpty (.jobId j) s := rfl

/-- With no switch of port ordered and the lock free, `PARSE` runs p1 to p5 and answers what R168 and R169 say. -/
theorem runOp_parse (B : Vector Byte Config.respLen) {s : State} (hs : s.sched = []) (hl : s.eng.lock = .free) :
    runOp .R (.parse1 B) s = s.answer .R (parseAnswer s B).1 (parseAnswer s B).2 := by
  have p2 := micro_parse2 .R B (recordJob B) hl
  have p4 := fun c sc n nb v => micro_parse4 .R (recordJob B) c sc n nb v s
  rw [runOp_uncut rfl hs, jobIdOf_replyIdOf, parseAnswer]
  cases valid : (s.slot (recordJob B)).valid with
  | false =>
    rw [valid] at p2
    rw [runOp_done p2, if_pos rfl]
  | true =>
    rw [valid] at p2
    rw [runOp_uncut p2 hs, runOp_uncut rfl hs, if_neg nofun]
    cases occ : (s.slot (recordJob B)).occupied with
    | false =>
      simp only [occ] at p4
      rw [runOp_done (p4 ..), if_pos rfl]
    | true =>
      simp only [occ] at p4
      rw [runOp_uncut (p4 ..) hs, runOp_done rfl, parsed_fields, if_neg nofun]
      rfl

/-- The parser reads a record's nonce as it was laid out (R62, R63). -/
theorem chipResult_nonce_recordBytes (r : RecordFields) (stored : BitVec 32) :
    (chipResult (recordBytes r) stored).nonce = r.nonce := by
  have read : nonceOf (recordBytes r) = (chipResult (recordBytes r) stored).nonce :=
    congrArg ChipResult.nonce (parsed_fields (recordBytes r) 0 stored)
  exact read.symm.trans (beWord32_bytes r.nonce)

/-- Settles O36: the row runs as `PARSE` of the record's bytes, and each field is the bytes it was laid out in. -/
theorem resultRecordRowIsParsed : Obligations.ResultRecordRowIsParsed := by
  intro r s hs hl
  refine ⟨recordBytes r, congrArg Host.Outcome.next (runOp_parse _ hs hl),
    chipResult_nonce_recordBytes r 0, rfl, rfl, ?version, ?preamble, rfl⟩
  case version => exact beWord16_bytes r.version
  case preamble => exact beWord16_bytes r.preamble

end Sys2Proof.Laws

end

/-! ### The expansions of the pseudo-operations (O59) -/

section

namespace Sys2Proof.Laws

open Machine Reference

theorem runOperations_cons {i : Instr} {s t : State} (h : exec i s = .next t) (is : List Instr) :
    runOperations (i :: is) s = runOperations is t := by
  rw [runOperations, h]

theorem runOperations_single {i : Instr} {s t : State} (h : exec i s = .next t) : runOperations [i] s = some t :=
  runOperations_cons h []

/-- `ENCODE` answers the frame it builds (R92). -/
theorem exec_encode_some {s : State} {h : Byte} {P F : Bytes} (built : encodeFrame s.params h P = some F) :
    exec (.encode .S h P) s = .next (s.answer .S .ok (.bytes F)) := by
  show Host.Outcome.next (onPort .S .S s (answerEncode .S h P s)) = _
  rw [onPort_same, answerEncode, built]

/-- `ENCODE` refuses a payload that is too long (R93). -/
theorem exec_encode_none {s : State} {h : Byte} {P : Bytes} (refused : encodeFrame s.params h P = none) :
    exec (.encode .S h P) s = .next (s.answer .S .refusedOperand .empty) := by
  show Host.Outcome.next (onPort .S .S s (answerEncode .S h P s)) = _
  rw [onPort_same, answerEncode, refused]

/-- `JOBPAYLOAD` answers the payload of its fields (R98). -/
theorem exec_jobpayload (f : JobFields) (s : State) :
    exec (.jobpayload .S f) s = .next (s.answer .S .ok (.bytes (jobPayload f))) :=
  congrArg Host.Outcome.next (onPort_same ..)

/-- `SEND`, when the transport answers and no switch of port is ordered (R100). -/
theorem exec_send (F : Bytes) {s : State} {a : Bool} {as : List Bool} (hs : s.sched = []) (ha : s.env.txAns = a :: as) :
    exec (.send .S F) s = .next ((sentFrames s [F] as).answer .S .ok (.sent a)) := by
  show Host.Outcome.next (onPort .S .S s (runOp .S (.transmit [F] true .send) s)) = _
  rw [onPort_same, run_transmit .send as [F] [a] true s hs rfl ha, runOp_done rfl]
  simp only [List.all_cons, List.all_nil, Bool.and_true, Bool.true_and]
  rfl

/-- Writing a slot twice is writing it the second time. -/
theorem setSlot_setSlot (s : State) (j : BitVec 7) (x y : Slot) : (s.setSlot j x).setSlot j y = s.setSlot j y := by
  simp [State.setSlot, State.withEng]

/-- m4 under a free lock sets the validity flag and ends `SUBMIT` (R151). -/
theorem micro_submit4 (p : Port) (j : BitVec 7) (released : Option Handle) {s : State} (hl : s.eng.lock = .free) :
    micro p (.submit4 j released) s =
      .done .ok (.submitted j released) (s.setSlot j { s.slot j with valid := true }) := by
  simp only [micro, microSubmit4, setValid_free hl]

/-- The state a `SUBMIT` leaves but for its answer: `NEXT_ID` advanced, the occupant's handle released, the WorkUnit in its slot
and valid (R151). -/
def submitted (s : State) (wu : Handle) (version : BitVec 32) : State :=
  ((s.setNextId (s.eng.nextId + Config.jobStride)).withEnv
      { s.env with released := s.env.released ++ (occupant s s.eng.nextId).toList }).setSlot s.eng.nextId
    { valid := true, occupied := true, wu := fitHandle s.params wu, version := version }

/-- `SUBMIT` with no switch of port ordered and the lock free runs m1 to m4 (R151). -/
theorem exec_submit_uncut (wu : Handle) (version : BitVec 32) {s : State} (hs : s.sched = []) (hl : s.eng.lock = .free) :
    exec (.submit .S wu version) s = .next
      ((submitted s wu version).answer .S .ok (.submitted s.eng.nextId (occupant s s.eng.nextId))) := by
  rw [exec_submit, runOp_uncut (micro_submit1 ..), runOp_uncut (micro_submit2 ..), runOp_uncut (micro_submit3 ..),
    runOp_done (micro_submit4 _ _ _ ?free), setSlot_setSlot, State.setSlot_slot_same]
  case free => exact hl
  · rfl
  all_goals exact hs

section

variable {c : Params} {s : State} {a : Bool} {as : List Bool} {h : Byte} {P : Bytes} (hp : s.params = c)
include hp

/-- `ENCODE h, P -> F ; SEND F` sends the frame `ENCODE` answered (R67). -/
theorem run_encodeThenSend {F : Bytes} (hs : s.sched = []) (ha : s.env.txAns = a :: as) (built : encodeFrame c h P = some F) :
    runOperations (encodeThenSend c ⟨h, P⟩) s =
      some ((sentFrames (s.answer .S .ok (.bytes F)) [F] as).answer .S .ok (.sent a)) := by
  subst hp
  rw [encodeThenSend, runOperations_cons (exec_encode_some built), built]
  exact runOperations_single (exec_send F hs ha)

/-- Where `ENCODE` refuses, nothing is sent (R93). -/
theorem run_encodeThenSend_refused (refused : encodeFrame c h P = none) :
    runOperations (encodeThenSend c ⟨h, P⟩) s = some (s.answer .S .refusedOperand .empty) := by
  subst hp
  rw [encodeThenSend, runOperations_cons (exec_encode_none refused), refused]
  rfl

end

/-- After its `SUBMIT`, `SENDJOB` is `JOBPAYLOAD` and then `ENCODE` and `SEND` of the payload (R67). -/
theorem run_pseudoSendjob {c : Params} {wu : Handle} {id : BitVec 7} {f g : JobFields} {s u : State}
    (hg : g = { f with jobId := id.setWidth 8 }) (hu : exec (.submit .S wu f.version) s = .next u) :
    runOperations (pseudoSendjob c wu id f) s =
      runOperations (encodeThenSend c ⟨c.hdrJob, jobPayload g⟩) (u.answer .S .ok (.bytes (jobPayload g))) := by
  subst hg
  exact (runOperations_cons hu _).trans (runOperations_cons (exec_jobpayload _ u) _)

/-- Settles O59: each expansion is `ENCODE` and `SEND` of its frame, after `SUBMIT` and `JOBPAYLOAD` where it has them. -/
theorem pseudoOperationsRun : Obligations.PseudoOperationsRun := by
  refine fun s a as hs ha => ⟨?frames, ?jobframe, ?sendjob⟩
  case frames =>
    intro l h P hl
    obtain rfl : l = encodeThenSend s.params ⟨h, P⟩ := by
      obtain ⟨rfl, rfl, rfl⟩ | ⟨x, rfl, rfl, rfl⟩ | ⟨rfl, rfl⟩ := hl <;> rfl
    exact ⟨fun F built => run_encodeThenSend rfl hs ha built, run_encodeThenSend_refused rfl⟩
  case jobframe =>
    intro f
    have payload := runOperations_cons (exec_jobpayload f s)
    exact ⟨fun F built => (payload _).trans (runOperations_single (exec_encode_some built)),
      fun refused => (payload _).trans (runOperations_single (exec_encode_none refused))⟩
  case sendjob =>
    intro f g wu hl hg
    have submit := exec_submit_uncut wu f.version hs hl
    refine ⟨_, _, submit, rfl, State.setSlot_slot_same .., rfl, rfl, ?sent, ?refused⟩
    case sent =>
      intro F built
      refine (run_pseudoSendjob hg submit).trans (run_encodeThenSend ?_ ?_ ?_ built)
      exacts [rfl, hs, ha]
    case refused => exact fun refused => (run_pseudoSendjob hg submit).trans (run_encodeThenSend_refused rfl refused)

end Sys2Proof.Laws

end

/-! ### The step, case by case (O1) -/

section

namespace Sys2Proof.Laws

open Machine

section

variable {p : Port} {s : State} (cur : (s.port p).cur = none)
include cur

/-- A port whose bytes end inside an operation waits for the rest (log 12). -/
theorem stepPort_incomplete (more : decodeCommandPort s.params p (s.port p).cmd = .error .incomplete) :
    stepPort p s = .next s := by
  rw [stepPort, cur]
  simp only [fetch, more]

/-- Bytes that are no operation are refused by name (log 13). -/
theorem stepPort_undecodable {e : DecodeError} (he : e ≠ .incomplete)
    (bad : decodeCommandPort s.params p (s.port p).cmd = .error e) : stepPort p s = .refused (.undecodable e) := by
  have fetched : fetch p s = .bad e := by
    rw [fetch, bad]
    cases e with
    | incomplete => exact absurd rfl he
    | _ => rfl
  rw [stepPort, cur]
  simp only [fetched]

end

/-- Without the reset event the step is the turn of a port. -/
theorem step_eq_stepPort_of_not_resetsNow {s : State} (h : s.resetsNow = false) :
    step s = stepPort s.nextTurn.turn s.nextTurn :=
  if_neg (ne_true_of_eq_false h)

/-- Settles O1: what the port whose turn it is holds is as it was before the turn was given. -/
theorem stepRunsTheDecodedOperation : Obligations.StepRunsTheDecodedOperation := by
  intro s
  refine ⟨fun reset => if_pos reset, fun noReset => ?_⟩
  rw [step_eq_stepPort_of_not_resetsNow noReset, ← s.nextTurn_port s.nextTurn.turn, ← s.nextTurn_params]
  exact ⟨fun t cur => stepPort_resumed cur, fun cur =>
    ⟨fun i rest decoded => stepPort_presented cur decoded, stepPort_incomplete cur, fun e he => stepPort_undecodable cur he⟩⟩

end Sys2Proof.Laws

end

/-! ### Words written out (O4) -/

section

namespace Sys2Proof.Laws

open Machine

/-- Settles O4: each word by evaluation of the decoder. -/
theorem writtenOutWordsDecode : Obligations.WrittenOutWordsDecode := by
  unfold Obligations.WrittenOutWordsDecode
  decide +kernel

end Sys2Proof.Laws

end

/-! ### The job payload and its frame (O16) -/

section

namespace Sys2Proof.Laws

open Machine

/-- R60: a job payload has 82 bytes. -/
@[simp] theorem jobPayload_length (f : JobFields) : (jobPayload f).length = 82 := by
  simp [jobPayload, bytesBe32]

/-- `JOBPAYLOAD_LAYOUT` answers the payload of its fields (log 2). -/
theorem exec_jobpayloadLayout (f : JobFields) (s : State) :
    exec (.jobpayloadLayout .S f) s = .next (s.answer .S .ok (.bytes (jobPayload f))) :=
  congrArg Host.Outcome.next (onPort_same ..)

/-- R53: preamble, header and length byte stand before the payload of a job frame, two bytes of checksum after it. -/
theorem jobFrame_eq (c : Params) (h : Byte) (P : Bytes) :
    jobFrame c h P = rawFrame h (lengthByte c.lenOffJob P) (P ++ crc16TrailBytes c (jobBody c h P)) := rfl

theorem rawFrame_length (h len : Byte) (rest : Bytes) : (rawFrame h len rest).length = rest.length + 4 := rfl

/-- R54: the length byte of a payload that fits. -/
theorem lengthByte_toNat {off : Nat} {P : Bytes} (fits : P.length + off ≤ 255) : (lengthByte off P).toNat = P.length + off := by
  rw [lengthByte, BitVec.toNat_ofNat, Nat.mod_eq_of_lt (by omega)]

/-- Settles O16: `encode` of a payload of 82 bytes, byte by byte. -/
theorem jobPayloadLayoutRowIsAssembled : Obligations.JobPayloadLayoutRowIsAssembled := by
  intro f s
  refine ⟨jobPayload f, exec_jobpayloadLayout f s, exec_jobpayload f s, fun h flag fits => ?_⟩
  have shape : isJobHeader s.params h = true := bne_iff_ne.2 flag
  rw [← jobPayload_length f] at fits ⊢
  have built : encodeFrame s.params h (jobPayload f) = some (jobFrame s.params h (jobPayload f)) := by
    rw [encodeFrame_job shape, if_pos fits]
  refine ⟨_, exec_encode_some built, ?length, lengthByte_toNat fits, List.take_left⟩
  case length =>
    rw [jobFrame_eq, rawFrame_length, List.length_append, jobPayload_length, crc16TrailBytes_length]

end Sys2Proof.Laws

end

/-! ### The rows that are assembled or read (O21) -/

section

namespace Sys2Proof.Laws

open Machine

theorem exec_header (t m j g : Bool) (k : BitVec 4) (s : State) :
    exec (.header .S t m j g k) s = .next (s.answer .S .ok
      (.headerByte (headerByte s.params t m j g k) (isJobHeader s.params (headerByte s.params t m j g k)))) :=
  congrArg Host.Outcome.next (onPort_same ..)

theorem isJobHeader_eq_decide (c : Params) (h : Byte) : isJobHeader c h = decide (h &&& c.hdrJobFlag ≠ 0) := by
  rw [isJobHeader, Bool.eq_iff_iff, bne_iff_ne, decide_eq_true_iff]

/-- R55 with R9's flags: each field has its own bits of the byte. -/
theorem headerByte_default (t m j g : Bool) (k : BitVec 4) :
    (headerByte Params.default t m j g k).toNat = 128 * t.toNat + 64 * m.toNat + 32 * j.toNat + 16 * g.toNat + k.toNat ∧
      (headerByte Params.default t m j g k &&& Params.default.hdrJobFlag ≠ 0 ↔ j = true) := by
  revert t m j g k
  decide +kernel

theorem exec_idRecord (a i : BitVec 16) (rest : Bytes) (s : State) :
    exec (.idRecord .S a i rest) s = .next (answerIdRecord .S (idRecordBytes a i rest) s) :=
  congrArg Host.Outcome.next (onPort_same ..)

/-- R64: a record with a place for its identifier. -/
theorem answerIdRecord_long {p : Port} {B : Bytes} {s : State} (h : s.params.idOffset + 2 ≤ B.length) :
    answerIdRecord p B s = s.answer p .ok (.chipId (chipIdOf s.params B)) :=
  if_neg (Nat.not_lt.2 h)

/-- R112: a record too short for one. -/
theorem answerIdRecord_short {p : Port} {B : Bytes} {s : State} (h : B.length < s.params.idOffset + 2) :
    answerIdRecord p B s = s.answer p .refusedOperand .empty :=
  if_pos h

theorem getElem?_eq_byteAt {B : Bytes} {n : Nat} (h : n < B.length) : B[n]? = some (byteAt B n) := by
  simp [byteAt, h]

/-- Settles O21: the identifier's two bytes exist exactly where the record is not refused. -/
theorem headerAndIdRecordRowsAnswer : Obligations.HeaderAndIdRecordRowsAnswer := by
  intro s
  refine ⟨fun t m j g k => ?header, fun a i rest => ?idRecord⟩
  case header =>
    refine ⟨headerByte s.params t m j g k, ?_, rfl, fun hp => hp ▸ headerByte_default t m j g k⟩
    rw [exec_header, isJobHeader_eq_decide]
  case idRecord =>
    have length : (idRecordBytes a i rest).length = rest.length + 4 := rfl
    rw [exec_idRecord]
    refine ⟨fun offset => ?place2, fun long => ?long, fun short => ?short⟩
    case place2 =>
      have read : chipIdOf s.params (idRecordBytes a i rest) = i := by
        rw [chipIdOf, offset]
        exact beWord16_bytes i
      rw [answerIdRecord_long (by omega), read]
    case long =>
      refine ⟨_, _, getElem?_eq_byteAt (B := idRecordBytes a i rest) (by omega),
        getElem?_eq_byteAt (B := idRecordBytes a i rest) (by omega), ?_⟩
      rw [answerIdRecord_long (length ▸ long)]
      rfl
    case short => rw [answerIdRecord_short (length ▸ short)]

end Sys2Proof.Laws

end

/-! ### Refused operation codes (O41, O42) -/

section

namespace Sys2Proof.Laws

open Machine Reference

/-- Settles O41: one arm for each reserved code. -/
theorem reservedCodesAreRefused : Obligations.ReservedCodesAreRefused := by
  intro p s i hi
  fin_cases hi <;> rfl

/-- An operation of port `S` alone is checked for its port before anything else (R51, R203). -/
theorem exec_sendOnly {i : Instr} (h : sendOnly i = true) (s : State) :
    ∃ go, exec i s = .next (onPort .S i.port s go) := by
  cases i with
  | encode | jobpayload | send | enumerate | assign | solve | setfreq | submit | markValid | initStep | frameCommand | frameJob
  | header | readid | setaddr | pllwrite | jobpayloadLayout | idRecord => exact ⟨_, rfl⟩
  | _ => cases h

/-- An operation of port `R` alone is checked for its port before anything else (R51, R203). -/
theorem exec_receiveOnly_onPort {i : Instr} (h : receiveOnly i = true) (s : State) :
    ∃ go, exec i s = .next (onPort .R i.port s go) := by
  cases i with
  | isValid | take | parse | result | resultRecord => exact ⟨_, rfl⟩
  | _ => cases h

/-- Settles O42: the check for the port refuses the other port. -/
theorem wrongPortIsRefused : Obligations.WrongPortIsRefused := by
  intro i s
  refine ⟨fun only port => ?send, fun only port => ?receive⟩
  case send =>
    obtain ⟨go, e⟩ := exec_sendOnly only s
    have other : Port.R ≠ .S := nofun
    rw [e, port, onPort_other s go other]
  case receive =>
    obtain ⟨go, e⟩ := exec_receiveOnly_onPort only s
    have other : Port.S ≠ .R := nofun
    rw [e, port, onPort_other s go other]

end Sys2Proof.Laws

end

/-! ### The two checksums (O5 to O10)

Both generators are one shift register clocked once per input bit. What the obligations say of them is said first of that
register, of any width and any generator. -/

section

namespace Sys2Proof.Laws

open Machine Reference

/-- The shift register both generators clock: the feedback is the top bit XOR the input bit (R81, R84). -/
def serialStep {w : Nat} (poly x : BitVec w) (d : Bool) : BitVec w :=
  if x.msb ^^ d then (x <<< 1) ^^^ poly else x <<< 1

/-- The first `n` bits of a word, most significant first (R36). -/
def topBits {w : Nat} (n : Nat) (y : BitVec w) : List Bool := (List.range n).map y.getMsbD

theorem topBits_succ {w : Nat} (n : Nat) (y : BitVec w) : topBits (n + 1) y = y.msb :: topBits n (y <<< 1) := by
  rw [topBits, topBits, List.range_succ_eq_map, List.map_cons, List.map_map]
  refine congrArg _ (List.map_congr_left fun i _ => ?_)
  simp

section

variable {w : Nat} {poly : BitVec w}

/-- XORing a word into the register is giving its top bit as input, and keeping what is left of it for the clocks to come. -/
theorem serialStep_xor (x y : BitVec w) : serialStep poly (x ^^^ y) false = serialStep poly x y.msb ^^^ (y <<< 1) := by
  simp only [serialStep, BitVec.msb_xor, Bool.bne_false, BitVec.shiftLeft_xor_distrib]
  split
  · ac_rfl
  · rfl

/-- A word XORed in at once and clocked out is the same word given bit by bit. -/
theorem iterate_serialStep_xor (n : Nat) (x y : BitVec w) :
    (serialStep poly · false)^[n] (x ^^^ y) = (topBits n y).foldl (serialStep poly) x ^^^ (y <<< n) := by
  induction n generalizing x y with
  | zero => simp [topBits]
  | succ n ih => rw [Function.iterate_succ_apply, serialStep_xor, ih, topBits_succ, List.foldl_cons, Nat.add_comm n,
      BitVec.shiftLeft_add]

theorem serialStep_zero : serialStep poly 0#w false = 0#w := by
  simp [serialStep]

/-- A register that is given its own bits ends at zero. -/
theorem foldl_serialStep_topBits_self (x : BitVec w) : (topBits w x).foldl (serialStep poly) x = 0#w := by
  have clocked := iterate_serialStep_xor (poly := poly) w x x
  rw [BitVec.xor_self, Function.iterate_fixed (f := (serialStep poly · false)) serialStep_zero] at clocked
  simpa using clocked.symm

/-! #### A generator with constant term 1 forgets nothing (R83 (ii), R86 (ii)) -/

variable (constant : poly.getLsbD 0 = true)
include constant

/-- The bottom bit after a clock is the feedback, which says whether the generator was added. -/
theorem serialStep_getLsbD_zero (x : BitVec w) (d : Bool) : (serialStep poly x d).getLsbD 0 = (x.msb ^^ d) := by
  have inside : 0 < w := BitVec.lt_of_getLsbD constant
  unfold serialStep
  split
  · next added => simp [added, constant]
  · next kept => simp [eq_false_of_ne_true kept, inside]

theorem feedback_eq_of_serialStep_eq {x y : BitVec w} {d e : Bool} (same : serialStep poly x d = serialStep poly y e) :
    (x.msb ^^ d) = (y.msb ^^ e) := by
  rw [← serialStep_getLsbD_zero constant, same, serialStep_getLsbD_zero constant]

/-- The register before a clock is read off the register after it: its top bit from the feedback, the others from the shift. -/
theorem serialStep_injective (d : Bool) : Function.Injective (serialStep poly · d) := by
  intro x y (same : serialStep poly x d = serialStep poly y d)
  have feedback := feedback_eq_of_serialStep_eq constant same
  have top : x.msb = y.msb := Bool.xor_left_inj.1 feedback
  have shifted : x <<< 1 = y <<< 1 := by
    unfold serialStep at same
    rw [feedback] at same
    split at same
    · exact (BitVec.xor_left_inj poly).1 same
    · exact same
  refine BitVec.eq_of_getMsbD_eq fun i _ => ?_
  cases i with
  | zero => exact top
  | succ i => simpa [Nat.add_comm] using congrArg (BitVec.getMsbD · i) shifted

/-- Two different input bits leave different registers. -/
theorem serialStep_bit_injective (x : BitVec w) : Function.Injective (serialStep poly x) := fun _ _ same =>
  Bool.xor_right_inj.1 (feedback_eq_of_serialStep_eq constant same)

/-- Two different registers stay different whatever bits follow. -/
theorem foldl_serialStep_injective (bits : List Bool) : Function.Injective (bits.foldl (serialStep poly)) := by
  induction bits with
  | nil => exact Function.injective_id
  | cons d bits ih => exact ih.comp (serialStep_injective constant d)

/-- Flipping one of the input bits changes the register they leave. -/
theorem foldl_serialStep_modify_ne (x : BitVec w) {bits : List Bool} {i : Nat} (hi : i < bits.length) :
    (bits.modify i Bool.not).foldl (serialStep poly) x ≠ bits.foldl (serialStep poly) x := by
  induction bits generalizing x i with
  | nil => exact absurd hi (Nat.not_lt_zero i)
  | cons d bits ih =>
    cases i with
    | zero =>
      have first : serialStep poly x (!d) ≠ serialStep poly x d :=
        (serialStep_bit_injective constant x).ne (Bool.not_ne_self d)
      exact (foldl_serialStep_injective constant bits).ne first
    | succ i => exact ih _ (Nat.lt_of_succ_lt_succ hi)

end

/-! ### The generators are this register -/

theorem crc5Bit_eq_serialStep (c : Params) : crc5Bit c = serialStep c.crc5Poly := by
  funext x d
  rw [crc5Bit, serialStep, BitVec.msb_eq_getLsbD_last]

theorem serial16_eq_serialStep (poly : BitVec 16) : serial16 poly = serialStep poly := by
  funext x d
  rw [serial16, serialStep, BitVec.msb_eq_getLsbD_last]

theorem crc16Shift_eq_serialStep (c : Params) : crc16Shift c = (serialStep c.crc16Poly · false) := by
  funext x
  rw [crc16Shift, serialStep, BitVec.msb_eq_getLsbD_last, Bool.xor_false]

theorem inputBits_append (A B : Bytes) : inputBits (A ++ B) = inputBits A ++ inputBits B := List.flatMap_append

theorem inputBits_cons (b : Byte) (B : Bytes) : inputBits (b :: B) = bitsMsbFirst b ++ inputBits B := rfl

/-- A byte in bits 15:8 of a word is the word's first eight bits. -/
theorem topBits_byte (b : Byte) : topBits 8 (b.setWidth 16 <<< 8) = bitsMsbFirst b := by
  simp [bitsMsbFirst, topBits, List.range_succ, BitVec.getMsbD]

/-- A word's bytes, big-endian, are its bits in order (R36). -/
theorem inputBits_bigEndian (x : BitVec 16) : inputBits [x.extractLsb' 8 8, x.extractLsb' 0 8] = topBits 16 x := by
  simp [inputBits, topBits, List.range_succ, BitVec.getMsbD]

/-- R84: XORing a byte into bits 15:8 and shifting eight times is giving its bits, bit 7 first. -/
theorem crc16Byte_eq_foldl (c : Params) (x : BitVec 16) (b : Byte) :
    crc16Byte c x b = (bitsMsbFirst b).foldl (serialStep c.crc16Poly) x := by
  have gone : b.setWidth 16 <<< 8 <<< 8 = 0#16 := by
    rw [← BitVec.shiftLeft_add, BitVec.shiftLeft_eq_zero (by decide)]
  rw [crc16Byte, crc16Shift_eq_serialStep, iterate_serialStep_xor, topBits_byte, gone, BitVec.xor_zero]

theorem crc5_eq_foldl (c : Params) (B : Bytes) : crc5 c B = (inputBits B).foldl (serialStep c.crc5Poly) c.crc5Init := by
  rw [crc5, inputBits, List.foldl_flatMap, ← crc5Bit_eq_serialStep]
  rfl

theorem crc16_eq_foldl (c : Params) (B : Bytes) : crc16 c B = (inputBits B).foldl (serialStep c.crc16Poly) c.crc16Init := by
  rw [crc16, inputBits, List.foldl_flatMap]
  exact List.foldl_ext _ _ _ fun x b _ => crc16Byte_eq_foldl c x b

/-- Settles O7: the register is the spec's bit-serial step. -/
theorem crc16IsTheBitSerialForm : Obligations.Crc16IsTheBitSerialForm := by
  intro c B
  rw [crc16_eq_foldl, serial16_eq_serialStep]

/-- Settles O10: the checksum appended big-endian gives the register its own bits. -/
theorem crc16ResidueIsZero : Obligations.Crc16ResidueIsZero := by
  intro c B
  rw [crc16_eq_foldl, inputBits_append, List.foldl_append, ← crc16_eq_foldl, inputBits_bigEndian]
  exact foldl_serialStep_topBits_self _

/-! ### The five flip-flops of CRC-5 (O6) -/

/-- The register's five bits, one flip-flop each, `c4` first (R81). -/
def flops (x : BitVec 5) : Bool × Bool × Bool × Bool × Bool :=
  (x.getLsbD 4, x.getLsbD 3, x.getLsbD 2, x.getLsbD 1, x.getLsbD 0)

theorem flopValue_flops (x : BitVec 5) : flopValue (flops x) = x.toNat := by
  revert x
  decide

/-- R81: the wires between the flip-flops are one shift with R9's generator, 32 registers and two input bits. -/
theorem flopStep_flops (x : BitVec 5) (d : Bool) :
    flopStep (flops x) d = flops (serialStep Params.default.crc5Poly x d) := by
  revert x d
  decide

/-- Settles O6: the flip-flops hold the register's bits after every input bit. -/
theorem crc5IsTheFlipFlopForm : Obligations.Crc5IsTheFlipFlopForm := by
  intro B
  have start : (true, true, true, true, true) = flops Params.default.crc5Init := rfl
  rw [crc5_eq_foldl, ← flopValue_flops, start, List.foldl_hom flops flopStep_flops]

/-! ### One flipped bit (O8, O9) -/

/-- Flipping bit `k` of a byte flips one of its bits in the order the generators take them. -/
theorem bitsMsbFirst_flip (b : Byte) {k : Nat} (hk : k < 8) :
    bitsMsbFirst (b ^^^ BitVec.twoPow 8 k) = (bitsMsbFirst b).modify (7 - k) Bool.not := by
  interval_cases k <;> simp [bitsMsbFirst]

/-- The register sees a flipped bit anywhere in a byte string. -/
theorem foldl_serialStep_flip_ne {w : Nat} {poly : BitVec w} (constant : poly.getLsbD 0 = true) (x : BitVec w) (A C : Bytes)
    (b : Byte) {k : Nat} (hk : k < 8) :
    (inputBits (A ++ (b ^^^ BitVec.twoPow 8 k) :: C)).foldl (serialStep poly) x ≠
      (inputBits (A ++ b :: C)).foldl (serialStep poly) x := by
  have place : 7 - k < (bitsMsbFirst b).length := Nat.lt_succ_of_le (Nat.sub_le 7 k)
  simp only [inputBits_append, inputBits_cons, List.foldl_append, bitsMsbFirst_flip b hk]
  exact (foldl_serialStep_injective constant _).ne (foldl_serialStep_modify_ne constant _ place)

/-- Settles O8: `crc5` is what the register holds after the bits of the string. -/
theorem crc5ChangesOnEveryBitFlip : Obligations.Crc5ChangesOnEveryBitFlip := by
  intro c A C b k constant hk
  rw [crc5_eq_foldl, crc5_eq_foldl]
  exact foldl_serialStep_flip_ne constant _ A C b hk

/-- Settles O9: `crc16` is what the register holds after the bits of the string. -/
theorem crc16ChangesOnEveryBitFlip : Obligations.Crc16ChangesOnEveryBitFlip := by
  intro c A C b k constant hk
  rw [crc16_eq_foldl, crc16_eq_foldl]
  exact foldl_serialStep_flip_ne constant _ A C b hk

/-! ### The operations that answer the checksums (O5) -/

theorem exec_crc5 (p : Port) (B : Bytes) (s : State) :
    exec (.crc5 p B) s = .next (s.answer p .ok (.crc5 (crc5 s.params B))) := rfl

theorem exec_crc16 (p : Port) (B : Bytes) (s : State) :
    exec (.crc16 p B) s = .next (s.answer p .ok (.crc16 (crc16 s.params B))) := rfl

/-- Settles O5: no bits leave the register at its initial value. -/
theorem crcOperationsAnswerTheChecksum : Obligations.CrcOperationsAnswerTheChecksum :=
  ⟨fun p B s => ⟨exec_crc5 p B s, exec_crc16 p B s⟩, fun _ => ⟨rfl, rfl⟩, rfl, rfl⟩

end Sys2Proof.Laws

end

/-! ### What `DECODE` finds in a byte string (O12) -/

section

namespace Sys2Proof.Laws

open Machine Reference

/-- R55: the model tests the flag bits as the rules write the test. -/
theorem isJobHeader_iff {c : Params} {h : Byte} : isJobHeader c h = true ↔ h &&& c.hdrJobFlag ≠ 0 := bne_iff_ne

theorem isJobHeader_eq_false_iff {c : Params} {h : Byte} : isJobHeader c h = false ↔ h &&& c.hdrJobFlag = 0 :=
  bne_eq_false_iff_eq

/-! #### The preamble -/

/-- A string without the preamble is rejected for that, whatever else it is (R96). -/
theorem decodeFrame_badPreamble {c : Params} {B : Bytes} (h : B.take 2 ≠ [0x55, 0xAA]) : decodeFrame c B = .badPreamble := by
  match B with
  | [] => rfl
  | [_] => rfl
  | b0 :: b1 :: rest =>
    refine if_pos (.inr ?_)
    show b0 ≠ 0x55 ∨ b1 ≠ 0xAA
    rw [← not_and_or]
    rintro ⟨rfl, rfl⟩
    exact h rfl

/-- The test of the preamble finds nothing wrong with one. -/
theorem decodeFrame_preamble (c : Params) (rest : Bytes) :
    decodeFrame c (0x55 :: 0xAA :: rest) =
      if rest.length + 2 < 5 then .badLength
      else if isJobHeader c (byteAt rest 0) then decodeJob c (0x55 :: 0xAA :: rest) else decodeCommand c (0x55 :: 0xAA :: rest) :=
  if_neg (by simp [byteAt, Config.preamble0, Config.preamble1])

/-- A string with the preamble and no place for a length byte is too short (R95). -/
theorem decodeFrame_short {c : Params} {B : Bytes} (preamble : B.take 2 = [0x55, 0xAA]) (short : B.length < 4) :
    decodeFrame c B = .badLength := by
  obtain ⟨rest, rfl⟩ : ∃ rest, B = 0x55 :: 0xAA :: rest := ⟨B.drop 2, by rw [← B.take_append_drop 2, preamble]; rfl⟩
  have len : rest.length + 2 < 4 := short
  rw [decodeFrame_preamble, if_pos (by omega)]

/-- A string with the preamble and a place for a length byte is a raw frame. -/
theorem exists_rawFrame {B : Bytes} (preamble : B.take 2 = [0x55, 0xAA]) (long : 4 ≤ B.length) :
    ∃ h len rest, B = rawFrame h len rest := by
  match B with
  | b0 :: b1 :: h :: len :: rest =>
    cases preamble
    exact ⟨h, len, rest, rfl⟩

/-! #### Length and checksum -/

section

variable {c : Params} {h len : Byte} {rest P : Bytes}

/-- A raw frame is read by the shape its header selects, if anything follows its length byte (R90, R95). -/
theorem decodeFrame_rawFrame (c : Params) (h len : Byte) (rest : Bytes) :
    decodeFrame c (rawFrame h len rest) =
      if rest.length < 1 then .badLength
      else if isJobHeader c h then decodeJob c (rawFrame h len rest) else decodeCommand c (rawFrame h len rest) := by
  refine (decodeFrame_preamble c (h :: len :: rest)).trans (if_congr ?_ rfl rfl)
  simp only [List.length_cons]
  omega

/-- The checks of the job shape, by what follows the length byte (R95). -/
theorem decodeFrame_job (shape : isJobHeader c h = true) :
    decodeFrame c (rawFrame h len rest) =
      if rest.length < 2 ∨ len.toNat ≠ rest.length - 2 + c.lenOffJob then .badLength
      else if be16 rest (rest.length - 2) ≠ crc16 c (h :: len :: rest.take (rest.length - 2)) then .badChecksum
      else .accepted h (rest.take (rest.length - 2)) := by
  have length : (rawFrame h len rest).length < Config.jobOverhead ↔ rest.length < 2 := by
    rw [rawFrame_length, Config.jobOverhead]; omega
  have payload : (rawFrame h len rest).length - Config.jobOverhead = rest.length - 2 := by
    rw [rawFrame_length, Config.jobOverhead]; omega
  rw [decodeFrame_rawFrame, if_pos shape]
  by_cases short : rest.length < 1
  · rw [if_pos short, if_pos (.inl (by omega))]
  rw [if_neg short]
  simp only [decodeJob, length, payload]
  refine ite_congr rfl (fun _ => rfl) fun counted => ?_
  obtain ⟨n, hn⟩ : ∃ n, rest.length = n + 2 := ⟨rest.length - 2, by omega⟩
  simp only [rawFrame_length, hn]
  rfl

/-- The checks of the command shape, by what follows the length byte (R95). -/
theorem decodeFrame_command (shape : isJobHeader c h = false) :
    decodeFrame c (rawFrame h len rest) =
      if rest.length < 1 ∨ len.toNat ≠ rest.length - 1 + c.lenOffCmd then .badLength
      else if byteAt rest (rest.length - 1) ≠ crc5TrailByte c (h :: len :: rest.take (rest.length - 1)) then .badChecksum
      else .accepted h (rest.take (rest.length - 1)) := by
  rw [decodeFrame_rawFrame, shape]
  by_cases short : rest.length < 1
  · rw [if_pos short, if_pos (.inl short)]
  obtain ⟨n, hn⟩ : ∃ n, rest.length = n + 1 := ⟨rest.length - 1, by omega⟩
  simp only [short, false_or]
  simp only [decodeCommand, rawFrame_length, Config.cmdOverhead, hn]
  rfl

theorem byteAt_append (A B : Bytes) (i : Nat) : byteAt (A ++ B) (A.length + i) = byteAt B i := by
  simp only [byteAt, List.getD_append_right _ _ _ _ (Nat.le_add_right ..), Nat.add_sub_cancel_left]

/-- A job frame whose length byte counts its payload is accepted if its checksum is right (R95). -/
theorem decodeFrame_job_counted (shape : isJobHeader c h = true) (count : len.toNat = P.length + c.lenOffJob) (hi lo : Byte) :
    decodeFrame c (rawFrame h len (P ++ [hi, lo])) =
      if beWord16 hi lo = crc16 c (h :: len :: P) then .accepted h P else .badChecksum := by
  have length : (P ++ [hi, lo]).length - 2 = P.length := by simp
  have lengthOk : ¬((P ++ [hi, lo]).length < 2 ∨ len.toNat ≠ P.length + c.lenOffJob) := by simp [count]
  have sum : be16 (P ++ [hi, lo]) P.length = beWord16 hi lo :=
    congrArg₂ beWord16 (byteAt_append P [hi, lo] 0) (byteAt_append P [hi, lo] 1)
  rw [decodeFrame_job shape, length, if_neg lengthOk, sum, List.take_left, ite_not]

/-- A command frame whose length byte counts its payload is accepted if its whole last byte is the checksum (R57, R95). -/
theorem decodeFrame_command_counted (shape : isJobHeader c h = false) (count : len.toNat = P.length + c.lenOffCmd) (k : Byte) :
    decodeFrame c (rawFrame h len (P ++ [k])) =
      if k = crc5TrailByte c (h :: len :: P) then .accepted h P else .badChecksum := by
  have length : (P ++ [k]).length - 1 = P.length := by simp
  have lengthOk : ¬((P ++ [k]).length < 1 ∨ len.toNat ≠ P.length + c.lenOffCmd) := by simp [count]
  have sum : byteAt (P ++ [k]) P.length = k := byteAt_append P [k] 0
  rw [decodeFrame_command shape, length, if_neg lengthOk, sum, List.take_left, ite_not]

end

/-- With R9's offsets both shapes count two bytes fewer than the frame has (R58). -/
theorem decodeFrame_default_badLength {h len : Byte} {rest : Bytes} (bad : len.toNat ≠ (rawFrame h len rest).length - 2) :
    decodeFrame Params.default (rawFrame h len rest) = .badLength := by
  rw [rawFrame_length] at bad
  cases shape : isJobHeader Params.default h with
  | true =>
    refine (decodeFrame_job shape).trans (if_pos ?_)
    show _ ∨ len.toNat ≠ rest.length - 2 + 4
    omega
  | false =>
    refine (decodeFrame_command shape).trans (if_pos ?_)
    show _ ∨ len.toNat ≠ rest.length - 1 + 3
    omega

/-! #### The operation -/

/-- The status and results that report a verdict (R95, R200). -/
def verdictAnswer (v : FrameVerdict) : Status × Results :=
  match v with
  | .accepted h P => (.ok, .decoded h P)
  | .badPreamble => (.framePreamble, .empty)
  | .badLength => (.frameLength, .empty)
  | .badChecksum => (.frameChecksum, .empty)

/-- `DECODE` completes on either port with the verdict on its bytes (R95). -/
theorem exec_decode {B : Bytes} {s : State} {v : FrameVerdict} (found : decodeFrame s.params B = v) (p : Port) :
    exec (.decode p B) s = .next (s.answer p (verdictAnswer v).1 (verdictAnswer v).2) := by
  show Host.Outcome.next (answerDecode p B s) = _
  rw [answerDecode, found]
  cases v <;> rfl

/-- Settles O12: the strings with the preamble and a length byte are the raw frames, and those are read by shape. -/
theorem decodeReportsTheFirstFailure : Obligations.DecodeReportsTheFirstFailure := by
  intro p B s
  refine ⟨fun noPreamble => exec_decode (decodeFrame_badPreamble noPreamble) p,
    fun preamble short => exec_decode (decodeFrame_short preamble short) p, ?_⟩
  rintro h len rest rfl
  refine ⟨fun flag bad => ?jobLength, fun flag bad => ?commandLength, fun flag => ?job, fun flag => ?command,
    fun hp bad => ?default⟩
  case jobLength => exact exec_decode ((decodeFrame_job (isJobHeader_iff.2 flag)).trans (if_pos bad)) p
  case commandLength => exact exec_decode ((decodeFrame_command (isJobHeader_eq_false_iff.2 flag)).trans (if_pos bad)) p
  case job =>
    rintro P hi lo rfl count
    have found := decodeFrame_job_counted (isJobHeader_iff.2 flag) count hi lo
    exact ⟨fun wrong => exec_decode (found.trans (if_neg wrong)) p, fun right => exec_decode (found.trans (if_pos right)) p⟩
  case command =>
    rintro P k rfl count
    have found := decodeFrame_command_counted (isJobHeader_eq_false_iff.2 flag) count k
    exact ⟨fun wrong => exec_decode (found.trans (if_neg wrong)) p, fun right => exec_decode (found.trans (if_pos right)) p⟩
  case default =>
    have found : decodeFrame s.params (rawFrame h len rest) = .badLength := by rw [hp]; exact decodeFrame_default_badLength bad
    exact exec_decode found p

end Sys2Proof.Laws

end

/-! ### `ENCODE` and `DECODE` (O11, O13, O14) -/

section

namespace Sys2Proof.Laws

open Machine Reference

/-- Settles O11: the frames and refusals of the model's `encode`, written out. -/
theorem encodeBuildsTheFrame : Obligations.EncodeBuildsTheFrame := by
  intro h P s
  refine ⟨fun flag fits => ?job, fun flag fits => ?command, fun flag long => ?jobLong, fun flag long => ?commandLong,
    fun hp => ?default⟩
  case job => exact exec_encode_some ((encodeFrame_job (isJobHeader_iff.2 flag) P).trans (if_pos fits))
  case command => exact exec_encode_some ((encodeFrame_command (isJobHeader_eq_false_iff.2 flag) P).trans (if_pos fits))
  case jobLong =>
    exact exec_encode_none ((encodeFrame_job (isJobHeader_iff.2 flag) P).trans (if_neg (Nat.not_le.2 long)))
  case commandLong =>
    exact exec_encode_none ((encodeFrame_command (isJobHeader_eq_false_iff.2 flag) P).trans (if_neg (Nat.not_le.2 long)))
  case default =>
    have built : encodeFrame s.params h P = encodeR92 h P := hp ▸ encodeFrame_default h P
    cases e : encodeR92 h P with
    | some F => exact exec_encode_some (built.trans e)
    | none => exact exec_encode_none (built.trans e)

/-- R94: what `encode` builds is accepted with the header and payload it was built from. -/
theorem decodeFrame_of_encodeFrame {c : Params} {h : Byte} {P F : Bytes} (built : encodeFrame c h P = some F) :
    decodeFrame c F = .accepted h P := by
  cases shape : isJobHeader c h with
  | true =>
    obtain ⟨fits, ⟨⟩⟩ := Option.ite_none_right_eq_some.1 ((encodeFrame_job shape P).symm.trans built)
    exact (decodeFrame_job_counted shape (lengthByte_toNat fits) _ _).trans (if_pos (beWord16_bytes _))
  | false =>
    obtain ⟨fits, ⟨⟩⟩ := Option.ite_none_right_eq_some.1 ((encodeFrame_command shape P).symm.trans built)
    exact (decodeFrame_command_counted shape (lengthByte_toNat fits) _).trans (if_pos rfl)

/-- R34: a word made of two bytes has those two bytes. -/
theorem bytesBe16_beWord16 (a b : Byte) : bytesBe16 (beWord16 a b) = [a, b] := by
  refine congrArg₂ (fun x y => [x, y]) (BitVec.eq_of_toNat_eq ?_) (BitVec.eq_of_toNat_eq ?_) <;>
    simp only [BitVec.extractLsb'_toNat, toNat_beWord16, Nat.shiftRight_eq_div_pow] <;> omega

theorem exists_append_of_le_length {n : Nat} {B : Bytes} (h : n ≤ B.length) : ∃ P sum, B = P ++ sum ∧ sum.length = n :=
  ⟨B.take (B.length - n), B.drop (B.length - n), (B.take_append_drop _).symm, by rw [List.length_drop]; omega⟩

section

variable {c : Params} {h h' len : Byte} {rest P : Bytes}

/-- A job frame that is accepted is a payload its length byte counts and the checksum, high byte first (R53, R95). -/
theorem of_decodeFrame_job (shape : isJobHeader c h = true) (found : decodeFrame c (rawFrame h len rest) = .accepted h' P) :
    h' = h ∧ len.toNat = P.length + c.lenOffJob ∧ rest = P ++ crc16TrailBytes c (h :: len :: P) := by
  by_cases bad : rest.length < 2 ∨ len.toNat ≠ rest.length - 2 + c.lenOffJob
  · exact nomatch ((decodeFrame_job shape).trans (if_pos bad)).symm.trans found
  obtain ⟨Q, sum, rfl, two⟩ := exists_append_of_le_length (by omega : 2 ≤ rest.length)
  obtain ⟨hi, lo, rfl⟩ := List.length_eq_two.1 two
  have count : len.toNat = Q.length + c.lenOffJob := by simpa using bad
  rw [decodeFrame_job_counted shape count] at found
  split at found
  · next right =>
    cases found
    exact ⟨rfl, count, by rw [crc16TrailBytes, ← right, bytesBe16_beWord16]⟩
  · cases found

/-- A command frame that is accepted is a payload its length byte counts and the checksum byte (R53, R95). -/
theorem of_decodeFrame_command (shape : isJobHeader c h = false) (found : decodeFrame c (rawFrame h len rest) = .accepted h' P) :
    h' = h ∧ len.toNat = P.length + c.lenOffCmd ∧ rest = P ++ [crc5TrailByte c (h :: len :: P)] := by
  by_cases bad : rest.length < 1 ∨ len.toNat ≠ rest.length - 1 + c.lenOffCmd
  · exact nomatch ((decodeFrame_command shape).trans (if_pos bad)).symm.trans found
  obtain ⟨Q, sum, rfl, one⟩ := exists_append_of_le_length (by omega : 1 ≤ rest.length)
  obtain ⟨k, rfl⟩ := List.length_eq_one_iff.1 one
  have count : len.toNat = Q.length + c.lenOffCmd := by simpa using bad
  rw [decodeFrame_command_counted shape count] at found
  split at found
  · next right =>
    cases found
    exact ⟨rfl, count, by rw [right]⟩
  · cases found

end

/-- R58, R95: what is accepted is what `encode` builds. -/
theorem encodeFrame_of_decodeFrame {c : Params} {B : Bytes} {h : Byte} {P : Bytes} (found : decodeFrame c B = .accepted h P) :
    encodeFrame c h P = some B := by
  have preamble : B.take 2 = [0x55, 0xAA] := by
    by_contra no
    exact nomatch (decodeFrame_badPreamble no).symm.trans found
  have long : 4 ≤ B.length := by
    by_contra short
    exact nomatch (decodeFrame_short preamble (Nat.not_le.1 short)).symm.trans found
  obtain ⟨h', len, rest, rfl⟩ := exists_rawFrame preamble long
  cases shape : isJobHeader c h' with
  | true =>
    obtain ⟨rfl, count, rfl⟩ := of_decodeFrame_job shape found
    rw [encodeFrame_job shape, if_pos (by omega), lengthByte_of_toNat count]
    rfl
  | false =>
    obtain ⟨rfl, count, rfl⟩ := of_decodeFrame_command shape found
    rw [encodeFrame_command shape, if_pos (by omega), lengthByte_of_toNat count]
    rfl

/-- Settles O13: `DECODE` reads its parameters alone, so it may run in any state that has the same. -/
theorem framingRoundTrip : Obligations.FramingRoundTrip := by
  intro h P s fits
  have fits' : P.length + lenOff s.params h ≤ 255 := by
    simpa only [lenOff, isJobHeader_iff] using fits
  obtain ⟨F, built⟩ : ∃ F, encodeFrame s.params h P = some F := ⟨_, if_pos fits'⟩
  refine ⟨F, exec_encode_some built, fun p t same => ?_⟩
  have found : decodeFrame t.params F = .accepted h P := by rw [same]; exact decodeFrame_of_encodeFrame built
  exact exec_decode found p

/-- Two answers that leave the same state are the same answer. -/
theorem answer_inj {p : Port} {s : State} {st st' : Status} {r r' : Results} (h : s.answer p st r = s.answer p st' r') :
    st = st' ∧ r = r' := by
  have same := congrArg (fun t => (t.port p).rsp) h
  simpa using same

/-- Settles O14: only one verdict is answered with a header and a payload. -/
theorem decodeAcceptsOnlyEncodedFrames : Obligations.DecodeAcceptsOnlyEncodedFrames := by
  intro p B s h P answered
  refine exec_encode_some (encodeFrame_of_decodeFrame ?_)
  obtain ⟨status, results⟩ := answer_inj (Host.Outcome.next.inj ((exec_decode rfl p).symm.trans answered))
  cases verdict : decodeFrame s.params B with
  | accepted h' P' =>
    rw [verdict] at results
    cases results
    rfl
  | badPreamble | badLength | badChecksum =>
    rw [verdict] at status
    cases status

end Sys2Proof.Laws

end

/-! ### The fields of a job payload (O15) -/

section

namespace Sys2Proof.Laws

open Machine

/-- R0, R34: byte `k` of a 32-bit value, most significant first. -/
theorem getD_bytesBe32 (v : BitVec 32) {k : Nat} (hk : k < 4) : (bytesBe32 v).getD k 0 = v.extractLsb' (24 - 8 * k) 8 := by
  interval_cases k <;> rfl

/-- The bytes of a 32-bit field that stands at `n`. -/
theorem getD_field {P : Bytes} {n k : Nat} {v : BitVec 32} (field : (P.drop n).take 4 = bytesBe32 v) (hk : k < 4) :
    P.getD (n + k) 0 = v.extractLsb' (24 - 8 * k) 8 := by
  rw [← getD_bytesBe32 v hk, ← field]
  simp [hk]

/-- R60: the two strings stand after 14 bytes, and the version after them. -/
theorem drop_jobPayload (f : JobFields) :
    (jobPayload f).drop 14 = f.merkleRoot.toList ++ f.prevBlockHash.toList ++ bytesBe32 f.version := rfl

/-- Settles O15: each field is what stands between its place and the next field's. -/
theorem jobPayloadFieldsStandAtTheirOffsets : Obligations.JobPayloadFieldsStandAtTheirOffsets := by
  intro f s
  have root : f.merkleRoot.toList.length = 32 := Vector.length_toList
  have hash : f.prevBlockHash.toList.length = 32 := Vector.length_toList
  have drop46 : (jobPayload f).drop 46 = f.prevBlockHash.toList ++ bytesBe32 f.version := by
    rw [show 46 = 14 + 32 from rfl, ← List.drop_drop, drop_jobPayload, List.append_assoc, List.drop_left' root]
  have version : (jobPayload f).drop 78 = bytesBe32 f.version := by
    rw [show 78 = 46 + 32 from rfl, ← List.drop_drop, drop46, List.drop_left' hash]
  refine ⟨jobPayload f, exec_jobpayload f s, jobPayload_length f, rfl, rfl,
    fun k hk => ⟨getD_field rfl hk, getD_field rfl hk, getD_field rfl hk, getD_field ?version hk⟩, ?root, ?hash⟩
  case version => rw [version]; rfl
  case root => rw [drop_jobPayload, List.append_assoc, List.take_left' root]
  case hash => rw [drop46, List.take_left' hash]

end Sys2Proof.Laws

end

/-! ### Frames handed to the transport (O17, O18, O19) -/

section

namespace Sys2Proof.Laws

open Machine Reference

/-- Settles O17: one frame, one answer. -/
theorem sendHandsItsBytesToTheTransport : Obligations.SendHandsItsBytesToTheTransport :=
  fun F _ _ _ hs ha => exec_send F hs ha

/-- U3: without an answer of `Tx` the operation that awaits it takes no micro-step. -/
theorem micro_txWait_unanswered {s : State} (h : s.env.txAns = []) (p : Port) (left : List Bytes) (ok : Bool) (k : AfterTx) :
    micro p (.txWait left ok k) s = .wait := by
  simp only [micro, microTxWait, takeTxAnswer, h]

/-- An operation that stops where it is changes nothing. -/
theorem suspend_of_cur {p : Port} {s : State} {t : Task} (cur : (s.port p).cur = some t) : s.suspend p t = s := by
  cases p <;> (unfold State.suspend; rw [← cur]; rfl)

/-- R230: no reset event occurs while an operation is in progress. -/
theorem resetsNow_of_cur {p : Port} {s : State} {t : Task} (cur : (s.port p).cur = some t) : s.resetsNow = false := by
  have busy : s.betweenOperations = false := by
    cases p with
    | S => rw [State.betweenOperations, show s.portS.cur = some t from cur]; rfl
    | R => rw [State.betweenOperations, show s.portR.cur = some t from cur]; exact Bool.and_false _
  rw [State.resetsNow, busy, Bool.and_false]

/-- A step whose turn is that of a port with an operation in progress resumes it. -/
theorem step_resumed {s : State} {t : Task} (cur : (s.port s.nextTurn.turn).cur = some t) :
    step s = .next (runOp s.nextTurn.turn t s.nextTurn) := by
  rw [step_eq_stepPort_of_not_resetsNow (resetsNow_of_cur cur)]
  exact stepPort_resumed ((congrArg PortState.cur (State.nextTurn_port ..)).trans cur)

/-- Settles O18: the frame goes out before the wait, and a turn that finds no answer leaves the operation where it is. -/
theorem sendWaitsForTheTransport : Obligations.SendWaitsForTheTransport := by
  refine ⟨fun F s hs ha => ?handedOver, fun t left ok k turn ha cur => ?waits⟩
  case handedOver =>
    have handed : micro .S (.transmit [F] true .send) s = .more (.txWait [] true .send) (s.handToTx F) := rfl
    have waits := micro_txWait_unanswered (s := s.handToTx F) ha .S [] true .send
    show Host.Outcome.next (onPort .S .S s (runOp .S (.transmit [F] true .send) s)) = _
    rw [onPort_same, runOp_uncut handed hs, runOp_wait waits, sentFrames, ← ha]
    rfl
  case waits =>
    have unanswered : t.nextTurn.env.txAns = [] := by rw [State.nextTurn_env, ha]
    have cur' : (t.nextTurn.port .S).cur = some (.txWait left ok k) := by rw [State.nextTurn_port]; exact cur
    rw [step_resumed (by rw [turn]; exact cur), turn, runOp_wait (micro_txWait_unanswered unanswered ..), suspend_of_cur cur']

/-- R61: the byte of the two post dividers as stored. -/
theorem postDividers_byte (p1 p2 : BitVec 3) :
    (p1.setWidth 8 <<< 4) ||| p2.setWidth 8 = (BitVec.ofNat 8 (16 * p1.toNat + p2.toNat) : Byte) := by
  revert p1 p2
  decide

/-- Settles O19: each row is `SEND` of its bytes. -/
theorem wireFramesAreSentAsGiven : Obligations.WireFramesAreSentAsGiven := by
  intro s a as hs ha
  refine ⟨fun h len rest => exec_send (rawFrame h len rest) hs ha, fun h len rest => exec_send (rawFrame h len rest) hs ha,
    fun k => ?readid, fun x k => exec_send (rawCommand s.params s.params.hdrSetaddr [x, 0x00] k) hs ha,
    fun hf fb rd p1 p2 k => ?pllwrite⟩
  case readid => exact exec_send (rawCommand s.params s.params.hdrReadid s.params.readidPayload k) hs ha
  case pllwrite =>
    rw [← postDividers_byte, BitVec.ofNat_toNat]
    exact exec_send (rawCommand s.params s.params.hdrWriteAll (pllPayloadRaw s.params hf fb rd p1 p2) k) hs ha

end Sys2Proof.Laws

end

/-! ### An operation that waits for `Tx`, answered (O54) -/

section

namespace Sys2Proof.Laws

open Machine Reference

/-! #### The loop of `ENUMERATE` does not read what port `S` holds as in progress -/

section

variable (t : Task)

theorem callRx_suspend (n : Nat) (s : State) :
    callRx n (s.suspend .S t) = (callRx n s).map fun x => (x.1, x.2.suspend .S t) := by
  cases answers : s.env.rxAns with
  | nil => simp [callRx, answers]
  | cons x as =>
    cases x with
    | failure => rw [callRx_failure answers, callRx_failure (s := s.suspend .S t) answers]; rfl
    | bytes B =>
      simp only [callRx, State.suspend_env, answers, Option.map_map]
      rfl

theorem enumFinish_suspend (count : BitVec 8) (ok : Bool) (s : State) :
    enumFinish count ok (s.suspend .S t) = mapState (·.suspend .S t) (enumFinish count ok s) := by
  unfold enumFinish
  split <;> rfl

theorem micro_enumRead_suspend (p : Port) (n : BitVec 8) (i : BitVec 16) (l count : BitVec 8) (ok : Bool) (s : State) :
    micro p (.enumRead n i l count ok) (s.suspend .S t) =
      mapState (·.suspend .S t) (micro p (.enumRead n i l count ok) s) := by
  simp only [micro, microEnumRead, callRx_suspend]
  split
  · cases callRx l.toNat s with
    | none => rfl
    | some x =>
      obtain ⟨record, s1⟩ := x
      cases record with
      | none => exact enumFinish_suspend t count ok s1
      | some B => rfl
  · exact enumFinish_suspend t count ok s

/-- A record that does not end the loop leaves it at another count. -/
theorem micro_enumRead_more {p : Port} {n : BitVec 8} {i : BitVec 16} {l count : BitVec 8} {ok : Bool} {t1 : Task}
    {s s1 : State} (h : micro p (.enumRead n i l count ok) s = .more t1 s1) : ∃ count', t1 = .enumRead n i l count' ok := by
  simp only [micro, microEnumRead] at h
  split at h
  · split at h
    · cases h
    · exact absurd h ((enumFinish_frame ..).2 t1)
    · cases h
      exact ⟨_, rfl⟩
  · exact absurd h ((enumFinish_frame ..).2 t1)

theorem runTask_enumRead_suspend (n : BitVec 8) (i : BitVec 16) (l : BitVec 8) (ok : Bool) (m : Nat) :
    ∀ (count : BitVec 8) (s : State), s.sched = [] →
      runTask m .S (.enumRead n i l count ok) (s.suspend .S t) = runTask m .S (.enumRead n i l count ok) s := by
  induction m with
  | zero => exact fun _ _ _ => rfl
  | succ m ih =>
    intro count s hs
    have same := micro_enumRead_suspend t .S n i l count ok s
    cases e : micro .S (.enumRead n i l count ok) s with
    | wait =>
      rw [e] at same
      rw [runTask_wait e, runTask_wait same]
      rfl
    | done st r s1 =>
      rw [e] at same
      rw [runTask_done e, runTask_done same]
      rfl
    | more t1 s1 =>
      rw [e] at same
      obtain ⟨count', rfl⟩ := micro_enumRead_more e
      obtain ⟨-, -, -, sched, -⟩ := micro_frame (s1 := s1) (congrArg after e)
      have hs1 : s1.sched = [] := sched.trans hs
      rw [runTask_more e hs1, runTask_more same hs1, ih count' s1 hs1]

/-- With no switch of port ordered the count runs alike whatever was recorded as in progress. -/
theorem runOp_enumRead_suspend (n : BitVec 8) (i : BitVec 16) (l count : BitVec 8) (ok : Bool) {s : State} (hs : s.sched = []) :
    runOp .S (.enumRead n i l count ok) (s.suspend .S t) = runOp .S (.enumRead n i l count ok) s :=
  runTask_enumRead_suspend t n i l ok _ count s hs

end

/-! #### The operation goes on -/

theorem nextTurn_of_sched_nil {s : State} (hs : s.sched = []) : s.nextTurn = s := by
  rw [State.nextTurn, hs]

/-- With no switch of port ordered, the step of the port whose turn it is resumes its operation in the state as it is. -/
theorem step_resumed_uncut {s : State} {t : Task} (turn : s.turn = .S) (hs : s.sched = []) (cur : s.portS.cur = some t) :
    step s = .next (runOp .S t s) := by
  have same := nextTurn_of_sched_nil hs
  have resumed := step_resumed (s := s) (t := t) (by rw [same, turn]; exact cur)
  rwa [same, turn] at resumed

/-- An answer of `Tx` joins `tx_ok` and the operation goes on to its next frame. -/
theorem micro_txWait_answered {s : State} {a : Bool} {as : List Bool} (h : s.env.txAns = a :: as) (p : Port) (left : List Bytes)
    (ok : Bool) (k : AfterTx) :
    micro p (.txWait left ok k) s = .more (.transmit left (ok && a) k) (s.withEnv { s.env with txAns := as }) := by
  simp only [micro, microTxWait, takeTxAnswer_cons h]

section

variable {s : State} {Fs : List Bytes} {ok : Bool} {as left : List Bool} {k : AfterTx} (turn : s.turn = .S) (hs : s.sched = [])
  (count : as.length = Fs.length)
include turn hs count

/-- With an answer for each frame still to hand over, an operation gets past its last one (R44, R100). -/
theorem step_transmit_answered (cur : s.portS.cur = some (.transmit Fs ok k)) (answers : s.env.txAns = as ++ left) :
    step s = .next (runOp .S (.transmit [] (ok && as.all id) k) (sentFrames s Fs left)) := by
  rw [step_resumed_uncut turn hs cur, run_transmit k left Fs as ok s hs count answers]
  rfl

/-- The same with an answer for the frame handed over before them (R101). -/
theorem step_txWait_answered {a : Bool} (cur : s.portS.cur = some (.txWait Fs ok k)) (answers : s.env.txAns = a :: (as ++ left)) :
    step s = .next (runOp .S (.transmit [] (ok && a && as.all id) k) (sentFrames s Fs left)) := by
  have rest := run_transmit k left Fs as (ok && a) (s.withEnv { s.env with txAns := as ++ left }) hs count rfl
  rw [step_resumed_uncut turn hs cur, runOp_uncut (micro_txWait_answered answers ..) hs, rest]
  rfl

end

/-- Settles O54: past its last frame each operation has one micro-step left, `ENUMERATE` its count. -/
theorem answeredOperationsGoOn : Obligations.AnsweredOperationsGoOn := by
  intro s Fs ok a x as left k turn hs count h
  have answered : step s = .next (runOp .S (.transmit [] x k) (sentFrames s Fs left)) := by
    obtain ⟨cur, answers, rfl⟩ | ⟨cur, answers, rfl⟩ := h
    · exact step_txWait_answered turn hs count cur answers
    · exact step_transmit_answered turn hs count cur answers
  have ends {st : Status} {r : Results} {s1 : State}
      (last : micro .S (.transmit [] x k) (sentFrames s Fs left) = .done st r s1) : step s = .next (s1.answer .S st r) := by
    rw [answered, runOp_done last]
  refine ⟨?send, ?setfreq, ?assign, ?initStep, ?refuse, ?enumerate⟩
  case send => rintro rfl; exact ends rfl
  case setfreq => rintro r rfl; exact ends rfl
  case assign =>
    rintro n rfl
    rw [ends rfl]
    show Host.Outcome.next ((if s.eng.initState = .identityVerified then _ else _ : State).answer _ _ _) = _
    split <;> rfl
  case initStep => rintro y rfl; exact ends rfl
  case refuse => rintro rfl; exact ends rfl
  case enumerate =>
    rintro n i l rfl
    have counts : runOp .S (.transmit [] x (.enumerate n i l)) (sentFrames s Fs left) =
        runOp .S (.enumRead n i l 0 x) (sentFrames s Fs left) := runOp_uncut rfl hs
    have resumed := step_resumed_uncut (s := (sentFrames s Fs left).suspend .S (.enumRead n i l 0 x)) turn hs rfl
    rw [answered, counts, resumed, runOp_enumRead_suspend _ _ _ _ _ _ (s := sentFrames s Fs left) hs]

end Sys2Proof.Laws

end

/-! ### The addresses of the chips and the frames that set them (O24, O23) -/

section

namespace Sys2Proof.Laws

open Machine Reference

theorem chipSpacing_pos {n : Nat} (hn : 1 ≤ n) (hn' : n ≤ 255) : 0 < 256 / n := Nat.div_pos (by omega) hn

/-- R115, R117 (iii): no address of at most 255 chips wraps. -/
theorem chipAddress_toNat {i n : Nat} (hi : i < n) (hn : n ≤ 255) : (chipAddress i n).toNat = i * (256 / n) := by
  have fits : i * (256 / n) < 256 :=
    calc i * (256 / n) < n * (256 / n) := Nat.mul_lt_mul_of_pos_right hi (chipSpacing_pos (by omega) hn)
      _ ≤ 256 := Nat.mul_div_le 256 n
  rw [chipAddress, BitVec.toNat_ofNat, Nat.mod_eq_of_lt fits]

/-- Settles O24: multiples of a positive spacing that do not wrap. -/
theorem chipAddressesAscend : Obligations.ChipAddressesAscend := by
  intro n hn hn'
  refine ⟨fun i k hik hk => ?ascend, fun i hi => chipAddress_toNat hi hn', ?first⟩
  case ascend =>
    rw [chipAddress_toNat (hik.trans hk) hn', chipAddress_toNat hk hn']
    exact Nat.mul_lt_mul_of_pos_right hik (chipSpacing_pos hn hn')
  case first => rw [chipAddress, Nat.zero_mul]; rfl

/-- R116, R184: the states before enumeration and after its failure. -/
theorem refusesAssign_iff {x : InitState} :
    refusesAssign x = true ↔ x = .poweredOn ∨ x = .versionMaskSet ∨ x = .failed := by
  cases x <;> decide

theorem refusesAssign_eq_false_iff {x : InitState} :
    refusesAssign x = false ↔ x ≠ .poweredOn ∧ x ≠ .versionMaskSet ∧ x ≠ .failed := by
  rw [← Bool.not_eq_true, refusesAssign_iff, not_or, not_or]

theorem exec_assign_refused {s : State} (h : refusesAssign s.eng.initState = true) :
    exec (.assign .S) s = .next (s.answer .S .refusedSequence (.initState s.eng.initState)) := by
  show Host.Outcome.next (onPort .S .S s (runAssign .S s)) = _
  rw [onPort_same, runAssign, if_pos h]

theorem exec_assign_accepted {s : State} (h : refusesAssign s.eng.initState = false) :
    exec (.assign .S) s =
      .next (runFrames .S (assignFrames s.params s.eng.chipCount.toNat) (.assign s.eng.chipCount) s) := by
  show Host.Outcome.next (onPort .S .S s (runAssign .S s)) = _
  rw [onPort_same, runAssign, if_neg (ne_true_of_eq_false h)]

/-- The end of `ASSIGN`: `INIT_STATE` moves from `IdentityVerified` only (R116). -/
theorem runOp_assign_ends (n : BitVec 8) (x : Bool) (s : State) :
    runOp .S (.transmit [] x (.assign n)) s =
      ({ s with eng := { s.eng with
          initState := if s.eng.initState = .identityVerified then .chipsAddressed else s.eng.initState } } : State).answer
        .S .ok (.assigned n x) := by
  rw [runOp_done rfl]
  split <;> rfl

/-- With at least one chip the first frame is that of chip 0. -/
theorem assignFrames_of_ne_zero (c : Params) {n : Nat} (hn : n ≠ 0) :
    ∃ rest, assignFrames c n = setaddrSpec c (chipAddress 0 n) :: rest := by
  obtain ⟨m, rfl⟩ := Nat.exists_eq_succ_of_ne_zero hn
  exact ⟨_, by rw [assignFrames, List.range_succ_eq_map, List.map_cons]⟩

/-- Settles O23: the frames of `ASSIGN` go out as those of any operation do. -/
theorem assignSendsOneFramePerChip : Obligations.AssignSendsOneFramePerChip := by
  refine ⟨?sends, ?notEncoded, fun s h => exec_assign_refused (refusesAssign_iff.2 h), fun x => ?default⟩
  case sends =>
    intro s fs as left hs notOn notMask notFailed built count answers
    have accepted := refusesAssign_eq_false_iff.2 ⟨notOn, notMask, notFailed⟩
    have frames : (assignFrames s.params s.eng.chipCount.toNat).map (fun x => encodeFrame s.params x.header x.payload) =
        fs.map some := by
      rw [← built, assignFrames, List.map_map]
      rfl
    rw [exec_assign_accepted accepted, runFrames_all frames, run_transmit _ left fs as true s hs count answers,
      runOp_assign_ends]
    rfl
  case notEncoded =>
    intro s notOn notMask notFailed chips refused
    have accepted := refusesAssign_eq_false_iff.2 ⟨notOn, notMask, notFailed⟩
    obtain ⟨rest, frames⟩ := assignFrames_of_ne_zero s.params (n := s.eng.chipCount.toNat)
      fun h => chips (BitVec.eq_of_toNat_eq h)
    rw [exec_assign_accepted accepted, frames, ← List.nil_append (_ :: rest),
      runFrames_refused (fs := []) rfl (refused _), runOp_done rfl]
  case default => rw [encodeFrame_default]; rfl

end Sys2Proof.Laws

end

/-! ### The loop of `ENUMERATE` (O55, O60, O22, O58) -/

section

namespace Sys2Proof.Laws

open Machine Reference

/-! #### A call of `Rx` that is not answered -/

/-- U3: no answer, and one of another length than asked for, are no answer to the call (log 5, log 6). -/
theorem callRx_unanswered {n : Nat} {s : State} (h : noRxAnswer n s.env.rxAns) : callRx n s = none := by
  obtain silent | ⟨B, rs, other, length⟩ := h
  · rw [callRx, silent]
  · have noRecord : bytesOfLength n B = none := dif_neg length
    simp only [callRx, other, noRecord, Option.map_none]

/-- A turn in which the operation in progress cannot take its micro-step leaves it where it is. -/
theorem step_waits {p : Port} {s : State} {t : Task} (turn : s.nextTurn.turn = p) (cur : (s.port p).cur = some t)
    (waits : micro p t s.nextTurn = .wait) : step s = .next s.nextTurn := by
  subst turn
  rw [step_resumed cur, runOp_wait waits, suspend_of_cur (by rw [State.nextTurn_port]; exact cur)]

/-! #### The records of one count -/

theorem matchesId_iff {c : Params} {i : BitVec 16} {k : Nat} {B : Vector Byte k} :
    matchesId c i B = true ↔ chipIdOf c B.toList = i := by
  rw [matchesId, decide_eq_true_iff, ← BitVec.toNat_inj, chipIdOf, be16, toNat_beWord16]
  rfl

section

variable {c : Params} {i : BitVec 16} {n count k : Nat} {bs : List (Vector Byte k)} {B : Vector Byte k}

theorem readWhileShort_nil : readWhileShort c i n count ([] : List (Vector Byte k)) := by
  intro l B l' h
  simp at h

/-- A count that is short after the last record was short before each. -/
theorem readWhileShort_of_lt (h : count + bs.countP (matchesId c i) < n) : readWhileShort c i n count bs := by
  rintro l B l' rfl
  rw [List.countP_append] at h
  omega

/-- The count after a record and others is the count after those from where the record left it. -/
theorem counted_cons : count + (B :: bs).countP (matchesId c i) =
    count + [B].countP (matchesId c i) + bs.countP (matchesId c i) := by
  rw [← List.singleton_append, List.countP_append, Nat.add_assoc]

theorem readWhileShort_cons :
    readWhileShort c i n count (B :: bs) ↔ count < n ∧ readWhileShort c i n (count + [B].countP (matchesId c i)) bs := by
  constructor
  · refine fun h => ⟨h [] B bs rfl, fun l B' l' e => ?_⟩
    exact counted_cons (bs := l) ▸ h (B :: l) B' l' (congrArg (B :: ·) e)
  · rintro ⟨short, rest⟩ l B' l' e
    cases l with
    | nil => exact short
    | cons A l =>
      obtain ⟨rfl, tail⟩ := List.cons_eq_cons.1 e
      exact counted_cons (bs := l) ▸ rest l B' l' tail

/-- A record after others is read if the count is short before it. -/
theorem readWhileShort_concat (h : count + bs.countP (matchesId c i) < n) : readWhileShort c i n count (bs ++ [B]) := by
  intro l B' l' e
  have before : l <+: bs := by
    have length := congrArg List.length e
    simp only [List.length_append, List.length_cons, List.length_nil] at length
    exact List.prefix_of_prefix_length_le (e ▸ List.prefix_append l (B' :: l')) (List.prefix_append bs [B]) (by omega)
  have fewer := before.sublist.countP_le (p := matchesId c i)
  omega

/-- Records of which the last one counts, if any, are read up to a count that they do not exceed. -/
theorem readWhileShort_of_last (last : ∀ l B, bs = l ++ [B] → matchesId c i B = true)
    (h : count + bs.countP (matchesId c i) ≤ n) : readWhileShort c i n count bs := by
  obtain rfl | ⟨l, B, rfl⟩ := bs.eq_nil_or_concat'
  · exact readWhileShort_nil
  · rw [List.countP_append, List.countP_singleton, if_pos (last l B rfl)] at h
    exact readWhileShort_concat (by omega)

/-- The last record read brings the count to `exp_count` at most, so it does not wrap (R118). -/
theorem counted_fits {n : BitVec 8} (fits : count < 256) (h : readWhileShort c i n.toNat count bs) :
    count + bs.countP (matchesId c i) < 256 := by
  obtain rfl | ⟨l, B, rfl⟩ := bs.eq_nil_or_concat'
  · exact fits
  · have short := h l B [] rfl
    have last : [B].countP (matchesId c i) ≤ 1 := List.countP_le_length
    rw [List.countP_append]
    omega

end

/-! #### One micro-step of the loop (R111) -/

/-- The loop of `ENUMERATE` at a count given as a number. -/
abbrev countingAt (n : BitVec 8) (i : BitVec 16) (l : BitVec 8) (ok : Bool) (count : Nat) : Task :=
  .enumRead n i l (BitVec.ofNat 8 count) ok

theorem enumRead_eq_countingAt (n : BitVec 8) (i : BitVec 16) (l count : BitVec 8) (ok : Bool) :
    Task.enumRead n i l count ok = countingAt n i l ok count.toNat := by
  rw [countingAt, BitVec.ofNat_toNat, BitVec.setWidth_eq]

section

variable {p : Port} {n : BitVec 8} {i : BitVec 16} {l : BitVec 8} {count : Nat} {ok : Bool} {s : State} {rest : List RxAnswer}

theorem ofNat_lt_iff (fits : count < 256) : BitVec.ofNat 8 count < n ↔ count < n.toNat := by
  rw [BitVec.lt_def, BitVec.toNat_ofNat, Nat.mod_eq_of_lt fits]

theorem ofNat_lt_of_short (short : count < n.toNat) : BitVec.ofNat 8 count < n :=
  (ofNat_lt_iff (by omega)).2 short

theorem micro_enumRead_reached (fits : count < 256) (reached : n.toNat ≤ count) :
    micro p (countingAt n i l ok count) s = enumFinish (BitVec.ofNat 8 count) ok s :=
  if_neg (mt (ofNat_lt_iff fits).1 (Nat.not_lt.2 reached))

theorem micro_enumRead_failure (short : count < n.toNat) (rx : s.env.rxAns = .failure :: rest) :
    micro p (countingAt n i l ok count) s =
      enumFinish (BitVec.ofNat 8 count) ok (s.withEnv { s.env with rxAns := rest }) := by
  rw [countingAt, micro, microEnumRead, if_pos (ofNat_lt_of_short short), callRx_failure rx]

theorem micro_enumRead_unanswered (short : count < n.toNat) (rx : noRxAnswer l.toNat s.env.rxAns) :
    micro p (countingAt n i l ok count) s = .wait := by
  rw [countingAt, micro, microEnumRead, if_pos (ofNat_lt_of_short short), callRx_unanswered rx]

/-- R113: a record counts if it matches. -/
theorem micro_enumRead_record (short : count < n.toNat) {B : Vector Byte l.toNat} (rx : s.env.rxAns = .bytes B.toList :: rest) :
    micro p (countingAt n i l ok count) s =
      .more (countingAt n i l ok (count + [B].countP (matchesId s.params i)))
        (s.withEnv { s.env with rxAns := rest }) := by
  rw [countingAt, micro, microEnumRead, if_pos (ofNat_lt_of_short short), callRx_bytes rx, List.countP_singleton]
  simp only [← matchesId_iff]
  cases matchesId s.params i B <;> simp [BitVec.ofNat_add]

/-! #### The turn -/

/-- The writes that end `ENUMERATE` are R111's. -/
theorem runOp_enumFinish {t : Task} {s1 : State} (fits : count < 256)
    (h : micro .S t s = enumFinish (BitVec.ofNat 8 count) ok s1) : runOp .S t s = enumerateEnded s1 count ok := by
  have zero : BitVec.ofNat 8 count = 0 ↔ count = 0 := by
    rw [← BitVec.toNat_inj, BitVec.toNat_ofNat, Nat.mod_eq_of_lt fits]
    rfl
  by_cases empty : count = 0
  · subst empty
    rw [runOp_done h]
    rfl
  · rw [enumFinish, if_neg (mt zero.1 empty)] at h
    rw [runOp_done h, enumerateEnded, enumerated, if_neg empty, if_neg empty, if_neg empty]
    rfl

/-- R111: the count ends at a failure while it is short, and where it is reached. -/
theorem runOp_enumRead_ends {left : List RxAnswer} (fits : count < 256)
    (h : (s.env.rxAns = .failure :: left ∧ count < n.toNat) ∨ (s.env.rxAns = left ∧ n.toNat ≤ count)) :
    runOp .S (countingAt n i l ok count) s =
      enumerateEnded { s with env := { s.env with rxAns := left } } count ok := by
  obtain ⟨failure, short⟩ | ⟨rfl, reached⟩ := h
  · exact runOp_enumFinish fits (micro_enumRead_failure short failure)
  · exact runOp_enumFinish fits (micro_enumRead_reached fits reached)

/-- R114: while the count is short the loop waits for its next answer. -/
theorem runOp_enumRead_waits (short : count < n.toNat) (rx : noRxAnswer l.toNat s.env.rxAns) :
    runOp .S (countingAt n i l ok count) s = s.suspend .S (countingAt n i l ok count) :=
  runOp_wait (micro_enumRead_unanswered short rx)

/-- R42: the schedule gives the micro-step after a record to the other port. -/
theorem runOp_enumRead_cut (short : count < n.toNat) {B : Vector Byte l.toNat} {q : List Port}
    (rx : s.env.rxAns = .bytes B.toList :: rest) (hs : s.sched = .R :: q) :
    runOp .S (countingAt n i l ok count) s =
      (s.withEnv { s.env with rxAns := rest }).suspend .S
        (countingAt n i l ok (count + [B].countP (matchesId s.params i))) := by
  refine runOp_cut (micro_enumRead_record short rx) ?_
  rw [State.goesOn, State.withEnv_sched, hs]
  rfl

/-- An operation whose port the schedule names next, or that finds no schedule, goes on and uses that entry. -/
theorem goesOn_of_take {s : State} (h : ∀ q ∈ s.sched.take 1, q = p) :
    s.goesOn p = some { s with sched := s.sched.drop 1 } := by
  cases hs : s.sched with
  | nil => rw [State.goesOn_nil p hs, List.drop_nil, ← hs]
  | cons q qs =>
    have own : q = p := h q (by rw [hs]; exact List.mem_singleton.2 rfl)
    rw [State.goesOn, hs]
    exact if_pos own

theorem forall_mem_take_succ {sched : List Port} {m : Nat} : (∀ q ∈ sched.take (m + 1), q = p) ↔
    (∀ q ∈ sched.take 1, q = p) ∧ ∀ q ∈ (sched.drop 1).take m, q = p := by
  rw [Nat.add_comm, List.take_add, List.forall_mem_append]

/-- Records read while the count is short, the schedule giving port `S` the micro-step after each. -/
theorem runOp_enumRead_records (bs : List (Vector Byte l.toNat)) :
    ∀ (count : Nat) (s : State), s.env.rxAns = bs.map (fun B => .bytes B.toList) ++ rest →
      readWhileShort s.params i n.toNat count bs → (∀ q ∈ s.sched.take bs.length, q = .S) →
      runOp .S (countingAt n i l ok count) s =
        runOp .S (countingAt n i l ok (count + bs.countP (matchesId s.params i)))
          { s with env := { s.env with rxAns := rest }, sched := s.sched.drop bs.length } := by
  induction bs with
  | nil => rintro count s rfl - -; rfl
  | cons B bs ih =>
    intro count s rx read turns
    obtain ⟨short, read⟩ := readWhileShort_cons.1 read
    obtain ⟨first, others⟩ := forall_mem_take_succ.1 turns
    have tail := ih _ { s with env := { s.env with rxAns := bs.map (fun B => .bytes B.toList) ++ rest }, sched := s.sched.drop 1 }
      rfl read others
    rw [counted_cons, List.length_cons, Nat.add_comm bs.length, ← List.drop_drop]
    exact (runOp_more (micro_enumRead_record short rx) (goesOn_of_take first)).trans tail

/-- The same with no switch of port ordered. -/
theorem runOp_enumRead_records_uncut {bs : List (Vector Byte l.toNat)} (hs : s.sched = [])
    (rx : s.env.rxAns = bs.map (fun B => .bytes B.toList) ++ rest) (read : readWhileShort s.params i n.toNat count bs) :
    runOp .S (countingAt n i l ok count) s =
      runOp .S (countingAt n i l ok (count + bs.countP (matchesId s.params i)))
        { s with env := { s.env with rxAns := rest } } := by
  have records := runOp_enumRead_records (ok := ok) bs count s rx read (by rw [hs, List.take_nil]; nofun)
  rwa [hs, List.drop_nil, ← hs] at records

/-- R111: the count of the records is what `ENUMERATE` ends with. -/
theorem runOp_enumRead_counts {bs : List (Vector Byte l.toNat)} {left : List RxAnswer} (fits : count < 256) (hs : s.sched = [])
    (rx : s.env.rxAns = bs.map (fun B => .bytes B.toList) ++ rest) (read : readWhileShort s.params i n.toNat count bs)
    (h : (rest = .failure :: left ∧ count + bs.countP (matchesId s.params i) < n.toNat) ∨
      (rest = left ∧ n.toNat ≤ count + bs.countP (matchesId s.params i))) :
    runOp .S (countingAt n i l ok count) s =
      enumerateEnded { s with env := { s.env with rxAns := left } } (count + bs.countP (matchesId s.params i)) ok :=
  (runOp_enumRead_records_uncut hs rx read).trans (runOp_enumRead_ends (counted_fits fits read) h)

end

/-! #### How far a turn gets -/

/-- Why a turn of the loop reads no further, its count, the answers and the schedule being what they are: it waits (R114), it ends
(R111), or the next record is the last before a turn of port `R` (R42). -/
inductive CountStops (k n count : Nat) (rest : List RxAnswer) (sched : List Port) : Prop
  | waits (short : count < n) (unanswered : noRxAnswer k rest)
  | ends (left : List RxAnswer) (h : (rest = .failure :: left ∧ count < n) ∨ (rest = left ∧ n ≤ count))
  | cut (B : Vector Byte k) (left : List RxAnswer) (q : List Port) (short : count < n) (record : rest = .bytes B.toList :: left)
      (turn : sched = .R :: q)

/-- A turn that finds the answers `rx` reads some records, each while the count is short and the schedule gives port `S` the
micro-step after it, and then has a reason to stop. -/
def TurnReads (c : Params) (i : BitVec 16) (k n count : Nat) (rx : List RxAnswer) (sched : List Port) : Prop :=
  ∃ (bs : List (Vector Byte k)) (rest : List RxAnswer), rx = bs.map (fun B => .bytes B.toList) ++ rest ∧
    readWhileShort c i n count bs ∧ (∀ q ∈ sched.take bs.length, q = .S) ∧
    CountStops k n (count + bs.countP (matchesId c i)) rest (sched.drop bs.length)

section

variable {c : Params} {i : BitVec 16} {k n count : Nat} {rx : List RxAnswer} {sched : List Port}

theorem CountStops.turnReads (h : CountStops k n count rx sched) : TurnReads c i k n count rx sched :=
  ⟨[], rx, rfl, readWhileShort_nil, nofun, h⟩

theorem TurnReads.record {B : Vector Byte k} (short : count < n) (first : ∀ q ∈ sched.take 1, q = .S)
    (h : TurnReads c i k n (count + [B].countP (matchesId c i)) rx (sched.drop 1)) :
    TurnReads c i k n count (.bytes B.toList :: rx) sched := by
  obtain ⟨bs, rest, rfl, read, others, stops⟩ := h
  refine ⟨B :: bs, rest, rfl, readWhileShort_cons.2 ⟨short, read⟩, forall_mem_take_succ.2 ⟨first, others⟩, ?_⟩
  rwa [counted_cons, List.length_cons, Nat.add_comm bs.length, ← List.drop_drop]

/-- So it is with every list of answers and every schedule. -/
theorem turnReads (c : Params) (i : BitVec 16) (k n : Nat) (rx : List RxAnswer) :
    ∀ (sched : List Port) (count : Nat), TurnReads c i k n count rx sched := by
  induction rx with
  | nil =>
    intro sched count
    obtain short | reached := Nat.lt_or_ge count n
    · exact (CountStops.waits short (.inl rfl)).turnReads
    · exact (CountStops.ends _ (.inr ⟨rfl, reached⟩)).turnReads
  | cons x rx ih =>
    intro sched count
    obtain short | reached := Nat.lt_or_ge count n
    case inr => exact (CountStops.ends _ (.inr ⟨rfl, reached⟩)).turnReads
    cases x with
    | failure => exact (CountStops.ends rx (.inl ⟨rfl, short⟩)).turnReads
    | bytes A =>
      by_cases length : A.length = k
      case neg => exact (CountStops.waits short (.inr ⟨A, rx, rfl, length⟩)).turnReads
      obtain ⟨B, rfl⟩ : ∃ B : Vector Byte k, A = B.toList := ⟨⟨A.toArray, length⟩, rfl⟩
      match sched with
      | [] => exact .record short nofun (ih _ _)
      | .S :: q => exact .record short (by simp) (ih _ _)
      | .R :: q => exact (CountStops.cut B rx q short rfl rfl).turnReads

end

/-! #### The obligations -/

/-- Settles O55: a call of `Rx` that is not answered is no micro-step. -/
theorem operationsWaitForRx : Obligations.OperationsWaitForRx := by
  refine fun s => ⟨fun n i l count ok turn cur short rx => ?enumerate, fun turn cur rx => ?result⟩
  case enumerate =>
    refine step_waits (p := .S) turn cur ?_
    rw [enumRead_eq_countingAt]
    exact micro_enumRead_unanswered short (by rw [State.nextTurn_env]; exact rx)
  case result =>
    have unanswered : callRx Config.respLen s.nextTurn = none := callRx_unanswered (by rw [State.nextTurn_env]; exact rx)
    refine step_waits (p := .R) turn cur ?_
    simp only [micro, microResultRead, unanswered]

/-- Settles O60: the records read leave the count where a micro-step ends it or waits. -/
theorem rxOperationsGoOn : Obligations.RxOperationsGoOn := by
  refine ⟨?enumerate, ?result⟩
  case enumerate =>
    rintro s n i l count ok bs rest _ turn hs cur rx read rfl
    have resumed := step_resumed_uncut turn hs cur
    rw [enumRead_eq_countingAt] at resumed
    refine ⟨fun left h => ?ends, fun unanswered short => ?waits⟩
    case ends => rw [resumed, runOp_enumRead_counts count.isLt hs rx read h]
    case waits => rw [resumed, runOp_enumRead_records_uncut hs rx read, runOp_enumRead_waits short unanswered]
  case result =>
    intro s rs turn hs hl cur
    have resumed : step s = .next (runOp .R .resultRead s) := by
      have same := nextTurn_of_sched_nil hs
      rw [step_resumed (t := .resultRead) (by rw [same, turn]; exact cur), same, turn]
    refine ⟨fun B rx => ?record, fun rx => ?failure⟩
    case record =>
      have parses : micro .R .resultRead s = .more (.parse1 B) (s.withEnv { s.env with rxAns := rs }) := by
        simp only [micro, microResultRead, callRx_bytes rx]
      have parsed := runOp_parse B (s := s.withEnv { s.env with rxAns := rs }) hs hl
      rw [resumed, runOp_uncut parses hs, parsed]
      rfl
    case failure =>
      have ends : micro .R .resultRead s = .done .noResult .empty (s.withEnv { s.env with rxAns := rs }) := by
        simp only [micro, microResultRead, callRx_failure rx]
      rw [resumed, runOp_done ends]
      rfl

/-- A turn changes whose turn it is and the schedule, and nothing else. -/
theorem nextTurn_eq (s : State) : s.nextTurn = { s with turn := s.nextTurn.turn, sched := s.nextTurn.sched } := by
  unfold State.nextTurn
  split <;> rfl

/-- A schedule that orders port `S` for as many micro-steps as there are records, and then port `R`. -/
theorem eq_replicate_append_of_drop {sched q : List Port} {m : Nat} (turns : ∀ p ∈ sched.take m, p = .S)
    (next : sched.drop m = .R :: q) : sched = List.replicate m .S ++ .R :: q := by
  have length := congrArg List.length next
  rw [List.length_drop, List.length_cons] at length
  have taken : sched.take m = List.replicate m .S :=
    List.eq_replicate_iff.2 ⟨List.length_take_of_le (by omega), turns⟩
  rw [← taken, ← next, List.take_append_drop]

/-- Settles O58: the turn reads its records, and then does what its reason to stop says. -/
theorem enumerateTurnCountsUnderEverySchedule : Obligations.EnumerateTurnCountsUnderEverySchedule := by
  intro s t n i l count ok turn cur hstep
  rw [step_resumed (by rw [turn]; exact cur), turn, enumRead_eq_countingAt, nextTurn_eq, turn] at hstep
  generalize s.nextTurn.sched = sched at hstep ⊢
  obtain ⟨bs, rest, rx, read, turns, stops⟩ := turnReads s.params i l.toNat n.toNat s.env.rxAns sched count.toNat
  rw [runOp_enumRead_records bs count.toNat { s with turn := .S, sched := sched } rx read turns] at hstep
  cases stops with
  | waits short unanswered =>
    rw [runOp_enumRead_waits short unanswered] at hstep
    cases hstep
    exact ⟨bs, rest, _, rx, read, rfl, .inl ⟨turns, .inl ⟨short, unanswered, rfl⟩⟩⟩
  | ends left h =>
    rw [runOp_enumRead_ends (counted_fits count.isLt read) h] at hstep
    cases hstep
    exact ⟨bs, rest, _, rx, read, rfl, .inl ⟨turns, .inr ⟨left, h, rfl⟩⟩⟩
  | cut B left q short record other =>
    rw [runOp_enumRead_cut short record other] at hstep
    cases hstep
    refine ⟨bs ++ [B], left, _, ?_, readWhileShort_concat short, rfl,
      .inr ⟨bs.length, q, List.length_append, eq_replicate_append_of_drop turns other, ?_⟩⟩
    · rw [rx, record, List.map_append, List.append_assoc]
      rfl
    · rw [List.countP_append, ← Nat.add_assoc]
      simp only [other]
      rfl

/-! #### `ENUMERATE` from its start (R111) -/

theorem exec_enumerate_refused (n : BitVec 8) (x : BitVec 16) (l : BitVec 8) {s : State}
    (h : s.eng.initState ≠ .versionMaskSet) :
    exec (.enumerate .S n x l) s = .next (s.answer .S .refusedSequence (.initState s.eng.initState)) := by
  show Host.Outcome.next (onPort .S .S s (runEnumerate .S n x l s)) = _
  rw [onPort_same, runEnumerate, if_pos h]

section

variable {n : BitVec 8} {x : BitVec 16} {l : BitVec 8} {s : State} (hi : s.eng.initState = .versionMaskSet)
  (long : s.params.idOffset + 2 ≤ l.toNat)
include hi long

theorem exec_enumerate_accepted :
    exec (.enumerate .S n x l) s = .next (runFrames .S [readidSpec s.params] (.enumerate n x l) s) := by
  show Host.Outcome.next (onPort .S .S s (runEnumerate .S n x l s)) = _
  rw [onPort_same, runEnumerate, if_neg (not_not_intro hi), minExpLen, if_neg (Nat.not_lt.2 long)]

theorem exec_enumerate_notEncoded (refused : encodeFrame s.params s.params.hdrReadid s.params.readidPayload = none) :
    exec (.enumerate .S n x l) s = .next (s.answer .S .refusedOperand .empty) := by
  rw [exec_enumerate_accepted hi long, ← List.nil_append [_], runFrames_refused (fs := []) rfl refused, runOp_done rfl]

/-- The identification read goes out, and the count begins at 0. -/
theorem exec_enumerate_uncut {F : Bytes} {a : Bool} {as : List Bool} (hs : s.sched = [])
    (built : encodeFrame s.params s.params.hdrReadid s.params.readidPayload = some F) (answers : s.env.txAns = a :: as) :
    exec (.enumerate .S n x l) s = .next (runOp .S (countingAt n x l a 0) (sentFrames s [F] as)) := by
  have frames : [readidSpec s.params].map (fun x => encodeFrame s.params x.header x.payload) = [F].map some :=
    congrArg (· :: []) built
  have answer : (true && [a].all id) = a := by simp
  rw [exec_enumerate_accepted hi long, runFrames_all frames, run_transmit _ as [F] [a] true s hs rfl answers, answer]
  exact congrArg Host.Outcome.next (runOp_uncut rfl hs)

end

/-- Settles O22: after the frame the count runs from 0. -/
theorem enumerateCountsMatchingResponses : Obligations.EnumerateCountsMatchingResponses := by
  refine ⟨fun n x l s => ⟨exec_enumerate_refused n x l, exec_enumerate_short, fun hi refused => ?notEncoded⟩, ?counts,
    encodeFrame_readid_default, rfl⟩
  case notEncoded =>
    obtain short | long := Nat.lt_or_ge l.toNat (s.params.idOffset + 2)
    · exact exec_enumerate_short hi short
    · exact exec_enumerate_notEncoded hi long refused
  case counts =>
    intro n x l s F a as bs rs left hs hi long built answers rx h
    have read : readWhileShort s.params x n.toNat 0 bs := by
      obtain ⟨short, -⟩ | ⟨reached, -, last⟩ := h
      · exact readWhileShort_of_lt (by omega)
      · exact readWhileShort_of_last last (by omega)
    have ends : (rs = .failure :: left ∧ 0 + bs.countP (matchesId s.params x) < n.toNat) ∨
        (rs = left ∧ n.toNat ≤ 0 + bs.countP (matchesId s.params x)) := by
      rw [Nat.zero_add]
      exact h.imp And.symm fun ⟨reached, rest, _⟩ => ⟨rest, reached.ge⟩
    have counted := runOp_enumRead_counts (s := sentFrames s [F] as) (ok := a) (by decide) hs rx read ends
    rw [exec_enumerate_uncut hi long hs built answers, counted, Nat.zero_add]
    rfl

end Sys2Proof.Laws

end

/-! ### The divider search and the frame that carries its result (O25, O26, O27) -/

section

namespace Sys2Proof.Laws

open Machine Reference

/-! #### The integer form is the rational form (R132) -/

theorem pllOne_pos (c : Params) : 0 < pllOne c := Nat.two_pow_pos c.pllFrac

/-- R132: with exact rationals the feedback divider is the quotient rounded, a tie going up (R134). -/
theorem feedback_eq_roundedFeedback (c : Params) (t : BitVec 32) (m : Nat) :
    feedback c t.toNat m = roundedFeedback c t m := by
  have quotient : (m : ℚ) * target c t / 25 + 1 / 2 =
      ((2 * m * t.toNat + 25 * pllOne c : Nat) : ℚ) / ((2 * (25 * pllOne c) : Nat) : ℚ) := by
    simp only [target, pllOne]
    push_cast
    field_simp
  rw [roundedFeedback, quotient, Nat.floor_div_eq_div]
  rfl

/-- R132: `d = N / (2^PLL_FRAC * m)`. -/
theorem difference_eq_diffNum_div (c : Params) (t : BitVec 32) {m : Nat} (hm : 0 < m) :
    difference c t m = diffNum c t.toNat m (feedback c t.toNat m) / ((pllOne c : ℚ) * m) := by
  have one : (0 : ℚ) < pllOne c := by exact_mod_cast pllOne_pos c
  have units : target c t = t.toNat / (pllOne c : ℚ) := by rw [target, pllOne]; push_cast; rfl
  have m_pos : (0 : ℚ) < m := by exact_mod_cast hm
  have quotient : target c t - achieved (roundedFeedback c t m) m =
      ((t.toNat * m : Int) - (25 * pllOne c * roundedFeedback c t m : Nat) : Int) / ((pllOne c : ℚ) * m) := by
    rw [units, achieved]
    push_cast
    field_simp
  rw [difference, quotient, abs_div, abs_of_pos (mul_pos one m_pos), feedback_eq_roundedFeedback, diffNum, Nat.cast_natAbs,
    Int.cast_abs]
  rfl

/-! #### The combinations and their order (R132, R135) -/

/-- The combination passes R135's two tests. -/
def Accepts (c : Params) (t : BitVec 32) (x : Dividers) : Prop := acceptable c t x.refdiv x.post1 x.post2

/-- The first combination does not come after the second in the iteration order. -/
def InOrder (x y : Dividers) : Prop := notAfter x.refdiv x.post1 x.post2 y.refdiv y.post1 y.post2

theorem InOrder.refl (x : Dividers) : InOrder x x := .inr ⟨rfl, .inr ⟨rfl, le_rfl⟩⟩

theorem InOrder.antisymm {x y : Dividers} (h : InOrder x y) (h' : InOrder y x) : x = y := by
  obtain ⟨r, a, b⟩ := x
  obtain ⟨r', a', b'⟩ := y
  simp only [InOrder, notAfter, Dividers.mk.injEq] at *
  omega

theorem mem_combinations_iff {x : Dividers} : x ∈ combinations ↔ legalDividers x.refdiv x.post1 x.post2 := by
  obtain ⟨r, a, b⟩ := x
  simp only [combinations, legalDividers, List.mem_flatMap, List.mem_map, List.mem_filter, List.mem_cons, List.not_mem_nil,
    or_false, decide_eq_true_eq, Dividers.mk.injEq]
  constructor
  · rintro ⟨r, hr, a, ha, b, ⟨hb, hba⟩, rfl, rfl, rfl⟩
    omega
  · rintro ⟨hr, hb, hba, ha⟩
    exact ⟨r, hr.symm, a, by omega, b, ⟨by omega, hba⟩, rfl, rfl, rfl⟩

/-- R141: `m` is from 1 to 98. -/
theorem m_bounds_of_legal {x : Dividers} (legal : legalDividers x.refdiv x.post1 x.post2) : 1 ≤ x.m ∧ x.m ≤ 98 := by
  obtain ⟨hr, hb, hba, ha⟩ := legal
  refine ⟨Nat.mul_pos (Nat.mul_pos (by omega) (by omega)) hb, ?_⟩
  calc x.refdiv * x.post1 * x.post2 ≤ 2 * 7 * 7 :=
    Nat.mul_le_mul (Nat.mul_le_mul (by omega) ha) (hba.trans ha)

theorem m_pos_of_mem {x : Dividers} (hx : x ∈ combinations) : 0 < x.m := (m_bounds_of_legal (mem_combinations_iff.1 hx)).1

/-- The list is in R135's iteration order. -/
theorem combinations_inOrder : combinations.Pairwise InOrder := by
  unfold InOrder notAfter
  decide

/-! #### One turn of the search (R132, R135) -/

/-- What the search keeps of a combination it accepts. -/
def candidateAt (c : Params) (t : BitVec 32) (x : Dividers) : Candidate :=
  { div := x, fb := roundedFeedback c t x.m, num := diffNum c t.toNat x.m (feedback c t.toNat x.m) }

section

variable {c : Params} {t : BitVec 32} {x y : Dividers}

/-- The strict ceiling in integers is the strict ceiling of R135. -/
theorem difference_lt_one_iff (hm : 0 < x.m) :
    difference c t x.m < 1 ↔ diffNum c t.toNat x.m (feedback c t.toNat x.m) < Config.ceiling * pllOne c * x.m := by
  have pos : (0 : ℚ) < (pllOne c : ℚ) * x.m := by exact_mod_cast Nat.mul_pos (pllOne_pos c) hm
  rw [difference_eq_diffNum_div c t hm, div_lt_one pos, Config.ceiling, Nat.one_mul]
  exact_mod_cast Iff.rfl

theorem candidateOf_accepted (h : Accepts c t x) : candidateOf c t.toNat x = some (candidateAt c t x) := by
  obtain ⟨legal, low, high, close⟩ := h
  have below := (difference_lt_one_iff (m_bounds_of_legal legal).1).1 close
  have fb := feedback_eq_roundedFeedback c t x.m
  simp only [candidateOf]
  rw [if_pos ⟨fb ▸ low, fb ▸ high, below⟩, candidateAt, ← fb]

theorem candidateOf_rejected (hx : x ∈ combinations) (h : ¬ Accepts c t x) : candidateOf c t.toNat x = none := by
  have fb := feedback_eq_roundedFeedback c t x.m
  refine if_neg fun ⟨low, high, below⟩ => h ⟨mem_combinations_iff.1 hx, fb ▸ low, fb ▸ high, ?_⟩
  exact (difference_lt_one_iff (m_pos_of_mem hx)).2 below

/-- `N * best.m < best.N * m` compares the differences. -/
theorem closer_candidateAt (hx : 0 < x.m) (hy : 0 < y.m) :
    closer (candidateAt c t x) (candidateAt c t y) = true ↔ difference c t x.m < difference c t y.m := by
  have one : (0 : ℚ) < pllOne c := by exact_mod_cast pllOne_pos c
  have x_pos : (0 : ℚ) < x.m := by exact_mod_cast hx
  have y_pos : (0 : ℚ) < y.m := by exact_mod_cast hy
  rw [difference_eq_diffNum_div c t hx, difference_eq_diffNum_div c t hy, mul_comm, ← div_div, mul_comm, ← div_div,
    div_lt_div_iff_of_pos_right one, div_lt_div_iff₀ x_pos y_pos, closer, decide_eq_true_iff]
  exact_mod_cast Iff.rfl

end

/-! #### What the search finds (R135) -/

/-- The first combination wins over the second: it is closer, or as close and not after it. -/
def WinsOver (c : Params) (t : BitVec 32) (x y : Dividers) : Prop :=
  difference c t x.m < difference c t y.m ∨ (difference c t x.m = difference c t y.m ∧ InOrder x y)

/-- The combination is the first of least difference among the acceptable ones of the list. -/
structure FirstClosest (c : Params) (t : BitVec 32) (l : List Dividers) (x : Dividers) : Prop where
  mem : x ∈ l
  accepted : Accepts c t x
  wins : ∀ y ∈ l, Accepts c t y → WinsOver c t x y

/-- What the search holds after the combinations of the list. -/
inductive SearchFound (c : Params) (t : BitVec 32) (l : List Dividers) : Option Candidate → Prop
  | nothing (rejected : ∀ x ∈ l, ¬ Accepts c t x) : SearchFound c t l none
  | first {x : Dividers} (best : FirstClosest c t l x) : SearchFound c t l (some (candidateAt c t x))

section

variable {c : Params} {t : BitVec 32} {x y : Dividers} {l : List Dividers}

theorem WinsOver.refl (x : Dividers) : WinsOver c t x x := .inr ⟨rfl, .refl x⟩

theorem WinsOver.difference_le (h : WinsOver c t x y) : difference c t x.m ≤ difference c t y.m :=
  h.elim le_of_lt fun same => same.1.le

theorem WinsOver.antisymm (h : WinsOver c t x y) (h' : WinsOver c t y x) : x = y := by
  have same := h.difference_le.antisymm h'.difference_le
  obtain less | ⟨-, before⟩ := h
  · exact absurd same less.ne
  obtain less | ⟨-, before'⟩ := h'
  · exact absurd same less.ne'
  exact before.antisymm before'

/-- A best combination stays the best beside one that it wins over. -/
theorem FirstClosest.concat (best : FirstClosest c t l x) (h : Accepts c t y → WinsOver c t x y) :
    FirstClosest c t (l ++ [y]) x where
  mem := List.mem_append_left _ best.mem
  accepted := best.accepted
  wins := List.forall_mem_append.2 ⟨best.wins, List.forall_mem_singleton.2 h⟩

/-- A combination closer than the best one is the best. -/
theorem FirstClosest.replaced (best : FirstClosest c t l x) (accepted : Accepts c t y)
    (less : difference c t y.m < difference c t x.m) : FirstClosest c t (l ++ [y]) y where
  mem := List.mem_concat_self
  accepted := accepted
  wins := List.forall_mem_append.2
    ⟨fun z hz acc => .inl (less.trans_le (best.wins z hz acc).difference_le), List.forall_mem_singleton.2 fun _ => .refl y⟩

/-- One turn with a combination that comes after those before: an acceptable one replaces the best only if it is closer. -/
theorem found_searchStep {found : Option Candidate} (h : SearchFound c t l found) (hl : ∀ x ∈ l, x ∈ combinations)
    (hy : y ∈ combinations) (after : ∀ x ∈ l, InOrder x y) :
    SearchFound c t (l ++ [y]) (searchStep c t.toNat found y) := by
  by_cases accepted : Accepts c t y
  · cases h with
    | nothing rejected =>
      simp only [searchStep, candidateOf_accepted accepted]
      exact .first ⟨List.mem_concat_self, accepted, List.forall_mem_append.2
        ⟨fun z hz acc => absurd acc (rejected z hz), List.forall_mem_singleton.2 fun _ => .refl y⟩⟩
    | @first x best =>
      have compare := closer_candidateAt (c := c) (t := t) (m_pos_of_mem hy) (m_pos_of_mem (hl x best.mem))
      simp only [searchStep, candidateOf_accepted accepted]
      split
      · next less => exact .first (best.replaced accepted (compare.1 less))
      · next notLess =>
        have le := not_lt.1 (mt compare.2 notLess)
        exact .first (best.concat fun _ => le.lt_or_eq.imp_right fun same => ⟨same, after x best.mem⟩)
  · have kept : searchStep c t.toNat found y = found := by
      simp only [searchStep, candidateOf_rejected hy accepted]
    rw [kept]
    cases h with
    | nothing rejected => exact .nothing (List.forall_mem_append.2 ⟨rejected, List.forall_mem_singleton.2 accepted⟩)
    | first best => exact .first (best.concat fun acc => absurd acc accepted)

theorem found_foldl (hl : ∀ x ∈ l, x ∈ combinations) (ordered : l.Pairwise InOrder) :
    SearchFound c t l (l.foldl (searchStep c t.toNat) none) := by
  induction l using List.reverseRecOn with
  | nil => exact .nothing fun _ hx => absurd hx List.not_mem_nil
  | append_singleton l y ih =>
    obtain ⟨inside, last⟩ := List.forall_mem_append.1 hl
    obtain ⟨ordered, -, after⟩ := List.pairwise_append.1 ordered
    rw [List.foldl_concat]
    exact found_searchStep (ih inside ordered) inside (last y List.mem_cons_self) fun x hx => after x hx y List.mem_cons_self

end

/-- R135: the whole search rejects every combination, or finds the acceptable one that wins over the others. -/
theorem solve_cases (c : Params) (t : BitVec 32) :
    (solve c t = none ∧ ∀ x, ¬ Accepts c t x) ∨
      ∃ x, solve c t = some (candidateAt c t x) ∧ Accepts c t x ∧ ∀ y, Accepts c t y → WinsOver c t x y := by
  have listed {x : Dividers} (h : Accepts c t x) : x ∈ combinations := mem_combinations_iff.2 h.1
  have found : SearchFound c t combinations (solve c t) := found_foldl (fun _ hx => hx) combinations_inOrder
  generalize solve c t = outcome at found
  cases found with
  | nothing rejected => exact .inl ⟨rfl, fun x h => rejected x (listed h) h⟩
  | first best => exact .inr ⟨_, rfl, best.accepted, fun y h => best.wins y (listed h) h⟩

theorem solve_eq_none {c : Params} {t : BitVec 32} (h : ∀ r a b, ¬ acceptable c t r a b) : solve c t = none := by
  obtain ⟨nothing, -⟩ | ⟨x, -, accepted, -⟩ := solve_cases c t
  · exact nothing
  · exact absurd accepted (h _ _ _)

theorem solve_eq_some {c : Params} {t : BitVec 32} {x : Dividers} (accepted : Accepts c t x)
    (wins : ∀ y, Accepts c t y → WinsOver c t x y) : solve c t = some (candidateAt c t x) := by
  obtain ⟨-, rejected⟩ | ⟨y, found, accepted', wins'⟩ := solve_cases c t
  · exact absurd accepted (rejected x)
  · rw [found, (wins' x accepted).antisymm (wins y accepted')]

/-! #### The operations (R133, R138) -/

theorem exec_solve (t : BitVec 32) (s : State) :
    exec (.solve .S t) s = .next (answerFound .S (solve s.params t) s) :=
  congrArg Host.Outcome.next (onPort_same ..)

theorem exec_setfreq (t : BitVec 32) (s : State) :
    exec (.setfreq .S t) s = .next (sendFound .S (solve s.params t) s) :=
  congrArg Host.Outcome.next (onPort_same ..)

section

variable {t : BitVec 32} {s : State}

theorem exec_solve_none (h : solve s.params t = none) : exec (.solve .S t) s = .next (s.answer .S .notFound .empty) := by
  rw [exec_solve, h, answerFound]

theorem exec_solve_some {y : Candidate} (h : solve s.params t = some y) :
    exec (.solve .S t) s = .next (s.answer .S .ok (.solved (pllResult y))) := by
  rw [exec_solve, h, answerFound]

theorem exec_setfreq_none (h : solve s.params t = none) : exec (.setfreq .S t) s = .next (s.answer .S .notFound .empty) := by
  rw [exec_setfreq, h, sendFound]

theorem exec_setfreq_some {y : Candidate} (h : solve s.params t = some y) :
    exec (.setfreq .S t) s =
      .next (runFrames .S [pllSpec s.params (pllResult y)] (.setfreq (pllResult y)) s) := by
  rw [exec_setfreq, h, sendFound]

end

/-- Settles O25: the search holds the first closest acceptable combination, and there is only one such. -/
theorem solveFindsTheFirstClosest : Obligations.SolveFindsTheFirstClosest := by
  refine fun t s => ⟨fun rejected => exec_solve_none (solve_eq_none rejected), fun r a b accepted wins => ?found⟩
  case found => exact exec_solve_some (solve_eq_some (x := ⟨r, a, b⟩) accepted fun y hy => wins _ _ _ hy)

/-- R139: an acceptable combination achieves at least 4000/98 MHz and at most 5975, and the target is within 1 MHz of that. -/
theorem target_bounds_of_acceptable {c : Params} {t : BitVec 32} {r a b : Nat} (h : acceptable c t r a b) :
    3902 / 98 < target c t ∧ target c t < 5976 := by
  obtain ⟨legal, low, high, close⟩ := h
  obtain ⟨m_low, m_high⟩ : 1 ≤ r * a * b ∧ r * a * b ≤ 98 := m_bounds_of_legal (x := ⟨r, a, b⟩) legal
  rw [difference, abs_lt] at close
  obtain ⟨above, below⟩ := close
  generalize r * a * b = m at *
  generalize roundedFeedback c t m = fb at *
  have m_pos : (0 : ℚ) < m := by exact_mod_cast m_low
  have least : 4000 / 98 ≤ achieved fb m := by
    rw [achieved, div_le_div_iff₀ (by norm_num) m_pos]
    have : 4000 * m ≤ 25 * fb * 98 := by omega
    exact_mod_cast this
  have greatest : achieved fb m ≤ 5975 := by
    rw [achieved, div_le_iff₀ m_pos]
    have : 25 * fb ≤ 5975 * m := by omega
    exact_mod_cast this
  constructor <;> linarith

/-- Settles O26: no combination is acceptable. -/
theorem targetsOutOfReachAreNotFound : Obligations.TargetsOutOfReachAreNotFound := by
  intro t s outOfReach
  have nothing : solve s.params t = none := solve_eq_none fun r a b accepted => by
    obtain ⟨above, below⟩ := target_bounds_of_acceptable accepted
    exact outOfReach.elim above.not_ge below.not_ge
  exact ⟨exec_solve_none nothing, exec_setfreq_none nothing⟩

/-! #### The register write (R61, R137, R138) -/

theorem ofNat_postDivider_ne_zero {n : Nat} (pos : 1 ≤ n) (le : n ≤ 7) : BitVec.ofNat 3 n ≠ 0 := by
  have fits : (BitVec.ofNat 3 n).toNat = n := by rw [BitVec.toNat_ofNat]; omega
  intro zero
  rw [zero] at fits
  exact (Nat.ne_of_lt pos) fits

/-- The post dividers are stored less 1 (R61), and those of a solution are at least 1. -/
theorem pllPayload_eq_solutionPayload (c : Params) {r : PllResult} (h1 : r.post1 ≠ 0) (h2 : r.post2 ≠ 0) :
    pllPayload c r = solutionPayload c r := by
  have stored {p : BitVec 3} (hp : p ≠ 0) : (p - 1).toNat = p.toNat - 1 := by revert p; decide
  have mode : (if r.hf then 0x50 else 0x40 : Byte) = BitVec.ofNat 8 (64 + 16 * r.hf.toNat) := by cases r.hf <;> rfl
  rw [pllPayload, pllPayloadRaw, mode, postDividers_byte, stored h1, stored h2, solutionPayload]

theorem pllPayload_pllResult {c : Params} {t : BitVec 32} {x : Dividers} (h : Accepts c t x) :
    pllPayload c (pllResult (candidateAt c t x)) = solutionPayload c (pllResult (candidateAt c t x)) := by
  obtain ⟨⟨-, hb, hba, ha⟩, -⟩ := h
  exact pllPayload_eq_solutionPayload c (ofNat_postDivider_ne_zero (hb.trans hba) ha)
    (ofNat_postDivider_ne_zero hb (hba.trans ha))

/-- Settles O27: `SETFREQ` sends what the same search found. -/
theorem setfreqSendsTheSolution : Obligations.SetfreqSendsTheSolution := by
  refine ⟨fun t s a as hs ha => ?sends, fun r => ?default⟩
  case sends =>
    obtain ⟨nothing, -⟩ | ⟨x, found, accepted, -⟩ := solve_cases s.params t
    · exact .inl ⟨exec_solve_none nothing, exec_setfreq_none nothing⟩
    have payload := pllPayload_pllResult accepted
    refine .inr ⟨_, exec_solve_some found, fun F built => ?sent, fun refused => ?notEncoded⟩
    case sent =>
      rw [← payload] at built
      have frames : [pllSpec s.params (pllResult (candidateAt s.params t x))].map
          (fun x => encodeFrame s.params x.header x.payload) = [F].map some := congrArg (· :: []) built
      have answer : (true && [a].all id) = a := by simp
      rw [exec_setfreq_some found, runFrames_all frames, run_transmit _ as [F] [a] true s hs rfl ha, answer, runOp_done rfl]
      rfl
    case notEncoded =>
      rw [← payload] at refused
      rw [exec_setfreq_some found, ← List.nil_append [_], runFrames_refused (fs := []) rfl refused, runOp_done rfl]
  case default => rw [encodeFrame_default]; rfl

end Sys2Proof.Laws

end

/-! ### The validity flags and `TAKE` (O31, O32, O33) -/

section

namespace Sys2Proof.Laws

open Machine Reference

theorem exec_markValid (j : BitVec 7) (s : State) : exec (.markValid .S j) s = .next (runOp .S (.markValid j) s) :=
  congrArg Host.Outcome.next (onPort_same ..)

/-- Writing a slot what it holds changes nothing. -/
theorem setSlot_slot (s : State) (j : BitVec 7) : s.setSlot j (s.slot j) = s := by
  simp [State.setSlot, State.withEng, State.slot, slotAt]

/-- Settles O31: under the free lock the one micro-step writes the slot back with its flag set. -/
theorem markValidSetsItsFlag : Obligations.MarkValidSetsItsFlag := by
  refine fun j s => ⟨fun hl => ⟨s.setSlot j { s.slot j with valid := true }, ?completes, State.setSlot_slot_same ..,
    fun k hk => State.setSlot_slot_other _ _ _ _ hk, rfl, fun set => ?unchanged⟩, (wrongPortIsRefused _ s).1 rfl rfl⟩
  case completes =>
    have ends : micro .S (.markValid j) s = .done .ok .empty (s.setSlot j { s.slot j with valid := true }) := by
      simp only [micro, microMarkValid, setValid_free hl]
    rw [exec_markValid, runOp_done ends]
  case unchanged =>
    rw [← set]
    exact setSlot_slot s j

/-- `IS_VALID` under a free lock answers the flag (R154). -/
theorem exec_isValid (j : BitVec 7) {s : State} (hl : s.eng.lock = .free) :
    exec (.isValid .R j) s = .next (s.answer .R .ok (.validity (s.slot j).valid)) := by
  have ends : micro .R (.isValid j) s = .done .ok (.validity (s.slot j).valid) s := by
    simp only [micro, microIsValid, readValid_free hl]
  exact congrArg Host.Outcome.next ((onPort_same ..).trans (runOp_done ends))

theorem slot_reset (j : BitVec 7) : State.reset.slot j = Slot.empty := slotAt_reset j

/-- Settles O32: after reset the lock is free and every slot is empty. -/
theorem isValidReadsTheFlag : Obligations.IsValidReadsTheFlag := by
  refine fun j s => ⟨exec_isValid j, ?reset, (wrongPortIsRefused _ s).2 rfl rfl⟩
  have read := exec_isValid (s := State.reset) j rfl
  rwa [slot_reset] at read

/-- `TAKE` begins with its read of `occupied` (R155). -/
theorem exec_take (j : BitVec 7) (s : State) : exec (.take .R j) s = .next (runOp .R (.take1 j) s) :=
  congrArg Host.Outcome.next (onPort_same ..)

theorem micro_take1 (p : Port) (j : BitVec 7) (s : State) :
    micro p (.take1 j) s = if (s.slot j).occupied then .more (.take2 j) s else .done .slotEmpty (.jobId j) s := rfl

/-- Settles O33: an occupied slot is read in three micro-steps, an empty one in the first. -/
theorem takeReadsTheSlot : Obligations.TakeReadsTheSlot := by
  refine fun j s => ⟨fun hs occupied => ?taken, fun empty => ⟨.jobId j, ?empty⟩, (wrongPortIsRefused _ s).2 rfl rfl⟩
  case taken =>
    have first : micro .R (.take1 j) s = .more (.take2 j) s := (micro_take1 ..).trans (if_pos occupied)
    rw [exec_take, runOp_uncut first hs, runOp_uncut rfl hs, runOp_done rfl]
  case empty =>
    have first : micro .R (.take1 j) s = .done .slotEmpty (.jobId j) s :=
      (micro_take1 ..).trans (if_neg (Bool.eq_false_iff.1 empty))
    rw [exec_take, runOp_done first]

end Sys2Proof.Laws

end

/-! ### `SUBMIT` (O28) -/

section

namespace Sys2Proof.Laws

open Machine Reference

/-- `NEXT_ID` advances by 24 modulo 128 (R151). -/
theorem toNat_add_jobStride (x : BitVec 7) : (x + Config.jobStride).toNat = (x.toNat + 24) % 128 := BitVec.toNat_add ..

/-- A `SUBMIT` writes no other slot than that of its identifier (R151). -/
theorem submitted_slot_other (s : State) (wu : Handle) (version : BitVec 32) {j : BitVec 7} (hj : j ≠ s.eng.nextId) :
    (submitted s wu version).slot j = s.slot j :=
  State.setSlot_slot_other _ _ _ _ hj

theorem occupant_toList (s : State) (j : BitVec 7) :
    (occupant s j).toList = if (s.slot j).occupied then [(s.slot j).wu] else [] := by
  rw [occupant]; split <;> rfl

/-- Settles O28: what `SUBMIT` leaves when no schedule cuts it, field by field. -/
theorem submitInstallsTheWorkUnit : Obligations.SubmitInstallsTheWorkUnit := by
  intro wu version s hs hl
  refine ⟨_, exec_submit_uncut wu version hs hl, toNat_add_jobStride _, State.setSlot_slot_same ..,
    fun j hj => submitted_slot_other s wu version hj, ?released, rfl, rfl⟩
  case released =>
    rw [← occupant_toList]
    rfl

end Sys2Proof.Laws

end

/-! ### Any number of `SUBMIT`s (O29, O30) -/

section

namespace Sys2Proof.Laws

open Machine Reference

/-- What `SUBMIT` of the WorkUnit `w` leaves when no schedule cuts it, its answer included. -/
def submitAnswered (s : State) (w : Handle × BitVec 32) : State :=
  (submitted s w.1 w.2).answer .S .ok (.submitted s.eng.nextId (occupant s s.eng.nextId))

/-- `SUBMIT`s that no schedule cuts run one after another. -/
theorem runOperations_submit (ws : List (Handle × BitVec 32)) {s : State} (hs : s.sched = []) (hl : s.eng.lock = .free) :
    runOperations (ws.map fun w => .submit .S w.1 w.2) s = some (ws.foldl submitAnswered s) := by
  induction ws generalizing s with
  | nil => rfl
  | cons w ws ih => exact (runOperations_cons (exec_submit_uncut w.1 w.2 hs hl) _).trans (ih hs hl)

theorem submitAnswered_nextId (s : State) (w : Handle × BitVec 32) :
    (submitAnswered s w).eng.nextId = s.eng.nextId + Config.jobStride := rfl

/-- The `k`-th identifier from `NEXT_ID` on (R156). -/
def jobIdAfter (s : State) (k : Nat) : BitVec 7 := s.eng.nextId + BitVec.ofNat 7 (24 * k)

theorem jobIdAfter_zero (s : State) : jobIdAfter s 0 = s.eng.nextId := BitVec.add_zero _

/-- A `SUBMIT` moves the sequence of identifiers on by one. -/
theorem jobIdAfter_succ (s : State) (w : Handle × BitVec 32) (k : Nat) :
    jobIdAfter s (k + 1) = jobIdAfter (submitAnswered s w) k := by
  have stride : BitVec.ofNat 7 (24 * (k + 1)) = Config.jobStride + BitVec.ofNat 7 (24 * k) := by
    rw [Nat.mul_succ, Nat.add_comm, BitVec.ofNat_add]
    rfl
  rw [jobIdAfter, jobIdAfter, submitAnswered_nextId, stride, BitVec.add_assoc]

theorem foldl_submitAnswered_nextId (ws : List (Handle × BitVec 32)) (s : State) :
    (ws.foldl submitAnswered s).eng.nextId = jobIdAfter s ws.length := by
  induction ws generalizing s with
  | nil => exact (jobIdAfter_zero s).symm
  | cons w ws ih => exact (ih _).trans (jobIdAfter_succ s w ws.length).symm

/-- The occupants of the sixteen slots that `SUBMIT` takes next, in that order (R156). -/
def nextOccupants (s : State) : List (Option Handle) := (List.range 16).map fun k => occupant s (jobIdAfter s k)

/-- The next fifteen identifiers are other slots than the first: 24 has order 16 modulo 128 (R156). -/
theorem jobIdAfter_succ_ne (s : State) {k : Nat} (hk : k < 15) : jobIdAfter s (k + 1) ≠ s.eng.nextId := by
  have order : ∀ k < 15, BitVec.ofNat 7 (24 * (k + 1)) ≠ 0 := by decide
  exact fun h => order k hk (add_eq_left.1 h)

/-- A `SUBMIT` leaves the other slots' occupants as they are. -/
theorem occupant_submitAnswered_other (s : State) (w : Handle × BitVec 32) {j : BitVec 7} (hj : j ≠ s.eng.nextId) :
    occupant (submitAnswered s w) j = occupant s j := by
  rw [occupant, submitAnswered, State.answer_slot, submitted_slot_other s _ _ hj, occupant]

theorem occupant_submitAnswered_same (s : State) (w : Handle × BitVec 32) :
    occupant (submitAnswered s w) s.eng.nextId = some (fitHandle s.params w.1) := by
  rw [occupant, submitAnswered, State.answer_slot, submitted, State.setSlot_slot_same]
  rfl

/-- A `SUBMIT` takes the first of these sixteen slots, which becomes the last of them: the WorkUnit it installs is released
by the sixteenth `SUBMIT` after it (R152). -/
theorem nextOccupants_submitAnswered (s : State) (w : Handle × BitVec 32) :
    nextOccupants s ++ [some (fitHandle s.params w.1)] = occupant s s.eng.nextId :: nextOccupants (submitAnswered s w) := by
  let t := submitAnswered s w
  have first : nextOccupants s = occupant s s.eng.nextId :: (List.range 15).map fun k => occupant s (jobIdAfter s (k + 1)) := by
    rw [nextOccupants, List.range_succ_eq_map, List.map_cons, jobIdAfter_zero, List.map_map]; rfl
  have last : nextOccupants t = (List.range 15).map (fun k => occupant t (jobIdAfter t k)) ++ [occupant t (jobIdAfter t 15)] := by
    rw [nextOccupants, List.range_succ, List.map_append]; rfl
  have kept : ∀ k ∈ List.range 15, occupant s (jobIdAfter s (k + 1)) = occupant t (jobIdAfter t k) := fun k hk => by
    rw [← jobIdAfter_succ, occupant_submitAnswered_other s w (jobIdAfter_succ_ne s (List.mem_range.1 hk))]
  have wraps : jobIdAfter t 15 = s.eng.nextId := (jobIdAfter_succ s w 15).symm.trans (BitVec.add_zero _)
  rw [first, last, List.map_congr_left kept, wraps, occupant_submitAnswered_same, List.cons_append]

/-- What each `SUBMIT` of a run finds in its slot: the occupants there before the run at first, then the WorkUnit submitted sixteen
before it (R152). -/
def foundOccupants (ws : List (Handle × BitVec 32)) (s : State) : List (Option Handle) :=
  (nextOccupants s ++ ws.map fun w => some (fitHandle s.params w.1)).take ws.length

theorem length_foundOccupants (ws : List (Handle × BitVec 32)) (s : State) : (foundOccupants ws s).length = ws.length := by
  simp [foundOccupants]

theorem foundOccupants_cons (w : Handle × BitVec 32) (ws : List (Handle × BitVec 32)) (s : State) :
    foundOccupants (w :: ws) s = occupant s s.eng.nextId :: foundOccupants ws (submitAnswered s w) := by
  rw [foundOccupants, List.map_cons, List.append_cons, nextOccupants_submitAnswered]
  rfl

/-- A run releases the handles it finds, in order (R152). -/
theorem foldl_submitAnswered_released (ws : List (Handle × BitVec 32)) (s : State) :
    (ws.foldl submitAnswered s).env.released = s.env.released ++ (foundOccupants ws s).reduceOption := by
  induction ws generalizing s with
  | nil => exact (List.append_nil _).symm
  | cons w ws ih =>
    have head : (submitAnswered s w).env.released = s.env.released ++ (occupant s s.eng.nextId).toList := rfl
    rw [List.foldl_cons, ih, head, List.append_assoc, foundOccupants_cons, ← List.singleton_append, List.reduceOption_append,
      List.reduceOption_singleton]

/-- A run answers the identifiers in order, each with what its `SUBMIT` found (R151). -/
theorem foldl_submitAnswered_rsp (ws : List (Handle × BitVec 32)) (s : State) :
    (ws.foldl submitAnswered s).portS.rsp =
      s.portS.rsp ++ (foundOccupants ws s).mapIdx fun k r => ⟨.ok, .submitted (jobIdAfter s k) r⟩ := by
  induction ws generalizing s with
  | nil => exact (List.append_nil _).symm
  | cons w ws ih =>
    have head : (submitAnswered s w).portS.rsp =
        s.portS.rsp ++ [⟨.ok, .submitted s.eng.nextId (occupant s s.eng.nextId)⟩] := rfl
    simp only [List.foldl_cons, ih, head, List.append_assoc, foundOccupants_cons, List.mapIdx_cons, jobIdAfter_zero,
      jobIdAfter_succ s w, List.singleton_append]

/-- From `NEXT_ID` = 0 the `k`-th identifier is 24 `k` modulo 128 (R156). -/
theorem jobIdAfter_of_zero {s : State} (h : s.eng.nextId = 0) (k : Nat) : jobIdAfter s k = BitVec.ofNat 7 (24 * k) := by
  rw [jobIdAfter, h]
  exact BitVec.zero_add _

/-- Settles O29: the responses and `NEXT_ID` of any number of `SUBMIT`s, with `NEXT_ID` 0 at first. -/
theorem identifierSequence : Obligations.IdentifierSequence := by
  intro ws s hs hl h0
  have ids := jobIdAfter_of_zero h0
  refine ⟨_, runOperations_submit ws hs hl, ?next, foundOccupants ws s, length_foundOccupants ws s, ?answers⟩
  case next => rw [foldl_submitAnswered_nextId, ids, BitVec.toNat_ofNat]
  case answers => simp only [foldl_submitAnswered_rsp, ids]

theorem nextOccupants_of_empty {s : State} (h : ∀ j, (s.slot j).occupied = false) :
    nextOccupants s = List.replicate 16 none := by
  have none_there : ∀ j, occupant s j = none := fun j => if_neg (Bool.eq_false_iff.1 (h j))
  simp only [nextOccupants, none_there, List.map_const', List.length_range]

theorem reduceOption_map_some {α β : Type} (f : α → β) (l : List α) : (l.map fun x => some (f x)).reduceOption = l.map f := by
  rw [List.reduceOption, List.filterMap_map, ← List.filterMap_eq_map]
  rfl

/-- Settles O30: an empty table's sixteen slots give nothing to release, then come the handles in order of submission. -/
theorem handlesAreReleasedInOrder : Obligations.HandlesAreReleasedInOrder := by
  intro ws s hs hl _ empty
  refine ⟨_, runOperations_submit ws hs hl, ?_⟩
  rw [foldl_submitAnswered_released, foundOccupants, nextOccupants_of_empty empty, List.take_append, List.reduceOption_append,
    List.take_replicate, List.reduceOption_replicate_none, List.nil_append, List.length_replicate, ← List.map_take,
    reduceOption_map_some]
  rfl

end Sys2Proof.Laws

end

/-! ### No step clears a flag (O45) -/

section

namespace Sys2Proof.Laws

open Machine Reference

/-- Every flag set in `s` is set in `t`. -/
def FlagsKept (s t : State) : Prop :=
  ∀ j, ((s.slot j).valid = true → (t.slot j).valid = true) ∧ ((s.slot j).occupied = true → (t.slot j).occupied = true)

namespace FlagsKept

theorem trans {a b c : State} (h : FlagsKept a b) (h' : FlagsKept b c) : FlagsKept a c := fun j =>
  ⟨(h' j).1 ∘ (h j).1, (h' j).2 ∘ (h j).2⟩

theorem of_slots {s t : State} (h : t.eng.slots = s.eng.slots) : FlagsKept s t := fun j => by
  rw [State.slot, State.slot, h]
  exact ⟨id, id⟩

theorem of_eng {s t : State} (h : t.eng = s.eng) : FlagsKept s t := of_slots (congrArg Engine.slots h)

/-- A slot written with no flag less keeps the flags. -/
theorem of_setSlot {s : State} {j : BitVec 7} {x : Slot} (valid : (s.slot j).valid = true → x.valid = true)
    (occupied : (s.slot j).occupied = true → x.occupied = true) : FlagsKept s (s.setSlot j x) := fun k => by
  by_cases hk : k = j
  · subst hk
    rw [State.setSlot_slot_same]
    exact ⟨valid, occupied⟩
  · rw [State.setSlot_slot_other _ _ _ _ hk]
    exact ⟨id, id⟩

theorem of_setValid {p : Port} {j : BitVec 7} {s s1 : State} (h : setValid p j s = some s1) : FlagsKept s s1 := by
  obtain ⟨-, rfl⟩ := setValid_some h
  exact of_setSlot (fun _ => rfl) id

end FlagsKept

/-- What comes after the last frame writes no slot. -/
theorem afterTx_slots {k : AfterTx} {ok : Bool} {s s1 : State} (h : after (afterTx k ok s) = some s1) :
    s1.eng.slots = s.eng.slots := by
  cases k with
  | assign n =>
    simp only [afterTx, after, Option.some.injEq] at h
    subst h
    split <;> rfl
  | send | enumerate | setfreq | initStep | refuseOperand => cases h; rfl

theorem enumFinish_slots {n : BitVec 8} {ok : Bool} {s s1 : State} (h : after (enumFinish n ok s) = some s1) :
    s1.eng.slots = s.eng.slots := by
  unfold enumFinish at h
  split at h <;> cases h <;> rfl

theorem microEnumRead_slots {c : BitVec 8} {i : BitVec 16} {l n : BitVec 8} {ok : Bool} {s s1 : State}
    (h : after (microEnumRead c i l n ok s) = some s1) : s1.eng.slots = s.eng.slots := by
  unfold microEnumRead at h
  split at h
  · split at h
    · cases h
    · next e => obtain ⟨as, rfl, -⟩ := callRx_some e; exact enumFinish_slots (s := s.withEnv { s.env with rxAns := as }) h
    · next e => obtain ⟨as, rfl, -⟩ := callRx_some e; cases h; rfl
  · exact enumFinish_slots h

/-- A micro-step of an operation of port `R` writes no register (R38). -/
theorem micro_receive_eng {p : Port} {t : Task} {s s1 : State} (h : after (micro p t s) = some s1) (ht : receiveTask t) :
    s1.eng = s.eng := by
  obtain ⟨more, done⟩ := micro_receive (p := p) (s := s) ht
  cases e : micro p t s with
  | more t1 s2 => rw [e] at h; cases h; obtain ⟨-, l, -, rfl⟩ := more _ _ e; rfl
  | done st r s2 => rw [e] at h; cases h; obtain ⟨l, -, rfl⟩ := done _ _ _ e; rfl
  | wait => rw [e] at h; cases h

/-- No micro-step clears a flag: m3 sets `occupied`, m4 and `MARK_VALID` set `valid`, and no other writes a slot. -/
theorem micro_flagsKept {p : Port} {t : Task} {s s1 : State} (h : after (micro p t s) = some s1) : FlagsKept s s1 := by
  cases t with
  | transmit left ok k =>
    cases left with
    | nil => exact .of_slots (afterTx_slots h)
    | cons F rest => cases h; exact .of_slots rfl
  | txWait left ok k =>
    simp only [micro, microTxWait] at h
    split at h
    · cases h
    · next e => obtain ⟨as, -, rfl⟩ := takeTxAnswer_some e; cases h; exact .of_slots rfl
  | enumRead c i l n ok => exact .of_slots (microEnumRead_slots h)
  | submit1 wu v => cases h; exact .of_slots rfl
  | submit2 j wu v => rw [micro_submit2] at h; cases h; exact .of_slots rfl
  | submit3 j wu v r => cases h; exact .of_setSlot id fun _ => rfl
  | submit4 j r =>
    simp only [micro, microSubmit4] at h
    split at h
    · cases h
    · next e => cases h; exact .of_setValid e
  | markValid j =>
    simp only [micro, microMarkValid] at h
    split at h
    · cases h
    · next e => cases h; exact .of_setValid e
  | isValid | take1 | take2 | take3 | resultRead | parse1 | parse2 | parse3 | parse4 | parse5 =>
    exact .of_eng (micro_receive_eng h trivial)

/-- However far it runs, an operation clears no flag. -/
theorem runOp_flagsKept (p : Port) (t : Task) (s : State) : FlagsKept s (runOp p t s) :=
  runTask_induct (Q := fun _ => FlagsKept s) (G := FlagsKept s)
    (stop := fun t s1 h => h.trans (.of_eng (State.suspend_eng s1 p t)))
    (ends := fun _ _ st r s1 h e =>
      (h.trans (micro_flagsKept (s1 := s1) (congrArg after e))).trans (.of_eng (State.answer_eng s1 p st r)))
    (goes := fun _ _ _ s1 h e => h.trans (micro_flagsKept (s1 := s1) (congrArg after e)))
    (sched := fun _ _ _ h => h)
    (taskRank t s) t s (.of_eng rfl)

/-- Settles O45: a step that is no reset event runs one operation or none. -/
theorem flagsAreNeverCleared : Obligations.FlagsAreNeverCleared := by
  intro s t j hr h
  suffices kept : FlagsKept s t from kept j
  obtain ⟨reset, -⟩ | ⟨-, p, -, hturn⟩ := step_cases h
  · exact absurd (hr.symm.trans reset) Bool.false_ne_true
  have turn : FlagsKept s s.nextTurn := .of_eng (State.nextTurn_eng s)
  have presented := fun rest => turn.trans (.of_eng (State.withCmd_eng s.nextTurn p rest))
  obtain ⟨-, -, rfl⟩ | ⟨i, rest, st, r, -, -, -, rfl⟩ | ⟨k, -, rfl⟩ | ⟨i, rest, k, -, -, -, rfl, -⟩ := hturn
  · exact turn
  · exact (presented rest).trans (.of_eng (State.answer_eng _ p st r))
  · exact turn.trans (runOp_flagsKept p k _)
  · exact (presented rest).trans (runOp_flagsKept p k _)

end Sys2Proof.Laws

end

/-! ### The result parser (O34, O35, O37, O38) -/

section

namespace Sys2Proof.Laws

open Machine Reference

/-! #### `PARSE` and `RESULT` (R168, R170) -/

/-- `PARSE` with no switch of port ordered and the lock free (R166, R168, R169). -/
theorem exec_parse (B : Vector Byte Config.respLen) {s : State} (hs : s.sched = []) (hl : s.eng.lock = .free) :
    exec (.parse .R B) s = .next (s.answer .R (parseAnswer s B).1 (parseAnswer s B).2) :=
  congrArg Host.Outcome.next ((onPort_same ..).trans (runOp_parse B hs hl))

/-- Settles O34: p1 to p5 of `PARSE`, cut by no schedule. -/
theorem parseExtractsTheFields : Obligations.ParseExtractsTheFields := fun B _ hs hl => exec_parse B hs hl

/-- `RESULT` begins with its call of `Rx` (R170). -/
theorem exec_result (s : State) : exec (.result .R) s = .next (runOp .R .resultRead s) :=
  congrArg Host.Outcome.next (onPort_same ..)

/-- A record read goes on as `PARSE` of it (R170). -/
theorem micro_resultRead_record {p : Port} {s : State} {B : Vector Byte Config.respLen} {rs : List RxAnswer}
    (rx : s.env.rxAns = .bytes B.toList :: rs) :
    micro p .resultRead s = .more (.parse1 B) (s.withEnv { s.env with rxAns := rs }) := by
  simp only [micro, microResultRead, callRx_bytes rx]

/-- A failure of the transport is `NO_RESULT` (R170). -/
theorem micro_resultRead_failure {p : Port} {s : State} {rs : List RxAnswer} (rx : s.env.rxAns = .failure :: rs) :
    micro p .resultRead s = .done .noResult .empty (s.withEnv { s.env with rxAns := rs }) := by
  simp only [micro, microResultRead, callRx_failure rx]

/-- Settles O35: one answer of `Rx` is taken, and a record in it runs through `PARSE`, which reads no answer of `Rx`. -/
theorem resultReadsOneRecord : Obligations.ResultReadsOneRecord := by
  refine fun s rs hs hl => ⟨fun B rx => ?record, fun rx => ?failure⟩
  case record =>
    have parsed := runOp_parse B (s := s.withEnv { s.env with rxAns := rs }) hs hl
    rw [exec_result, runOp_uncut (micro_resultRead_record rx) hs, parsed]
    rfl
  case failure =>
    rw [exec_result, runOp_done (micro_resultRead_failure rx)]
    rfl

/-! #### What the parser reads of a record (R63, R167) -/

section

variable {A B : Vector Byte 11}

/-- The job identifier is read from byte 7 alone. -/
theorem recordJob_congr (h7 : A[7] = B[7]) : recordJob A = recordJob B := by
  rw [recordJob, recordJob, h7]

/-- The fields are read from bytes 2 to 5 and 7 to 9 alone. -/
theorem chipResult_congr (h2 : A[2] = B[2]) (h3 : A[3] = B[3]) (h4 : A[4] = B[4]) (h5 : A[5] = B[5]) (h7 : A[7] = B[7])
    (h8 : A[8] = B[8]) (h9 : A[9] = B[9]) : chipResult A = chipResult B := by
  funext stored
  simp only [chipResult, h2, h3, h4, h5, h7, h8, h9]

/-- The job identifier and the fields are all that the answer takes from the record. -/
theorem parseAnswer_congr (s : State) (job : recordJob A = recordJob B) (fields : chipResult A = chipResult B) :
    parseAnswer s A = parseAnswer s B := by
  rw [parseAnswer, parseAnswer, job, fields]

end

/-- Settles O37: the bytes left out are not among those that the answer is read from. -/
theorem unexaminedRecordBytesDoNotMatter : Obligations.UnexaminedRecordBytesDoNotMatter := by
  intro A B s hs hl h2 h3 h4 h5 h7 h8 h9
  have same : parseAnswer s A = parseAnswer s B :=
    parseAnswer_congr s (recordJob_congr h7) (chipResult_congr h2 h3 h4 h5 h7 h8 h9)
  rw [exec_parse A hs hl, exec_parse B hs hl, same]

/-! #### The rolled version, bit by bit (R167 (iii)) -/

/-- The chip's field stands from bit 13 on; it ends at bit 28, so no bit of it is shifted out. -/
theorem rolledVersion_getLsbD (stored : BitVec 32) (v : BitVec 16) (k : Nat) :
    (rolledVersion stored v).getLsbD k = (stored.getLsbD k || (!decide (k < 13) && v.getLsbD (k - 13))) := by
  rw [rolledVersion, Config.versionShift, BitVec.getLsbD_or, BitVec.getLsbD_shiftLeft, BitVec.getLsbD_setWidth]
  by_cases inside : k < 32
  · have shifted : k - 13 < 32 := Nat.lt_of_le_of_lt (Nat.sub_le k 13) inside
    simp only [inside, shifted, decide_true, Bool.true_and]
  · have beyond : v.getLsbD (k - 13) = false := BitVec.getLsbD_of_ge v _ (by omega)
    simp only [beyond, Bool.and_false]

/-- Settles O38: the chip's field has no bit below 13, and none from 29 on. -/
theorem rolledVersionIsAnOr : Obligations.RolledVersionIsAnOr := by
  refine fun stored v k => ⟨?kept, fun _ => ?rolled⟩
  case kept =>
    rw [rolledVersion_getLsbD]
    rintro (below | above)
    · simp only [below, decide_true, Bool.not_true, Bool.false_and, Bool.or_false]
    · have beyond : v.getLsbD (k - 13) = false := BitVec.getLsbD_of_ge v _ (by omega)
      simp only [beyond, Bool.and_false, Bool.or_false]
  case rolled =>
    have from13 : ¬ 13 + k < 13 := Nat.not_lt.2 (Nat.le_add_right 13 k)
    rw [rolledVersion_getLsbD, decide_eq_false from13, Nat.add_sub_cancel_left, Bool.not_false, Bool.true_and]

end Sys2Proof.Laws

end

/-! ### `INIT_STEP` (O39) -/

section

namespace Sys2Proof.Laws

open Machine Reference

/-- R181: the states in which `INIT_STEP` is refused. -/
theorem initNext_eq_none_iff {x : InitState} :
    initNext x = none ↔ x = .versionMaskSet ∨ x = .identityVerified ∨ x = .ready ∨ x = .failed := by
  cases x <;> decide

/-- R181: the states from which `INIT_STEP` moves, each with the state it moves to. -/
theorem initNext_of_mem : ∀ m ∈ [(InitState.poweredOn, InitState.versionMaskSet),
    (.chipsAddressed, .coreRegistersConfigured), (.coreRegistersConfigured, .difficultyConfigured),
    (.difficultyConfigured, .clockRamped), (.clockRamped, .ready)], initNext m.1 = some m.2 := by decide

theorem exec_initStep_refused {s : State} (h : initNext s.eng.initState = none) :
    exec (.initStep .S) s = .next (s.answer .S .refusedSequence (.initState s.eng.initState)) := by
  show Host.Outcome.next (onPort .S .S s (runInitStep .S s)) = _
  rw [onPort_same, runInitStep, h]

theorem exec_initStep_accepted {s : State} {next : InitState} (h : initNext s.eng.initState = some next) :
    exec (.initStep .S) s =
      .next (runFrames .S (initFrames s.initSeq s.eng.initState s.eng.chipCount) (.initStep next) s) := by
  show Host.Outcome.next (onPort .S .S s (runInitStep .S s)) = _
  rw [onPort_same, runInitStep, h]

/-- Settles O39: the frames of `INIT_STEP` go out as those of any operation do, and what follows them is the move, or the
refusal of the first frame that `encode` does not build. -/
theorem initStepSendsItsFramesAndMoves : Obligations.InitStepSendsItsFramesAndMoves := by
  refine ⟨fun s h => exec_initStep_refused (initNext_eq_none_iff.2 h), ?notEncoded, ?moves⟩
  case notEncoded =>
    intro s before after bad fs as left hs notMask notIdentity notReady notFailed frames built refused count answers
    have accepted : initNext s.eng.initState ≠ none := fun h => by
      obtain h | h | h | h := initNext_eq_none_iff.1 h
      exacts [notMask h, notIdentity h, notReady h, notFailed h]
    obtain ⟨next, accepted⟩ := Option.ne_none_iff_exists'.1 accepted
    rw [exec_initStep_accepted accepted, frames, runFrames_refused built refused,
      run_transmit _ left fs as true s hs count answers, runOp_done rfl]
    rfl
  case moves =>
    intro s next fs as left hs move built count answers
    rw [exec_initStep_accepted (initNext_of_mem _ move), runFrames_all built,
      run_transmit _ left fs as true s hs count answers, runOp_done rfl]
    rfl

end Sys2Proof.Laws

end

/-! ### `INIT_STATE` only moves forward (O46) -/

section

namespace Sys2Proof.Laws

open Machine

/-- `INIT_STATE` stays at `x` or makes a transition of R180's table from it. -/
def StaysOrMoves (x y : InitState) : Prop := y = x ∨ initTransition x y = true

/-- R181: the moves of `INIT_STEP` are transitions of R180's table. -/
theorem initNext_transition {x y : InitState} (h : initNext x = some y) : initTransition x y = true := by
  cases x <;> cases h <;> rfl

/-- Of the micro-steps of an operation only the one that ends it moves `INIT_STATE`, and it makes one transition of R180's
table. -/
def MovesAtEnd (x : InitState) (m : MicroOut) : Prop :=
  match m with
  | .more _ s => s.eng.initState = x
  | .done _ _ s => StaysOrMoves x s.eng.initState
  | .wait => True

section

variable {s : State}

/-- `ASSIGN` and `INIT_STEP` move `INIT_STATE` once their last frame is answered (R116, R181). -/
theorem afterTx_movesAtEnd {k : AfterTx} (ok : Bool) (hk : afterTxOk s.eng k) :
    MovesAtEnd s.eng.initState (afterTx k ok s) := by
  cases k with
  | send | setfreq | refuseOperand => exact .inl rfl
  | enumerate => exact rfl
  | assign n =>
    show StaysOrMoves s.eng.initState (ite _ _ s : State).eng.initState
    split
    · next identity => exact .inr (by rw [identity]; rfl)
    · exact .inl rfl
  | initStep next => exact .inr (initNext_transition hk)

/-- `ENUMERATE` runs in `VersionMaskSet` and ends in `IdentityVerified` or `Failed` (R111). -/
theorem enumFinish_movesAtEnd (count : BitVec 8) (ok : Bool) (mask : s.eng.initState = .versionMaskSet) :
    MovesAtEnd s.eng.initState (enumFinish count ok s) := by
  rw [mask]
  unfold enumFinish
  split <;> exact .inr rfl

theorem microEnumRead_movesAtEnd (expCount : BitVec 8) (expId : BitVec 16) (expLen count : BitVec 8) (ok : Bool)
    (mask : s.eng.initState = .versionMaskSet) :
    MovesAtEnd s.eng.initState (microEnumRead expCount expId expLen count ok s) := by
  unfold microEnumRead
  split
  · split
    · trivial
    · next e =>
      obtain ⟨as, rfl, -⟩ := callRx_some e
      exact enumFinish_movesAtEnd (s := s.withEnv { s.env with rxAns := as }) count ok mask
    · next e =>
      obtain ⟨as, rfl, -⟩ := callRx_some e
      exact rfl
  · exact enumFinish_movesAtEnd count ok mask

theorem micro_movesAtEnd {t : Task} (task : sendTaskOk s.params s.eng t) :
    MovesAtEnd s.eng.initState (micro .S t s) := by
  cases t with
  | transmit left ok k =>
    cases left with
    | nil => exact afterTx_movesAtEnd ok task
    | cons F rest => exact rfl
  | txWait left ok k =>
    simp only [micro, microTxWait]
    split
    · trivial
    · next e => obtain ⟨as, -, rfl⟩ := takeTxAnswer_some e; exact rfl
  | enumRead c i l n ok => exact microEnumRead_movesAtEnd c i l n ok task
  | submit1 | submit3 => exact rfl
  | submit2 => rw [micro_submit2]; exact rfl
  | submit4 | markValid =>
    simp only [micro, microSubmit4, microMarkValid]
    split
    · trivial
    · next e => obtain ⟨-, rfl⟩ := setValid_some e; exact .inl rfl
  | isValid | take1 | take2 | take3 | resultRead | parse1 | parse2 | parse3 | parse4 | parse5 => exact task.elim

end

/-- However far it runs, an operation of port `S` makes at most one transition: `INIT_STATE` stays until the operation
ends. -/
theorem runOp_staysOrMoves {t : Task} {s : State} (h : SendRunning t s) :
    StaysOrMoves s.eng.initState (runOp .S t s).eng.initState := by
  refine runTask_induct (Q := fun t' s' => SendRunning t' s' ∧ s'.eng.initState = s.eng.initState)
    (G := fun s' => StaysOrMoves s.eng.initState s'.eng.initState) ?stop ?ends ?goes ?sched _ _ _ ⟨h, rfl⟩
  case stop => exact fun _ _ run => .inl run.2
  case ends =>
    rintro t' s' st r s1 ⟨run, stays⟩ e
    have moves := micro_movesAtEnd run.2
    rwa [e, stays] at moves
  case goes =>
    rintro t' s' t1 s1 ⟨run, stays⟩ e
    have keeps := micro_keepsInv run
    have moves := micro_movesAtEnd run.2
    rw [e] at keeps moves
    exact ⟨keeps, moves.trans stays⟩
  case sched => exact fun _ _ _ run => run

/-- An `INIT_STEP` that sends no frame, started after reset, meets the hypothesis of `runOp_staysOrMoves`. -/
theorem witness_runOp_staysOrMoves :
    StaysOrMoves .poweredOn (runOp .S (.transmit [] true (.initStep .versionMaskSet)) State.reset).eng.initState :=
  runOp_staysOrMoves (s := State.reset) ⟨engineInv_reset _, rfl⟩

/-- Settles O46: a turn of port `R` writes no register, and a turn of port `S` runs one operation or none. -/
theorem initStateMovesForwardOnly : Obligations.InitStateMovesForwardOnly := by
  intro s t hi hr h
  show StaysOrMoves s.eng.initState t.eng.initState
  cases turn : s.nextTurn.turn with
  | R =>
    obtain ⟨eng, -⟩ := receivePortWritesNoRegister s t hi hr turn h
    exact .inl (congrArg Engine.initState eng)
  | S =>
    obtain ⟨reset, -⟩ | ⟨-, p, hp, hturn⟩ := step_cases h
    · exact absurd (hr.symm.trans reset) Bool.false_ne_true
    obtain rfl : p = .S := hp.trans turn
    obtain ⟨eng, onS, -⟩ := inv_iff.1 (nextTurn_inv hi)
    rw [← State.nextTurn_eng s]
    rw [← State.nextTurn_port] at hturn
    obtain ⟨-, -, rfl⟩ | ⟨i, rest, st, r, -, -, -, rfl⟩ | ⟨k, cur, rfl⟩ | ⟨i, rest, k, idle, -, -, rfl, hk⟩ := hturn
    · exact .inl rfl
    · exact .inl rfl
    · have cur : s.nextTurn.portS.cur = some k := cur
      rw [cur] at eng
      exact runOp_staysOrMoves ⟨eng, onS k cur⟩
    · have idle : s.nextTurn.portS.cur = none := idle
      rw [idle] at eng
      obtain ⟨-, task⟩ | ⟨other, -⟩ := hk
      · exact runOp_staysOrMoves (s := s.nextTurn.withCmd .S rest) ⟨eng.of_none, by simpa using task⟩
      · cases other

end Sys2Proof.Laws

end

/-! ### Codes and the state after reset (O40, O43, O2) -/

section

namespace Sys2Proof.Laws

open Machine

/-- Settles O40: each table is listed in the order of its codes. -/
theorem codesAreTheSpecs : Obligations.CodesAreTheSpecs := ⟨by decide, by decide, by decide⟩

/-- Settles O43: the reset values meet the invariant of the engine, and neither port has an operation in progress. -/
theorem invariantAtReset : Obligations.InvariantAtReset := inv_iff.2 ⟨engineInv_reset _, nofun, nofun⟩

/-- R230: the reset event occurs where it is asked for and neither port has an operation in progress. -/
theorem resetsNow_iff {s : State} :
    s.resetsNow = true ↔ s.resetReq = true ∧ s.portS.cur = none ∧ s.portR.cur = none := by
  simp only [State.resetsNow, State.betweenOperations, Bool.and_eq_true, Option.isNone_iff_eq_none]

/-- Settles O2: the reset event writes `Engine.reset`, whose every slot is empty; an operation in progress shuts it out. -/
theorem resetEventSetsTheRegisters : Obligations.ResetEventSetsTheRegisters := by
  refine ⟨fun s asked idleS idleR => ?reset, fun s busy => ?noReset⟩
  case reset =>
    have slots : ∀ j, s.resetEvent.slot j = Slot.empty := slotAt_reset
    exact ⟨s.resetEvent, if_pos (resetsNow_iff.2 ⟨asked, idleS, idleR⟩), rfl, fun j => by rw [slots]; exact ⟨rfl, rfl⟩,
      rfl, rfl, rfl, rfl, rfl⟩
  case noReset =>
    refine step_eq_stepPort_of_not_resetsNow (Bool.eq_false_iff.2 fun reset => ?_)
    obtain ⟨-, idleS, idleR⟩ := resetsNow_iff.1 reset
    exact busy.elim (· idleS) (· idleR)

end Sys2Proof.Laws

end

/-! ### What stops the machine (O50) -/

section

namespace Sys2Proof.Laws

open Machine

/-- Every operation has a next state: it is answered at once or starts a task. -/
theorem exec_next (i : Instr) (s : State) : ∃ t, exec i s = .next t := by
  obtain ⟨_, _, answered⟩ | ⟨_, started, -⟩ := exec_cases i s
  · exact ⟨_, answered⟩
  · exact ⟨_, started⟩

/-- Settles O50: of what a step can do, only bytes that are no operation give no next state. -/
theorem onlyUndecodableBytesStopTheMachine : Obligations.OnlyUndecodableBytesStopTheMachine := by
  intro s
  obtain ⟨ofReset, ofTurn⟩ := stepRunsTheDecodedOperation s
  cases reset : s.resetsNow with
  | true => exact .inl ⟨_, ofReset reset⟩
  | false =>
    obtain ⟨resumed, idle⟩ := ofTurn reset
    cases cur : (s.port s.nextTurn.turn).cur with
    | some t => exact .inl ⟨_, resumed t cur⟩
    | none =>
      obtain ⟨presented, incomplete, undecodable⟩ := idle cur
      cases decoded : decodeCommandPort s.params s.nextTurn.turn (s.port s.nextTurn.turn).cmd with
      | ok x =>
        rw [presented x.1 x.2 decoded]
        exact .inl (exec_next ..)
      | error e =>
        by_cases he : e = .incomplete
        · exact .inl ⟨_, incomplete (he ▸ decoded)⟩
        · exact .inr ⟨e, undecodable e he decoded, rfl, rfl⟩

end Sys2Proof.Laws

end

/-! ### One status per operation (O49) -/

section

namespace Sys2Proof.Laws

open Machine

/-- A port at `x` has run one operation as far as it goes and stands at `y`: the operation is in progress and nothing is answered,
or it has ended with one response (R200). -/
def KeptOrAnswered (x y : PortState) : Prop :=
  (∃ k, y = { x with cur := some k }) ∨ ∃ r, y = { x with cur := none, rsp := x.rsp ++ [r] }

theorem keptOrAnswered_suspend (s : State) (p : Port) (t : Task) : KeptOrAnswered (s.port p) ((s.suspend p t).port p) :=
  .inl ⟨t, State.suspend_port s p t⟩

theorem keptOrAnswered_answer (s : State) (p : Port) (st : Status) (r : Results) :
    KeptOrAnswered (s.port p) ((s.answer p st r).port p) :=
  .inr ⟨⟨st, r⟩, State.answer_port s p st r⟩

/-- No micro-step touches a port: only stopping and ending do. -/
theorem micro_port {p : Port} {t : Task} {s s1 : State} (h : after (micro p t s) = some s1) (q : Port) :
    s1.port q = s.port q := by
  obtain ⟨portS, portR, -⟩ := micro_frame h
  cases q with
  | S => exact portS
  | R => exact portR

/-- However far it runs, an operation is answered at most once, and then it is no longer in progress (R200). -/
theorem runOp_keptOrAnswered (p : Port) (t : Task) (s : State) : KeptOrAnswered (s.port p) ((runOp p t s).port p) :=
  runTask_induct (Q := fun _ s' => s'.port p = s.port p) (G := fun s' => KeptOrAnswered (s.port p) (s'.port p))
    (stop := fun t s' same => same ▸ keptOrAnswered_suspend s' p t)
    (ends := fun _ _ st r s1 same e =>
      (micro_port (s1 := s1) (congrArg after e) p).trans same ▸ keptOrAnswered_answer s1 p st r)
    (goes := fun _ _ _ s1 same e => (micro_port (s1 := s1) (congrArg after e) p).trans same)
    (sched := fun _ _ _ same => by cases p <;> exact same)
    (taskRank t s) t s rfl

/-- Settles O49: a turn of a port runs the one operation it resumed or took, or none. -/
theorem oneStatusPerOperation : Obligations.OneStatusPerOperation := by
  rintro s t _ hr rfl h
  refine ⟨(OthersKept.of_step hr h).port, ?_⟩
  obtain ⟨reset, -⟩ | ⟨-, p, rfl, hturn⟩ := step_cases h
  · exact absurd (hr.symm.trans reset) Bool.false_ne_true
  have resumed := State.nextTurn_port s s.nextTurn.turn
  have taken : ∀ rest, (s.nextTurn.withCmd s.nextTurn.turn rest).port s.nextTurn.turn =
      { s.port s.nextTurn.turn with cmd := rest } := fun rest => by rw [State.withCmd_port, resumed]
  obtain ⟨idle, more, rfl⟩ | ⟨i, rest, st, r, idle, decoded, -, rfl⟩ | ⟨k, cur, rfl⟩ |
    ⟨i, rest, k, idle, decoded, -, rfl, -⟩ := hturn
  · exact .inl ⟨idle, more, resumed⟩
  · have ended := keptOrAnswered_answer (s.nextTurn.withCmd s.nextTurn.turn rest) s.nextTurn.turn st r
    rw [taken] at ended
    exact .inr ⟨rest, .inr ⟨idle, i, decoded⟩, ended⟩
  · have ended := runOp_keptOrAnswered s.nextTurn.turn k s.nextTurn
    rw [resumed] at ended
    exact .inr ⟨_, .inl ⟨by rw [cur]; nofun, rfl⟩, ended⟩
  · have ended := runOp_keptOrAnswered s.nextTurn.turn k (s.nextTurn.withCmd s.nextTurn.turn rest)
    rw [taken] at ended
    exact .inr ⟨rest, .inr ⟨idle, i, decoded⟩, ended⟩

end Sys2Proof.Laws

end

/-! ### A `PARSE` stopped before p4 (O52) -/

section

namespace Sys2Proof.Laws

open Machine

/-- A `PARSE` that goes on at p4 answers over the version its slot `x` holds by then (R168, R240). -/
theorem step_parse4 {s : State} {j core : BitVec 7} {small : BitVec 4} {nonce : BitVec 32} {nb : Bytes} {v16 : BitVec 16}
    {x : Slot} (turn : s.turn = .R) (hs : s.sched = []) (cur : s.portR.cur = some (.parse4 j core small nonce nb v16))
    (held : s.slot j = x) (occupied : x.occupied = true) :
    step s = .next (s.answer .R .ok (.parsed
      { jobId := j, coreId := core, smallCoreId := small, nonce := nonce, nonceBytes := nb,
        rolledVersion := rolledVersion x.version v16 })) := by
  subst held
  have same := nextTurn_of_sched_nil hs
  have resumed := step_resumed (s := s) (t := .parse4 j core small nonce nb v16) (by rw [same, turn]; exact cur)
  have p4 := (micro_parse4 .R j core small nonce nb v16 s).trans (if_pos occupied)
  rw [resumed, same, turn, runOp_uncut p4 hs, runOp_done rfl]

/-- A `SUBMIT` leaves the slot of its identifier valid and occupied, with its own handle and version (R151). -/
theorem submitAnswered_slot_same (s : State) (wu : Handle) (version : BitVec 32) :
    (submitAnswered s (wu, version)).slot s.eng.nextId =
      { valid := true, occupied := true, wu := fitHandle s.params wu, version := version } := by
  rw [submitAnswered, State.answer_slot]
  exact State.setSlot_slot_same ..

/-- Settles O52: p4 reads the slot as it stands, and a `SUBMIT` in between writes nothing of port `R`. -/
theorem parseCutBySubmitSeesTheNewVersion : Obligations.ParseCutBySubmitSeesTheNewVersion := by
  intro s wu version core small nonce nb v16 hs hl _ cur occupied
  refine ⟨fun turn => step_parse4 turn hs cur rfl occupied, submitAnswered s (wu, version),
    exec_submit_uncut wu version hs hl, ?_⟩
  exact step_parse4 (s := { submitAnswered s (wu, version) with turn := .R }) rfl hs cur
    (submitAnswered_slot_same s wu version) rfl

end Sys2Proof.Laws

end
